-- ==== Sys2Proof/Word.lean ====
section
/-! DEFINITION. The word types of the tile engine (00_scope.md R7, R8, R9). -/

namespace Sys2Proof

/-- A byte of memory, and an int8 element (R7 `EW_IN`, R50). -/
abbrev Byte := BitVec 8

/-- An operand register or an address: `AW = 64` bits (R8, R21, R50; log 1). -/
abbrev Word := BitVec 64

/-- An int32: an accumulator lane or a destination element (R7 `EW_OUT`, R25). -/
abbrev Lane := BitVec 32

/-- A command word (R22, R91). -/
abbrev CmdWord := BitVec 32

end Sys2Proof
end

