-- ==== Sys2Proof/Config.lean ====
section
/-! DEFINITION. What an implementation of the tile engine fixes (00_scope.md R7, R8) and the model's free values
(values the spec leaves open after a command that runs: R31, R203, R214; logs 5, 6, 9). -/

namespace Sys2Proof.Config

/-- `2^AW`: no address the command computes may reach it (R8, R97). -/
def addressLimit : Nat := 2 ^ 64

/-- `SCALAR_MAX` (R8, R97). -/
def scalarMax : Nat := 2 ^ 31 - 1

/-- `K_MIN`: the smallest legal `K` of a kernel call (R8). -/
def kMin : Nat := 4

/-- `OUT_ALIGN`: the alignment of the output pointer in bytes (R8, R52). -/
def outAlign : Nat := 4

/-- `NENG`: how many engines the machine has right after reset (R8, R218; log 2). Any other number is a state of the
model too: the engines stand in a list. -/
def neng : Nat := 4

/-- `DST_ELEM_BYTES`: what `LDC` is multiplied by (R7, R163). -/
def dstElemBytes : Nat := 4

/-- `NREM_MAX`: the largest legal `n_remain` (R7, R94). -/
def nremMax : Nat := 4

/-- A free value of `width` bits: the value of an engine register the spec calls unspecified (R31, R203).
`draw` is the state's counter of draws, `slot` tells the registers of one draw apart. -/
opaque free (width draw slot : Nat) : BitVec width

/-- A free value of an engine register held as a number: a packer working register (R27, R31). -/
opaque freeNat (draw slot : Nat) : Nat

/-- Whether the byte at `addr` of an abandoned call's output region already holds its new value when reset stops
`engine` (R214: a mixture of old and new bytes). -/
opaque landed (draw engine addr : Nat) : Bool

/-- What a read of an address outside `Valid` would give. No command that the contract admits reads one
(V8, R10, R54), so no result depends on it. -/
opaque absentByte (addr : Nat) : Byte

end Sys2Proof.Config
end

