-- ==== Sys2Proof/Syntax.lean ====
section
/-! DEFINITION. The six commands (30_encoding.md R92, R102), one constructor for each row of the opcode table. -/

namespace Sys2Proof

/-- A decoded command word: the command with its flags (R102). The operands of a command stand in the operand
registers, not in its word (R95, R96). -/
inductive Instr
  /-- `PACK_A`, the left-operand panelizer (R121, R122). -/
  | packA
  /-- `PACK_B`, the right-operand panelizer (R141, R143). -/
  | packB
  /-- `KERN_8X6` with `FIRST` (R190). -/
  | kern8x6 (first : Bool)
  /-- `KERN_4X6` with `FIRST` (R191). -/
  | kern4x6 (first : Bool)
  /-- `KERN_8X4` with `FIRST` and `NREM` (R200). -/
  | kern8x4 (first : Bool) (nrem : Nat)
  /-- `KERN_4X4` with `FIRST` and `NREM` (R201). -/
  | kern4x4 (first : Bool) (nrem : Nat)
  deriving DecidableEq, Repr

end Sys2Proof
end

