-- ==== Sys2Proof/WellFormed.lean ====
section
/-! DEFINITION. Which commands exist: the field ranges of 30_encoding.md R94, R98. -/

namespace Sys2Proof

/-- `n_remain` is 0, 1, 2, 3 or 4; the encodings 5, 6, 7 of the field are reserved (R94). -/
def nremLegal (nrem : Nat) : Bool := decide (nrem ≤ Config.nremMax)

/-- A command that some valid command word stands for (R98). Only the remainder kernels have a field with a
reserved value. -/
def Instr.wf : Instr → Bool
  | .packA => true
  | .packB => true
  | .kern8x6 _ => true
  | .kern4x6 _ => true
  | .kern8x4 _ nrem => nremLegal nrem
  | .kern4x4 _ nrem => nremLegal nrem

end Sys2Proof
end

