-- ==== Sys2Proof/Decode.lean ====
section
/-! DEFINITION. Decoding and encoding of the command word (30_encoding.md R91 to R102) and the call's textual
syntax (R100). -/

namespace Sys2Proof

/-- Why a command word is reserved (R98). Every one of them is the decoder's verdict `invalid`, violation V1. -/
inductive Reserved
  /-- `CMD[31:8]` is not 0. -/
  | upperBits
  /-- `OPC` is `0x0`, `0x3` or `0x8` to `0xF`. -/
  | opcode
  /-- `FIRST` or `NREM` is set on `PACK_A` or `PACK_B`. -/
  | flagOnPacker
  /-- `NREM` is set on `KERN_8X6` or `KERN_4X6`. -/
  | nremOnFullTile
  /-- `NREM` is 5, 6 or 7 on `KERN_8X4` or `KERN_4X4`. -/
  | nremRange
  deriving DecidableEq, Repr

/-! The fields of the format `CMDW` (R91). -/

/-- `OPC = CMD[3:0]`. -/
def fieldOpc (w : CmdWord) : Nat := (w.extractLsb' 0 4).toNat

/-- `FIRST = CMD[4]`. -/
def fieldFirst (w : CmdWord) : Bool := w.getLsbD 4

/-- `NREM = CMD[7:5]`. -/
def fieldNrem (w : CmdWord) : Nat := (w.extractLsb' 5 3).toNat

/-- `ZERO = CMD[31:8]`. -/
def fieldZero (w : CmdWord) : Nat := (w.extractLsb' 8 24).toNat

/-- A packer takes no flag (R93, R94). -/
def decodePacker (i : Instr) (first : Bool) (nrem : Nat) : Except Reserved Instr :=
  if first = false ∧ nrem = 0 then .ok i else .error .flagOnPacker

/-- A full-tile kernel takes no `NREM` (R94, R192). -/
def decodeFullTile (i : Instr) (nrem : Nat) : Except Reserved Instr :=
  if nrem = 0 then .ok i else .error .nremOnFullTile

/-- A remainder kernel takes `NREM` in 0..4 (R94). -/
def decodeRemainder (i : Instr) (nrem : Nat) : Except Reserved Instr :=
  if nrem ≤ Config.nremMax then .ok i else .error .nremRange

/-- The decoder of R102: total on the 32-bit words, every reserved word rejected by name. -/
def decode (w : CmdWord) : Except Reserved Instr :=
  if fieldZero w ≠ 0 then .error .upperBits
  else if fieldOpc w = 0x1 then decodePacker .packA (fieldFirst w) (fieldNrem w)
  else if fieldOpc w = 0x2 then decodePacker .packB (fieldFirst w) (fieldNrem w)
  else if fieldOpc w = 0x4 then decodeFullTile (.kern8x6 (fieldFirst w)) (fieldNrem w)
  else if fieldOpc w = 0x5 then decodeFullTile (.kern4x6 (fieldFirst w)) (fieldNrem w)
  else if fieldOpc w = 0x6 then decodeRemainder (.kern8x4 (fieldFirst w) (fieldNrem w)) (fieldNrem w)
  else if fieldOpc w = 0x7 then decodeRemainder (.kern4x4 (fieldFirst w) (fieldNrem w)) (fieldNrem w)
  else .error .opcode

/-- The instruction that the command word of a table row stands for. A command word is one 32-bit number handed
over by the call transaction, never bytes in memory (R83, R90), so no byte order arises. -/
def decodeTableWord (nbits w : Nat) : Option Instr :=
  if w % 2 ^ nbits < 2 ^ 32 then (decode (BitVec.ofNat 32 (w % 2 ^ nbits))).toOption else none

/-! The encoder (R92, R102). -/

/-- The operation code of a command (R92). -/
def Instr.opc : Instr → Nat
  | .packA => 0x1
  | .packB => 0x2
  | .kern8x6 _ => 0x4
  | .kern4x6 _ => 0x5
  | .kern8x4 _ _ => 0x6
  | .kern4x4 _ _ => 0x7

/-- The `FIRST` field of a command (R93). -/
def Instr.firstBit : Instr → Bool
  | .packA => false
  | .packB => false
  | .kern8x6 first => first
  | .kern4x6 first => first
  | .kern8x4 first _ => first
  | .kern4x4 first _ => first

/-- The `NREM` field of a command (R94). -/
def Instr.nremField : Instr → Nat
  | .packA => 0
  | .packB => 0
  | .kern8x6 _ => 0
  | .kern4x6 _ => 0
  | .kern8x4 _ nrem => nrem
  | .kern4x4 _ nrem => nrem

/-- `w = opc + 16*first + 32*nrem` (R102). -/
def encode (i : Instr) : CmdWord :=
  BitVec.ofNat 32 (i.opc + 16 * i.firstBit.toNat + 32 * i.nremField)

/-! The textual syntax of a call (R100): the mnemonic and the `name=value` operands in the order they are written. -/

/-- The mnemonic of a command (R92). -/
def Instr.mnemonic : Instr → String
  | .packA => "PACK_A"
  | .packB => "PACK_B"
  | .kern8x6 _ => "KERN_8X6"
  | .kern4x6 _ => "KERN_4X6"
  | .kern8x4 _ _ => "KERN_8X4"
  | .kern4x4 _ _ => "KERN_4X4"

/-- The operands of a call as R100 writes them, flags last, for the operand register values `x`. -/
def Instr.operandText (i : Instr) (x : Nat → Nat) : List (String × Nat) :=
  let kernel : List (String × Nat) :=
    [("a", x 0), ("b", x 1), ("k", x 2), ("out", x 3), ("ldc", x 4), ("first", i.firstBit.toNat)]
  match i with
  | .packA => [("dst", x 0), ("src", x 1), ("lds", x 2), ("y0", x 3), ("ymax", x 4), ("k0", x 5), ("kmax", x 6)]
  | .packB => [("dst", x 0), ("src", x 1), ("lds", x 2), ("x0", x 3), ("xmax", x 4), ("k0", x 5), ("kmax", x 6)]
  | .kern8x6 _ => kernel
  | .kern4x6 _ => kernel
  | .kern8x4 _ nrem => kernel ++ [("nrem", nrem)]
  | .kern4x4 _ nrem => kernel ++ [("nrem", nrem)]

/-- How many operand registers a command reads, from `x[0]` on (R21, R95, R96); R100 writes `-` for the others. -/
def Instr.registersRead : Instr → Nat
  | .packA => 7
  | .packB => 7
  | .kern8x6 _ => 5
  | .kern4x6 _ => 5
  | .kern8x4 _ _ => 5
  | .kern4x4 _ _ => 5

end Sys2Proof
end

