-- ==== Sys2Proof/Machine/State.lean ====
section
/-! DEFINITION. The state of the tile engine (10_state.md R20 to R32): the engines' registers, memory, the driver's
pending actions, reset, and the named reasons a step can stop. -/

namespace Sys2Proof.Machine

/-- The sequencer's phase (R23). -/
inductive Phase
  /-- No call in progress. -/
  | idle
  /-- Accumulator init of a kernel (R164). -/
  | init
  /-- The unrolled reduction loop of a kernel (R167). -/
  | loop
  /-- The odd-length correction step of a kernel (R167). -/
  | tail
  /-- Store-back of a kernel (R169). -/
  | store
  /-- The copy of a packer (R122, R143). -/
  | copy
  deriving DecidableEq, Repr

/-- The packer working registers (R27), under the names of the pseudocode of R122 and R143. The spec gives a width
to `OPTR` only; the others are plain numbers (log 3). Their values at the start of a call: log 22. -/
structure PackRegs where
  /-- `OPTR`, the output cursor of `PACK_A`. -/
  optr : Word
  /-- The panel or column cursor: `y` of `PACK_A`, `x` of `PACK_B`. -/
  cursor : Nat
  /-- `s`, the step counter of both packers. -/
  kstep : Nat
  /-- `g` of `PACK_A`, the row group being copied. -/
  group : Nat
  /-- `h` of `PACK_A`, which of the two row groups of an 8-row panel. -/
  half : Nat
  /-- `q` of `PACK_B`, the column panel. -/
  panel : Nat
  /-- `row` of `PACK_B`, the address of the source step row. -/
  row : Nat
  deriving DecidableEq, Repr

/-- One engine (R14, R20, R218) with its private registers. -/
structure Engine where
  /-- `x[0]` to `x[6]`, the operand registers (R21). -/
  x : Vector Word 7
  /-- `CMD`, the command latch (R22). -/
  cmd : CmdWord
  /-- `PHASE` (R23). -/
  phase : Phase
  /-- `STEP`, the index of the next reduction step (R23). -/
  step : Word
  /-- `TRIPS`, the number of unrolled loop trips still to run (R23). -/
  trips : Word
  /-- `ODD` (R24). -/
  odd : Bool
  /-- `ACC[i][j]`, 8 rows of 6 lanes (R25). -/
  acc : Vector (Vector Lane 6) 8
  /-- `VA[0..31]`, one reduction step of the packed A panel (R26). -/
  va : Vector Byte 32
  /-- `VB[0..23]`, one reduction step of the packed B panel (R26). -/
  vb : Vector Byte 24
  /-- The packer working registers (R27). -/
  pack : PackRegs
  deriving DecidableEq, Repr

/-- Memory with `Valid` (R8, R28, R54): the accessible byte addresses with their contents, by rising address. An
address that is not listed is not in `Valid` and has no contents. -/
abbrev Memory := List Host.Cell

/-- The canonical form of memory: addresses strictly rising, all of them below `2^AW` (R50). -/
abbrev Memory.wf (m : Memory) : Prop :=
  m.Pairwise (fun c d => c.1 < d.1) ∧ ∀ c ∈ m, c.1 < Config.addressLimit

/-- What the outside world does to the machine next (R20 (b), R90, R240, R250): the driver's actions and the order in
which the engines move, oldest first. -/
inductive Event
  /-- A call transaction on an engine that runs to its end with nothing in between (R90). -/
  | call (engine : Nat) (cmd : CmdWord) (x : Vector Word 7)
  /-- A call transaction of another worker thread: latched now, run by later `advance` events (R80, R90, R218). -/
  | start (engine : Nat) (cmd : CmdWord) (x : Vector Word 7)
  /-- The engine takes the next step of its sequencer (R23, R250). -/
  | advance (engine : Nat)
  /-- A driver thread stores a byte, allocating the address if it is new (R28, R54, R80 (c)). -/
  | driverWrite (addr : Word) (b : Byte)
  /-- A driver thread loads a byte (R80 (c), R241 step 5). -/
  | driverRead (addr : Word)
  /-- The platform resets the engines (R214, R240). -/
  | reset
  deriving DecidableEq, Repr

/-- The whole machine. -/
structure State where
  /-- The engines, `NENG` of them (R20, R218). -/
  engines : List Engine
  /-- Memory with `Valid` (R28, R54). -/
  mem : Memory
  /-- What the outside world does next (R20 (b), R90). The model's own field (log 7). -/
  agenda : List Event
  /-- The engine the call transaction in hand was presented to (R90). The model's own field (log 7). -/
  active : Nat
  /-- How many draws of free values have been made. The model's own field (log 5). -/
  draws : Nat
  deriving DecidableEq, Repr

/-- The hardware raises nothing (R210). A fault of the model stops a script of the outside world that means nothing. -/
inductive Fault
  /-- Raised by `step` and by `exec` when the script names an engine the machine does not have. Safe: the machine
  stops. -/
  | noSuchEngine
  /-- Raised by `step` when a driver thread loads an address outside `Valid` (R54). Safe: the machine stops. -/
  | driverUnmapped
  deriving DecidableEq, Repr

/-- The contract violations of 60_exceptions.md R211: a call outside the contract has undefined behaviour and is
given no meaning. All of them are safe: the machine stops. -/
inductive Refusal
  /-- Raised by `exec` for an instruction whose meaning is not written. Safe. -/
  | notModelled (mnemonic : String)
  /-- V1, raised by `step` and by the remainder kernels: the command word decodes to `invalid` (R98). Safe. -/
  | v1InvalidCommand
  /-- V2, raised by the kernels: `K mod 4 != 0` or `K < 4` (R162). Safe. -/
  | v2ReductionLength
  /-- V3, raised by `PACK_A`: `LO mod 4 != 0`, `HI < LO` or `(HI - LO) mod 4 != 0` (R120). Safe. -/
  | v3RowRange
  /-- V4, raised by the packers: `K0 mod 4 != 0`, `KMAX < K0` or `(KMAX - K0) mod 4 != 0` (R120, R140). Safe. -/
  | v4ReductionRange
  /-- V5, raised by `PACK_B`: `HI < LO` (R140). Safe. -/
  | v5ColumnRange
  /-- V6, raised by the kernels: `LDC < NR` (R162). Safe. -/
  | v6RowStride
  /-- V7, raised by all commands: a scalar operand above `SCALAR_MAX` (R97). Safe. -/
  | v7ScalarRange
  /-- V8, raised by all commands: a byte to be read or written is not in `Valid`, or an address the command computes
  reaches `2^AW` (R54, R97). Safe. -/
  | v8Access
  /-- V9, raised by the kernels: `OUT mod 4 != 0` (R52). Safe. -/
  | v9OutputAlignment
  /-- V10, raised by all commands: regions of the call overlap (R71). Safe. -/
  | v10Overlap
  /-- V11, raised by all commands and by the driver's accesses: two agents touch one byte at a time, one of them
  writing (R80). Safe. -/
  | v11Race
  /-- V12, raised by `step` and by all commands: the call is presented to an engine that is not `IDLE` (R90). Safe. -/
  | v12Busy
  deriving DecidableEq, Repr

/-- The packer working registers right after reset (R32: unspecified; log 4 names zero). -/
def PackRegs.reset : PackRegs :=
  { optr := 0, cursor := 0, kstep := 0, group := 0, half := 0, panel := 0, row := 0 }

/-- An engine right after reset: `PHASE = IDLE` (R32, R240); the registers R32 leaves unspecified hold the values
log 4 names. -/
def Engine.reset : Engine :=
  { x := Vector.replicate 7 0
    cmd := 0
    phase := .idle
    step := 0
    trips := 0
    odd := false
    acc := Vector.replicate 8 (Vector.replicate 6 0)
    va := Vector.replicate 32 0
    vb := Vector.replicate 24 0
    pack := PackRegs.reset }

/-- The machine with `n` engines right after reset (R32, R240): nothing is fetched and nothing runs until the driver
issues a call; nothing has been allocated. -/
def State.resetWith (n : Nat) : State :=
  { engines := List.replicate n Engine.reset, mem := [], agenda := [], active := 0, draws := 0 }

/-- The machine right after reset. -/
def State.reset : State := State.resetWith Config.neng

end Sys2Proof.Machine
end

