-- ==== Sys2Proof/Machine/Ops.lean ====
section
/-! DEFINITION. The shared operations: arithmetic (R9, R165), memory (R10, R50, R51), the register files (R21, R25,
R26) and the end of a call (R31). There is no exception to take and none to return from (R210, R214, R215). -/

namespace Sys2Proof.Machine

/-! Numbers (R9). -/

/-- `s8(b)`: the signed value of a byte. -/
def s8 (b : Byte) : Int := b.toInt

/-- `wrap32(v)`: the int32 with the same low 32 bits. -/
def wrap32 (v : Int) : Lane := BitVec.ofInt 32 v

/-- `DOT4(acc, a, b)` (R165): four exact products, one wrapping addition (R173). -/
def dot4 (acc : Lane) (a b : Nat → Byte) : Lane :=
  wrap32 (acc.toInt + s8 (a 0) * s8 (b 0) + s8 (a 1) * s8 (b 1) + s8 (a 2) * s8 (b 2) + s8 (a 3) * s8 (b 3))

/-- A file of `n` registers from a rule that names each one's value. -/
def tabulate {α : Type} (n : Nat) (f : Nat → α) : Vector α n :=
  ⟨((List.range n).map f).toArray, by simp⟩

/-! Memory (R10, R50, R54). -/

/-- The contents of an address, if it is in `Valid`. -/
def Memory.get? : Memory → Nat → Option Byte
  | [], _ => none
  | (k, b) :: rest, a => if k = a then some b else Memory.get? rest a

/-- The memory with one byte written; an address that is new is allocated, in its place. -/
def Memory.set : Memory → Nat → Byte → Memory
  | [], a, b => [(a, b)]
  | (k, c) :: rest, a, b =>
    if a < k then (a, b) :: (k, c) :: rest
    else if k = a then (k, b) :: rest
    else (k, c) :: Memory.set rest a b

/-- Whether a byte may be accessed: its address is below `2^AW` and in `Valid` (R10, R54). -/
def Memory.accessible (m : Memory) (a : Nat) : Bool :=
  decide (a < Config.addressLimit) && (Memory.get? m a).isSome

/-- `MemRead(addr, 1)`. -/
def Memory.read (m : Memory) (a : Nat) : Byte := (Memory.get? m a).getD (Config.absentByte a)

/-- `MemRead(addr, n)`: lowest address first (R10). -/
def Memory.readBytes (m : Memory) (a n : Nat) : List Byte :=
  (List.range n).map fun t => Memory.read m (a + t)

/-- `MemWrite(addr, n, v)`: lowest address first (R10). -/
def Memory.writeBytes (m : Memory) (a : Nat) : List Byte → Memory
  | [] => m
  | b :: rest => Memory.writeBytes (Memory.set m a b) (a + 1) rest

/-- `MemReadI32(addr)`: little-endian (R10, R51). -/
def Memory.readI32 (m : Memory) (a : Nat) : Lane :=
  BitVec.ofNat 32 ((Memory.read m a).toNat + 2 ^ 8 * (Memory.read m (a + 1)).toNat
    + 2 ^ 16 * (Memory.read m (a + 2)).toNat + 2 ^ 24 * (Memory.read m (a + 3)).toNat)

/-- The four bytes of an int32, least significant first (R10, R51). -/
def i32Bytes (v : Lane) : List Byte :=
  (List.range 4).map fun t => BitVec.ofNat 8 (v.toNat / 2 ^ (8 * t))

/-- `MemWriteI32(addr, v)` (R10). -/
def Memory.writeI32 (m : Memory) (a : Nat) (v : Lane) : Memory := Memory.writeBytes m a (i32Bytes v)

/-! The register files of an engine (R21, R25, R26). -/

/-- `x[n]`, as the unsigned value every operand is (R21, R97). -/
def Engine.operand (e : Engine) (n : Nat) : Nat := (e.x.toList.getD n 0).toNat

/-- `ACC[i][j]` (R25). -/
def Engine.accAt (e : Engine) (i j : Nat) : Lane :=
  ((e.acc.toList.getD i (Vector.replicate 6 0)).toList.getD j 0)

/-- The accumulator file whose lane `ACC[i][j]` is `f i j`. -/
def accFile (f : Nat → Nat → Lane) : Vector (Vector Lane 6) 8 := tabulate 8 fun i => tabulate 6 (f i)

/-- `ACCV[h][j]`: the vector register that holds `ACC[4h+r][j]` in its lane `r` (R25), a view of the same lanes. -/
def Engine.accVector (e : Engine) (h j : Nat) : Vector Lane 4 := tabulate 4 fun r => e.accAt (4 * h + r) j

/-- `VA[n]` (R26). -/
def Engine.vaAt (e : Engine) (n : Nat) : Byte := e.va.toList.getD n 0

/-- `VB[n]` (R26). -/
def Engine.vbAt (e : Engine) (n : Nat) : Byte := e.vb.toList.getD n 0

/-! The end of a call (R31, R170). -/

/-- The packer working registers after a call: unspecified (R27, R31; log 5). -/
def PackRegs.afterCall (draw : Nat) : PackRegs :=
  { optr := Config.free 64 draw 500
    cursor := Config.freeNat draw 501
    kstep := Config.freeNat draw 502
    group := Config.freeNat draw 503
    half := Config.freeNat draw 504
    panel := Config.freeNat draw 505
    row := Config.freeNat draw 506 }

/-- An engine after a call: back in `IDLE`, every other register unspecified (R31; log 5). -/
def Engine.afterCall (draw : Nat) : Engine :=
  { x := tabulate 7 fun n => Config.free 64 draw (100 + n)
    cmd := Config.free 32 draw 110
    phase := .idle
    step := Config.free 64 draw 111
    trips := Config.free 64 draw 112
    odd := Config.free 1 draw 113 == 1
    acc := accFile fun i j => Config.free 32 draw (200 + 6 * i + j)
    va := tabulate 32 fun n => Config.free 8 draw (300 + n)
    vb := tabulate 24 fun n => Config.free 8 draw (400 + n)
    pack := PackRegs.afterCall draw }

/-- The lane of a masked column that a warm call does not load: unspecified (R164, R203; log 6). -/
def maskedLane (draw i j : Nat) : Lane := Config.free 32 draw (6 * i + j)

/-- The machine with the registers of engine `n` replaced. -/
def State.setEngine (s : State) (n : Nat) (e : Engine) : State := { s with engines := s.engines.set n e }

end Sys2Proof.Machine
end

