-- ==== Sys2Proof/Machine/Operands.lean ====
section
/-! DEFINITION. The operands of the commands (30_encoding.md R95 to R97), the work a command stands for, the regions
it touches (20_memory.md R70) and its preconditions (R120, R140, R162, R211, R213). -/

namespace Sys2Proof.Machine

/-! Operands of a kernel (R95). -/

/-- `APTR`, the packed A pointer. -/
def Engine.aptr (e : Engine) : Nat := e.operand 0
/-- `BPTR`, the packed B pointer. -/
def Engine.bptr (e : Engine) : Nat := e.operand 1
/-- `K`, the reduction length. -/
def Engine.klen (e : Engine) : Nat := e.operand 2
/-- `OUT`, the destination tile's origin. -/
def Engine.outp (e : Engine) : Nat := e.operand 3
/-- `LDC`, the destination row stride in elements. -/
def Engine.ldc (e : Engine) : Nat := e.operand 4

/-- `S = K/4`, the number of reduction steps (R97 (b)). -/
def Engine.ksteps (e : Engine) : Nat := e.klen / 4

/-- `LDCB = 4*LDC`, the destination row stride in bytes (R97 (a), R163). -/
def Engine.ldcb (e : Engine) : Nat := Config.dstElemBytes * e.ldc

/-- `addrC(i, j)`, the address of tile element (`i`, `j`) (R69, R163). -/
def Engine.addrC (e : Engine) (i j : Nat) : Nat := e.outp + i * e.ldcb + Config.dstElemBytes * j

/-! Operands of a packer (R96). -/

/-- `DST`, the packed buffer. -/
def Engine.dst (e : Engine) : Nat := e.operand 0
/-- `SRC`, the base of the source matrix view. -/
def Engine.src (e : Engine) : Nat := e.operand 1
/-- `LDS`, the stride of the source matrix view in bytes. -/
def Engine.lds (e : Engine) : Nat := e.operand 2
/-- `LO`, the range's low bound (`y0` or `x0`). -/
def Engine.lo (e : Engine) : Nat := e.operand 3
/-- `HI`, the range's high bound (`ymax` or `xmax`). -/
def Engine.hi (e : Engine) : Nat := e.operand 4
/-- `K0`, the reduction range's low bound. -/
def Engine.k0 (e : Engine) : Nat := e.operand 5
/-- `KMAX`, the reduction range's high bound. -/
def Engine.kmax (e : Engine) : Nat := e.operand 6

/-- `K = KMAX - K0`, the reduction length packed (R122, R143). -/
def Engine.packK (e : Engine) : Nat := e.kmax - e.k0

/-- `S = K div 4`, the number of K-steps packed (R122, R143). -/
def Engine.packSteps (e : Engine) : Nat := e.packK / 4

/-- `s0 = K0 div 4`, the first K-step of the source (R97 (c), R122, R143). -/
def Engine.packFirst (e : Engine) : Nat := e.k0 / 4

/-- `addrA(m, k)`, the source address of element `A[m][k]` (R58). -/
def Engine.addrA (e : Engine) (m k : Nat) : Nat := e.src + m / 4 * e.lds + k / 4 * 16 + m % 4 * 4 + k % 4

/-- `addrB(k, n)`, the source address of element `B[k][n]` (R59). -/
def Engine.addrB (e : Engine) (k n : Nat) : Nat := e.src + k / 4 * e.lds + n * 4 + k % 4

/-- `Mp = HI - LO`, the rows `PACK_A` packs (R60); `N = HI - LO`, the columns `PACK_B` packs (R64). -/
def Engine.span (e : Engine) : Nat := e.hi - e.lo

/-- `n6`, the number of 6-column panels (R64, R142). -/
def Engine.n6 (e : Engine) : Nat := e.span / 6

/-- `n4`, the number of 4-column panels, 0 or 1 (R64, R142). -/
def Engine.n4 (e : Engine) : Nat := e.span % 6 / 4

/-- `rem`, the valid columns of the short panel; there is no short panel when it is 0 (R64, R142). -/
def Engine.rem (e : Engine) : Nat := e.span % 6 % 4

/-- `B4`, where the 4-column panel starts (R64, R142). -/
def Engine.b4 (e : Engine) : Nat := e.dst + e.n6 * 6 * e.packK

/-- `BS`, where the short panel starts (R64, R142). -/
def Engine.bs (e : Engine) : Nat := e.b4 + e.n4 * 4 * e.packK

/-! The work of a command (R181): four kernels are one routine with its tile shape. -/

/-- What an engine runs. -/
inductive Job
  /-- `PACK_A`. -/
  | packA
  /-- `PACK_B`. -/
  | packB
  /-- `KERN(MR, NR, NV)` with `FIRST` (R160, R170). -/
  | kernel (mr nr nv : Nat) (first : Bool)
  deriving DecidableEq, Repr

/-! Regions (R70, R126, R147, R177), as lists of byte addresses. -/

/-- The source bytes of `PACK_A`: for every row group `G` with `LO/4 <= G < HI/4`, `4*K` bytes (R126). -/
def Engine.packASource (e : Engine) : List Nat :=
  (List.range' (e.lo / 4) (e.hi / 4 - e.lo / 4)).flatMap fun g =>
    List.range' (e.src + g * e.lds + 16 * e.packFirst) (4 * e.packK)

/-- The packed region of `PACK_A`: `Mp*K` bytes from `DST` (R60, R126). -/
def Engine.packAPacked (e : Engine) : List Nat := List.range' e.dst (e.span * e.packK)

/-- The source bytes of `PACK_B`: for every step, `4*N` bytes (R147). -/
def Engine.packBSource (e : Engine) : List Nat :=
  (List.range e.packSteps).flatMap fun s =>
    List.range' (e.src + (e.packFirst + s) * e.lds + 4 * e.lo) (4 * e.span)

/-- The packed region of `PACK_B` (R64, R144). -/
def Engine.packBPacked (e : Engine) : List Nat :=
  List.range' e.dst (e.n6 * 6 * e.packK + e.n4 * 4 * e.packK + (if 0 < e.rem then 4 * e.packK else 0))

/-- The A region and the B region of a kernel (R70). -/
def Engine.panels (e : Engine) (mr nr : Nat) : List Nat :=
  List.range' e.aptr (mr * e.klen) ++ List.range' e.bptr (nr * e.klen)

/-- The C region of a kernel: the `MR*NV` valid elements (R70). -/
def Engine.tile (e : Engine) (mr nv : Nat) : List Nat :=
  (List.range mr).flatMap fun i => (List.range nv).flatMap fun j => List.range' (e.addrC i j) 4

/-- The bytes a command reads besides its output region: the source region of a packer, the panels of a kernel. -/
def Job.inputs (j : Job) (e : Engine) : List Nat :=
  match j with
  | .packA => e.packASource
  | .packB => e.packBSource
  | .kernel mr nr _ _ => e.panels mr nr

/-- The bytes a command writes: the packed region of a packer, the C region of a kernel (which a warm call also
reads, R164). -/
def Job.outputs (j : Job) (e : Engine) : List Nat :=
  match j with
  | .packA => e.packAPacked
  | .packB => e.packBPacked
  | .kernel mr _ nv _ => e.tile mr nv

/-- The addresses `PACK_A` computes besides those of the bytes it touches: `OPTR` at its start and after each of its
16-byte cells (R122). -/
def Engine.packAComputed (e : Engine) : List Nat :=
  (List.range (e.span * e.packK / 16 + 1)).map fun c => e.dst + 16 * c

/-- The addresses `PACK_B` computes besides those of the bytes it touches: `B4` and `BS`, whether or not those panels
exist, and the source step row of every step, whether or not a column is copied from it (R143). -/
def Engine.packBComputed (e : Engine) : List Nat :=
  e.b4 :: e.bs :: (List.range e.packSteps).map fun s => e.src + (e.packFirst + s) * e.lds

/-- The addresses a command computes besides those of the bytes it touches (R97; log 11). A kernel computes the
addresses of the bytes it touches only (R164, R166, R169). -/
def Job.computed (j : Job) (e : Engine) : List Nat :=
  match j with
  | .packA => e.packAComputed
  | .packB => e.packBComputed
  | .kernel _ _ _ _ => []

/-- Whether two lists of addresses share one. -/
def overlap (as bs : List Nat) : Bool := as.any fun a => bs.contains a

/-! Preconditions (R211), tested in the order of R213. -/

/-- The scalar operands of a command that `SCALAR_MAX` bounds (R97). -/
def Job.scalars (j : Job) (e : Engine) : List Nat :=
  match j with
  | .packA => [e.lds, e.lo, e.hi, e.k0, e.kmax]
  | .packB => [e.lds, e.lo, e.hi, e.k0, e.kmax]
  | .kernel _ _ _ _ => [e.klen, e.ldc]

/-- V7. -/
def Job.badScalar (j : Job) (e : Engine) : Bool := (j.scalars e).any fun v => decide (Config.scalarMax < v)

/-- V2. -/
def Engine.badK (e : Engine) : Bool := decide (e.klen % 4 ≠ 0) || decide (e.klen < Config.kMin)

/-- V3. -/
def Engine.badRows (e : Engine) : Bool :=
  decide (e.lo % 4 ≠ 0) || decide (e.hi < e.lo) || decide ((e.hi - e.lo) % 4 ≠ 0)

/-- V4. -/
def Engine.badReduction (e : Engine) : Bool :=
  decide (e.k0 % 4 ≠ 0) || decide (e.kmax < e.k0) || decide ((e.kmax - e.k0) % 4 ≠ 0)

/-- V5. -/
def Engine.badColumns (e : Engine) : Bool := decide (e.hi < e.lo)

/-- V6. -/
def Engine.badStride (e : Engine) (nr : Nat) : Bool := decide (e.ldc < nr)

/-- V9. -/
def Engine.badAlignment (e : Engine) : Bool := decide (e.outp % Config.outAlign ≠ 0)

/-- V8: a byte to be read or written is not accessible, or an address computation reaches `2^AW` (R97, R211;
log 11). -/
def Job.badAccess (j : Job) (e : Engine) (m : Memory) : Bool :=
  !((j.inputs e ++ j.outputs e).all fun a => Memory.accessible m a)
    || (j.computed e).any fun a => decide (Config.addressLimit ≤ a)

/-- V10. -/
def Job.badOverlap (j : Job) (e : Engine) : Bool := overlap (j.inputs e) (j.outputs e)

/-- V2 to V6 and V9: the conditions on the operands of one command, in numeric order. -/
def Job.operandChecks (j : Job) (e : Engine) : List (Bool × Refusal) :=
  match j with
  | .packA => [(e.badRows, .v3RowRange), (e.badReduction, .v4ReductionRange)]
  | .packB => [(e.badReduction, .v4ReductionRange), (e.badColumns, .v5ColumnRange)]
  | .kernel _ nr _ _ =>
    [(e.badK, .v2ReductionLength), (e.badStride nr, .v6RowStride), (e.badAlignment, .v9OutputAlignment)]

/-- The reason of the first check that fails. -/
def firstViolation : List (Bool × Refusal) → Option Refusal
  | [] => none
  | (bad, r) :: rest => if bad then some r else firstViolation rest

/-- The first violation of V2 to V10 a call meets, in the order of R213: V7, V2 to V6, V9, V8, V10. -/
def Job.violation (j : Job) (e : Engine) (m : Memory) : Option Refusal :=
  firstViolation ((j.badScalar e, .v7ScalarRange) :: j.operandChecks e
    ++ [(j.badAccess e m, .v8Access), (j.badOverlap e, .v10Overlap)])

end Sys2Proof.Machine
end

