-- ==== Sys2Proof/Machine/Flags.lean ====
section
/-! DEFINITION. The one flag `ODD` and the loop control it belongs to (10_state.md R23, R24; 42_kernel_common.md
R167). There are no condition codes (R24): no command computes a carry, overflow, zero or sign flag. -/

namespace Sys2Proof.Machine

/-- `ODD = (K/4) mod 2` (R24, R167). -/
def oddFlag (steps : Nat) : Bool := decide (steps % 2 = 1)

/-- `TRIPS = S div 2`, the number of trips of the unrolled loop (R167). -/
def tripCount (steps : Nat) : Word := BitVec.ofNat 64 (steps / 2)

/-- The phase after the unrolled loop: `TAIL` is skipped when `ODD = 0` (R23). -/
def Engine.phaseAfterLoop (e : Engine) : Phase := if e.odd then .tail else .store

/-- The phase after `INIT`: `LOOP` is skipped when `TRIPS = 0` (R23). -/
def Engine.phaseAfterInit (e : Engine) : Phase := if e.trips = 0 then e.phaseAfterLoop else .loop

/-- The phase after one trip: the loop goes on while `TRIPS > 0` (R167). -/
def Engine.phaseAfterTrip (e : Engine) : Phase := if e.trips = 0 then e.phaseAfterLoop else .loop

end Sys2Proof.Machine
end

