-- ==== Sys2Proof/Machine/KernelPhases.lean ====
section
/-! DEFINITION. The three phases of a kernel (42_kernel_common.md R160 to R170): `mr` rows, `nr` columns, of which the
first `nv` are valid. -/

namespace Sys2Proof.Machine

/-- The value `INIT` gives lane (`i`, `j`) (R164): zero on a cold start; else the destination element of a valid
column, or an unspecified value of a masked one (R203). -/
def Engine.initLane (e : Engine) (nv : Nat) (first : Bool) (draw : Nat) (m : Memory) (i j : Nat) : Lane :=
  if first then 0
  else if j < nv then Memory.readI32 m (e.addrC i j)
  else maskedLane draw i j

/-- `INIT` (R164); the lanes outside the tile are not touched (R25). -/
def Engine.initTile (e : Engine) (mr nr nv : Nat) (first : Bool) (draw : Nat) (m : Memory) : Engine :=
  { e with
    acc := accFile fun i j => if i < mr ∧ j < nr then e.initLane nv first draw m i j else e.accAt i j
    phase := e.phaseAfterInit }

/-- The loads of `RSTEP(s)` (R166): one step of the A panel and one of the B panel; a smaller shape leaves the rest of
the operand vectors alone (R26). -/
def Engine.loadStep (e : Engine) (mr nr s : Nat) (m : Memory) : Engine :=
  { e with
    va := tabulate 32 fun n => if n < 4 * mr then Memory.read m (e.aptr + 4 * mr * s + n) else e.vaAt n
    vb := tabulate 24 fun n => if n < 4 * nr then Memory.read m (e.bptr + 4 * nr * s + n) else e.vbAt n }

/-- The dot products of `RSTEP(s)` (R166): every lane of the tile, masked columns too, once. -/
def Engine.accumulate (e : Engine) (mr nr : Nat) : Engine :=
  { e with
    acc := accFile fun i j =>
      if i < mr ∧ j < nr then
        dot4 (e.accAt i j) (fun kk => e.vaAt (4 * i + kk)) (fun kk => e.vbAt (4 * j + kk))
      else e.accAt i j }

/-- `RSTEP(s)` (R166). -/
def Engine.rstep (e : Engine) (mr nr s : Nat) (m : Memory) : Engine :=
  (e.loadStep mr nr s m).accumulate mr nr

/-- One trip of the unrolled loop: two reduction steps (R167). -/
def Engine.loopTrip (e : Engine) (mr nr : Nat) (m : Memory) : Engine :=
  let two := (e.rstep mr nr e.step.toNat m).rstep mr nr (e.step.toNat + 1) m
  let counted := { two with step := two.step + 2, trips := two.trips - 1 }
  { counted with phase := counted.phaseAfterTrip }

/-- The odd-length correction step (R167). -/
def Engine.tailStep (e : Engine) (mr nr : Nat) (m : Memory) : Engine :=
  let one := e.rstep mr nr e.step.toNat m
  { one with step := one.step + 1, phase := .store }

/-- The stores of row `i`: the valid columns, ascending (R169, R202). -/
def Engine.storeRow (e : Engine) (nv : Nat) (m : Memory) (i : Nat) : Memory :=
  (List.range nv).foldl (fun m j => Memory.writeI32 m (e.addrC i j) (e.accAt i j)) m

/-- `STORE` (R169): row by row. -/
def Engine.storeTile (e : Engine) (mr nv : Nat) (m : Memory) : Memory :=
  (List.range mr).foldl (e.storeRow nv) m

end Sys2Proof.Machine
end

