-- ==== Sys2Proof/Machine/PackCopy.lean ====
section
/-! DEFINITION. The copy loops of the packers (40_pack_a.md R122, 41_pack_b.md R143), over the packer working
registers and memory. -/

namespace Sys2Proof.Machine

/-- What a copy loop changes: the packer working registers and memory. -/
abbrev Copy := PackRegs × Memory

/-! `PACK_A` (R122). -/

/-- One 16-byte MK4 cell from `src` to `OPTR`; `OPTR` moves past it. -/
def copyCell (src : Nat) (c : Copy) : Copy :=
  ({ c.1 with optr := c.1.optr + 16 },
   Memory.writeBytes c.2 c.1.optr.toNat (Memory.readBytes c.2 src 16))

/-- The body of the innermost loop: the cell of step `s` of row group `g + h`. DESIGN CHOICE (log 22): the loop of the
4-row panel, which has no `h` in R122, runs with `h = 0` and writes it. -/
def Engine.copyGroupCell (e : Engine) (s : Nat) (c : Copy) (h : Nat) : Copy :=
  copyCell (e.src + (c.1.group + h) * e.lds + (e.packFirst + s) * 16) ({ c.1 with kstep := s, half := h }, c.2)

/-- One panel of `groups` row groups: for each K-step, the cell of each of its row groups in turn (R61, R62, R124,
R125). An 8-row panel has two row groups, a 4-row panel one. -/
def Engine.copyRowPanel (e : Engine) (groups : Nat) (c : Copy) : Copy :=
  let start : Copy := ({ c.1 with group := c.1.cursor / 4 }, c.2)
  let done := (List.range e.packSteps).foldl
    (fun c s => (List.range groups).foldl (e.copyGroupCell s) c) start
  ({ done.1 with cursor := done.1.cursor + 4 * groups }, done.2)

/-- `while y + rows <= HI`: as many panels of `4*groups` rows as still fit. -/
def Engine.copyRowPanels (e : Engine) (groups : Nat) (c : Copy) : Copy :=
  (e.copyRowPanel groups)^[(e.hi - c.1.cursor) / (4 * groups)] c

/-- The whole copy of `PACK_A`: the 8-row panels, then the 4-row remainder. -/
def Engine.copyA (e : Engine) (m : Memory) : Copy :=
  e.copyRowPanels 1 (e.copyRowPanels 2 (e.pack, m))

/-! `PACK_B` (R143). -/

/-- A run of `cols` columns at the column cursor of the current step row, padded with zero bytes to `width` columns,
to address `target`; the cursor moves past the columns (R66, R67, R145). -/
def copyRun (cols width target : Nat) (c : Copy) : Copy :=
  ({ c.1 with cursor := c.1.cursor + cols },
   Memory.writeBytes c.2 target
     (Memory.readBytes c.2 (c.1.row + 4 * c.1.cursor) (4 * cols) ++ List.replicate (4 * (width - cols)) 0))

/-- The run of step `s` of 6-column panel `q`. -/
def Engine.copyRun6 (e : Engine) (s : Nat) (c : Copy) (q : Nat) : Copy :=
  copyRun 6 6 (e.dst + q * 6 * e.packK + 24 * s) ({ c.1 with panel := q }, c.2)

/-- The run of step `s` of 4-column panel `q`. -/
def Engine.copyRun4 (e : Engine) (s : Nat) (c : Copy) (q : Nat) : Copy :=
  copyRun 4 4 (e.b4 + q * 4 * e.packK + 16 * s) ({ c.1 with panel := q }, c.2)

/-- The run of step `s` of the short panel, if there is one. -/
def Engine.copyShort (e : Engine) (s : Nat) (c : Copy) : Copy :=
  if 0 < e.rem then copyRun e.rem 4 (e.bs + 16 * s) c else c

/-- One K-step of `PACK_B`: the 6-column panels, the 4-column panel, the short panel. -/
def Engine.copyStepRow (e : Engine) (c : Copy) (s : Nat) : Copy :=
  let start : Copy := ({ c.1 with kstep := s, row := e.src + (e.packFirst + s) * e.lds, cursor := e.lo }, c.2)
  e.copyShort s ((List.range e.n4).foldl (e.copyRun4 s) ((List.range e.n6).foldl (e.copyRun6 s) start))

/-- The whole copy of `PACK_B`: the K-steps outermost (R143, R146). -/
def Engine.copyB (e : Engine) (m : Memory) : Copy :=
  (List.range e.packSteps).foldl e.copyStepRow (e.pack, m)

end Sys2Proof.Machine
end

