-- ==== Sys2Proof/Machine/Sequencer.lean ====
section
/-! DEFINITION. The sequencer (10_state.md R23): how a call starts, takes a step and ends, when it races with another
call (20_memory.md R80), and a whole call as one step (R126, R147, R177). -/

namespace Sys2Proof.Machine

/-- The work each command stands for: `KERN(MR, NR, NV)` with the shape of R160. -/
def jobOf : Instr → Job
  | .packA => .packA
  | .packB => .packB
  | .kern8x6 first => .kernel 8 6 6 first
  | .kern4x6 first => .kernel 4 6 6 first
  | .kern8x4 first nrem => .kernel 8 4 nrem first
  | .kern4x4 first nrem => .kernel 4 4 nrem first

/-- The packer working registers at the start of a call. The spec gives `OPTR = DST` and `y = LO` of `PACK_A` (R122) and
that the registers are set from the operands (R27). DESIGN CHOICE (log 22): the start values of `s`, `g`, `h`, `q` and
`row`, `PACK_B`'s cursor, and the registers only the other packer uses. No result depends on one of them. -/
def Engine.packStart (e : Engine) : PackRegs :=
  { optr := BitVec.ofNat 64 e.dst
    cursor := e.lo
    kstep := 0
    group := e.lo / 4
    half := 0
    panel := 0
    row := e.src + e.packFirst * e.lds }

/-- An engine that has just started its call (R23, R24, R27): a packer in `COPY`, a kernel in `INIT` with its loop
control computed. -/
def Job.begin (j : Job) (e : Engine) : Engine :=
  match j with
  | .packA => { e with phase := .copy, pack := e.packStart }
  | .packB => { e with phase := .copy, pack := e.packStart }
  | .kernel _ _ _ _ =>
    { e with phase := .init, step := 0, trips := tripCount e.ksteps, odd := oddFlag e.ksteps }

/-- One step of the sequencer on an engine and memory: a packer copies its range; a kernel runs `INIT`, one trip of
`LOOP`, `TAIL` or `STORE`. The last step of a call ends it (R31). A phase the command does not have is never reached;
it is left alone. -/
def Job.tick (j : Job) (draw : Nat) (p : Engine × Memory) : Engine × Memory :=
  match j, p.1.phase with
  | .packA, .copy => (Engine.afterCall draw, (p.1.copyA p.2).2)
  | .packB, .copy => (Engine.afterCall draw, (p.1.copyB p.2).2)
  | .kernel mr nr nv first, .init => (p.1.initTile mr nr nv first draw p.2, p.2)
  | .kernel mr nr _ _, .loop => (p.1.loopTrip mr nr p.2, p.2)
  | .kernel mr nr _ _, .tail => (p.1.tailStep mr nr p.2, p.2)
  | .kernel mr _ nv _, .store => (Engine.afterCall draw, p.1.storeTile mr nv p.2)
  | _, _ => p

/-- How many steps of the sequencer a call that has just started takes (R167, R179). -/
def Job.ticks (j : Job) (e : Engine) : Nat :=
  match j with
  | .packA => 1
  | .packB => 1
  | .kernel _ _ _ _ => e.ksteps / 2 + e.ksteps % 2 + 2

/-- The whole call as one step: started and stepped to its end (R126, R147, R177). -/
def Job.run (j : Job) (draw : Nat) (e : Engine) (m : Memory) : Engine × Memory :=
  (j.tick draw)^[j.ticks e] (j.begin e, m)

/-! Concurrent calls (R80). -/

/-- The work of the call an engine is running, if it runs one. -/
def Engine.job? (e : Engine) : Option Job :=
  if e.phase = .idle then none
  else match decode e.cmd with
    | .ok i => some (jobOf i)
    | .error _ => none

/-- Whether one of two calls writes a byte that the other reads or writes (R80 (b)). -/
def conflict (j : Job) (e : Engine) (k : Job) (f : Engine) : Bool :=
  overlap (j.outputs e) (k.inputs f ++ k.outputs f) || overlap (k.outputs f) (j.inputs e)

/-- Whether engine `n`, running `j`, races with the call of another engine (R80 (b), V11). -/
def State.races (s : State) (n : Nat) (j : Job) (e : Engine) : Bool :=
  s.engines.zipIdx.any fun p =>
    decide (p.2 ≠ n) && (match p.1.job? with
      | some k => conflict j e k p.1
      | none => false)

/-- The first violation of V2 to V11 of engine `n` running `j` (R213). -/
def State.violation (s : State) (n : Nat) (j : Job) (e : Engine) : Option Refusal :=
  match j.violation e s.mem with
  | some r => some r
  | none => if s.races n j e then some .v11Race else none

/-! The call transaction (R90). -/

/-- A call that is inside the contract runs to its end on the engine it was presented to; a call outside it is refused
by the first violation it meets (R211, R213). -/
def runJob (j : Job) (s : State) : Host.Outcome State Fault Refusal :=
  match s.engines[s.active]? with
  | none => .fault .noSuchEngine
  | some e =>
    if e.phase = .idle then
      match s.violation s.active j e with
      | some r => .refused r
      | none =>
        let p := j.run s.draws e s.mem
        .next { s.setEngine s.active p.1 with mem := p.2, draws := s.draws + 1 }
    else .refused .v12Busy

/-- A call that is inside the contract starts on the engine it was presented to and is left running (R80, R218). -/
def startJob (j : Job) (s : State) : Host.Outcome State Fault Refusal :=
  match s.engines[s.active]? with
  | none => .fault .noSuchEngine
  | some e =>
    if e.phase = .idle then
      match s.violation s.active j e with
      | some r => .refused r
      | none => .next (s.setEngine s.active (j.begin e))
    else .refused .v12Busy

/-- Engine `n` takes the next step of its sequencer; an idle engine waits for the next call (R219). A call that has
come to violate the contract is refused (V11 is tested during the run, R213). -/
def advance (n : Nat) (s : State) : Host.Outcome State Fault Refusal :=
  match s.engines[n]? with
  | none => .fault .noSuchEngine
  | some e =>
    if e.phase = .idle then .next s
    else match e.job? with
      | none => .refused .v1InvalidCommand
      | some j =>
        match s.violation n j e with
        | some r => .refused r
        | none =>
          let p := j.tick s.draws (e, s.mem)
          .next { s.setEngine n p.1 with mem := p.2, draws := s.draws + 1 }

end Sys2Proof.Machine
end

