-- ==== Sys2Proof/Machine/FullTile.lean ====
section
/-! DEFINITION. The meanings of the full-tile kernels (43_kernels_full_tile.md R190 to R192). -/

namespace Sys2Proof.Machine

/-- `KERN_8X6` (R190): `KERN(8, 6, 6)`. -/
def execKern8x6 (first : Bool) (s : State) : Host.Outcome State Fault Refusal := runJob (jobOf (.kern8x6 first)) s

/-- `KERN_4X6` (R191): `KERN(4, 6, 6)`. -/
def execKern4x6 (first : Bool) (s : State) : Host.Outcome State Fault Refusal := runJob (jobOf (.kern4x6 first)) s

end Sys2Proof.Machine
end

