-- ==== Sys2Proof/Machine/Packers.lean ====
section
/-! DEFINITION. The meanings of the packers, `PACK_A` (40_pack_a.md) and `PACK_B` (41_pack_b.md). -/

namespace Sys2Proof.Machine

/-- `PACK_A` (R120 to R128). -/
def execPackA (s : State) : Host.Outcome State Fault Refusal := runJob (jobOf .packA) s

/-- `PACK_B` (R140 to R149). -/
def execPackB (s : State) : Host.Outcome State Fault Refusal := runJob (jobOf .packB) s

end Sys2Proof.Machine
end

