-- ==== Sys2Proof/Machine/Remainder.lean ====
section
/-! DEFINITION. The meanings of the column-remainder kernels (44_kernels_remainder.md R200 to R206). A count above 4 is
no command (R94, R98): V1. -/

namespace Sys2Proof.Machine

/-- `KERN_8X4` (R200): `KERN(8, 4, NREM)`. -/
def execKern8x4 (first : Bool) (nrem : Nat) (s : State) : Host.Outcome State Fault Refusal :=
  if nremLegal nrem then runJob (jobOf (.kern8x4 first nrem)) s else .refused .v1InvalidCommand

/-- `KERN_4X4` (R201): `KERN(4, 4, NREM)`. -/
def execKern4x4 (first : Bool) (nrem : Nat) (s : State) : Host.Outcome State Fault Refusal :=
  if nremLegal nrem then runJob (jobOf (.kern4x4 first nrem)) s else .refused .v1InvalidCommand

end Sys2Proof.Machine
end

