-- ==== Sys2Proof/Machine/Dispatch.lean ====
section
/-! DEFINITION. One arm for each command. -/

namespace Sys2Proof.Machine

def exec (i : Instr) (s : State) : Host.Outcome State Fault Refusal :=
  match i with
  | .packA => Sys2Proof.Machine.execPackA s
  | .packB => Sys2Proof.Machine.execPackB s
  | .kern8x6 first => Sys2Proof.Machine.execKern8x6 first s
  | .kern4x6 first => Sys2Proof.Machine.execKern4x6 first s
  | .kern8x4 first nrem => Sys2Proof.Machine.execKern8x4 first nrem s
  | .kern4x4 first nrem => Sys2Proof.Machine.execKern4x4 first nrem s

end Sys2Proof.Machine
end

