-- ==== Sys2Proof/Machine/Driver.lean ====
section
/-! DEFINITION. What the outside world does to the machine: call transactions (30_encoding.md R90), the memory accesses
of driver threads (20_memory.md R80 (c)) and reset (R214, R240). -/

namespace Sys2Proof.Machine

/-- The latch of a call transaction (R21, R22, R90): the command word and all seven operands at once. -/
def State.latch (s : State) (n : Nat) (e : Engine) (cmd : CmdWord) (x : Vector Word 7) : State :=
  { s.setEngine n { e with cmd := cmd, x := x } with active := n }

/-- A call transaction (R90): the engine must be `IDLE` (V12), latches, decodes (V1), and `go` handles the command. -/
def present (go : Instr → State → Host.Outcome State Fault Refusal)
    (n : Nat) (cmd : CmdWord) (x : Vector Word 7) (s : State) : Host.Outcome State Fault Refusal :=
  match s.engines[n]? with
  | none => .fault .noSuchEngine
  | some e =>
    if e.phase = .idle then
      match decode cmd with
      | .ok i => go i (s.latch n e cmd x)
      | .error _ => .refused .v1InvalidCommand
    else .refused .v12Busy

/-- Whether a running call reads or writes a byte. -/
def State.touched (s : State) (a : Nat) : Bool :=
  s.engines.any fun e => match e.job? with
    | some j => (j.inputs e ++ j.outputs e).contains a
    | none => false

/-- Whether a running call writes a byte. -/
def State.written (s : State) (a : Nat) : Bool :=
  s.engines.any fun e => match e.job? with
    | some j => (j.outputs e).contains a
    | none => false

/-- A driver thread stores a byte: a race if a running call reads or writes it (R80 (b), (c), V11). -/
def driverWrite (a : Word) (b : Byte) (s : State) : Host.Outcome State Fault Refusal :=
  if s.touched a.toNat then .refused .v11Race else .next { s with mem := Memory.set s.mem a.toNat b }

/-- A driver thread loads a byte: a race if a running call writes it (R80 (b), (c), V11). -/
def driverRead (a : Word) (s : State) : Host.Outcome State Fault Refusal :=
  if s.written a.toNat then .refused .v11Race
  else if Memory.accessible s.mem a.toNat then .next s
  else .fault .driverUnmapped

/-- Memory after the call of engine `n` is abandoned (R29, R214): a call that had begun to write leaves each byte of
its output region old or new, whichever `Config.landed` says; a kernel before `STORE` has written nothing. -/
def abandon (draw n : Nat) (e : Engine) (m : Memory) : Memory :=
  match e.job?, e.phase with
  | some j, .store => mixed j
  | some j, .copy => mixed j
  | _, _ => m
where
  /-- Each byte of the output region of `j`, old or new. -/
  mixed (j : Job) : Memory :=
    let done := (j.tick draw (e, m)).2
    (j.outputs e).foldl
      (fun acc a => if Config.landed draw n a then Memory.set acc a (Memory.read done a) else acc) m

/-- The first violation of a running call, if there is one: its behaviour is then undefined (R211). -/
def State.runningViolation (s : State) : Option Refusal :=
  s.engines.zipIdx.findSome? fun p =>
    if p.1.phase = .idle then none
    else match p.1.job? with
      | some j => s.violation p.2 j p.1
      | none => some .v1InvalidCommand

/-- Reset (R214, R240): every engine goes to `IDLE`, a call in progress is abandoned, memory stays as it is. -/
def platformReset (s : State) : Host.Outcome State Fault Refusal :=
  match s.runningViolation with
  | some r => .refused r
  | none =>
    .next { s with
      engines := s.engines.map fun _ => Engine.reset
      mem := s.engines.zipIdx.foldl (fun m p => abandon s.draws p.2 p.1 m) s.mem
      draws := s.draws + 1 }

/-- One action of the outside world. -/
def handle (ev : Event) (s : State) : Host.Outcome State Fault Refusal :=
  match ev with
  | .call n cmd x => present exec n cmd x s
  | .start n cmd x => present (fun i => startJob (jobOf i)) n cmd x s
  | .advance n => advance n s
  | .driverWrite a b => driverWrite a b s
  | .driverRead a => driverRead a s
  | .reset => platformReset s

/-- When the outside world does nothing, a running call goes on (R250): the running engine of the lowest number takes
its next step; when every engine is `IDLE` the run is over and nothing moves (R251). -/
def goOn (s : State) : Host.Outcome State Fault Refusal :=
  match s.engines.findIdx? fun e => decide (e.phase ≠ .idle) with
  | some n => advance n s
  | none => .next s

/-! The launch a command word alone stands for (log 8): operands and buffers inside the contract of every command. -/

/-- Operands that are inside the contract of each of the six commands, read as R95 or as R96. -/
def launchOperands : Vector Word 7 := ⟨#[256, 320, 4, 0, 8, 0, 4], rfl⟩

/-- The memory with one address allocated: its contents stay, or are 0 if it is new. -/
def Memory.claim : Memory → Nat → Memory
  | [], a => [(a, 0)]
  | (k, c) :: rest, a =>
    if a < k then (a, 0) :: (k, c) :: rest
    else if k = a then (k, c) :: rest
    else (k, c) :: Memory.claim rest a

/-- The buffers of that launch: the first `n` addresses. -/
def allocate (n : Nat) (m : Memory) : Memory := (List.range n).foldr (fun a m => Memory.claim m a) m

/-- The engines, the first of them free to take a call. -/
def freeFirst : List Engine → List Engine
  | [] => [Engine.reset]
  | e :: rest => { e with phase := .idle } :: rest

/-- The machine whose next action is a call transaction of command word `cmd` on engine 0. -/
def State.launch (s : State) (cmd : CmdWord) : State :=
  { s with
    engines := freeFirst s.engines
    mem := allocate 352 s.mem
    agenda := .call 0 cmd launchOperands :: s.agenda }

end Sys2Proof.Machine
end

