-- ==== Sys2Proof/Machine/Step.lean ====
section
/-! DEFINITION. One step of the machine: the next action of the outside world, or the next step of a running call. -/

namespace Sys2Proof.Machine

/-- One step (R20, R90, R250, R251). -/
def step (s : State) : Host.Outcome State Fault Refusal :=
  match s.agenda with
  | [] => goOn s
  | ev :: rest => handle ev { s with agenda := rest }

/-- `s` with a call transaction of the command word in front of everything else the outside world does, and the launch
it needs (log 8). The machine fetches nothing (R83): a command word comes with its call. -/
def State.withFetchWord (s : State) (nbits w : Nat) : State := s.launch (BitVec.ofNat 32 (w % 2 ^ nbits))

end Sys2Proof.Machine
end

