-- ==== Sys2Proof/Laws/State.lean ====
section
/-! SUPPORT. What an update of the state leaves of each field, and what the register files hold (10_state.md R21, R25,
R26). -/

namespace Sys2Proof.Machine

@[simp] theorem State.setEngine_engines (s : State) (n : Nat) (e : Engine) :
    (s.setEngine n e).engines = s.engines.set n e := rfl
@[simp] theorem State.setEngine_mem (s : State) (n : Nat) (e : Engine) : (s.setEngine n e).mem = s.mem := rfl
@[simp] theorem State.setEngine_agenda (s : State) (n : Nat) (e : Engine) : (s.setEngine n e).agenda = s.agenda := rfl
@[simp] theorem State.setEngine_active (s : State) (n : Nat) (e : Engine) : (s.setEngine n e).active = s.active := rfl
@[simp] theorem State.setEngine_draws (s : State) (n : Nat) (e : Engine) : (s.setEngine n e).draws = s.draws := rfl

@[simp] theorem Engine.afterCall_phase (draw : Nat) : (Engine.afterCall draw).phase = .idle := rfl
@[simp] theorem Engine.reset_phase : Engine.reset.phase = .idle := rfl

@[simp] theorem State.reset_mem : State.reset.mem = [] := rfl
@[simp] theorem State.reset_agenda : State.reset.agenda = [] := rfl
@[simp] theorem State.resetWith_engines (n : Nat) : (State.resetWith n).engines = List.replicate n Engine.reset := rfl
@[simp] theorem State.resetWith_mem (n : Nat) : (State.resetWith n).mem = [] := rfl

/-- A tabulated file as a list. -/
@[simp] theorem tabulate_toList {α : Type} (n : Nat) (f : Nat → α) :
    (tabulate n f).toList = (List.range n).map f := rfl

/-- Entry `i` of a tabulated file. -/
theorem tabulate_getD {α : Type} {n i : Nat} (f : Nat → α) (d : α) (h : i < n) :
    (tabulate n f).toList.getD i d = f i := by
  simp [List.getD, h]

/-- Lane (`i`, `j`) of an accumulator file given by a rule (R25). -/
theorem accAt_accFile (e : Engine) (f : Nat → Nat → Lane) {i j : Nat} (hi : i < 8) (hj : j < 6)
    (h : e.acc = accFile f) : e.accAt i j = f i j := by
  rw [Engine.accAt, h, accFile, tabulate_getD _ _ hi, tabulate_getD _ _ hj]

/-! What each phase leaves of the fields it does not write. -/

@[simp] theorem Engine.initTile_x (e : Engine) (mr nr nv : Nat) (first : Bool) (draw : Nat) (m : Memory) :
    (e.initTile mr nr nv first draw m).x = e.x := rfl
@[simp] theorem Engine.initTile_cmd (e : Engine) (mr nr nv : Nat) (first : Bool) (draw : Nat) (m : Memory) :
    (e.initTile mr nr nv first draw m).cmd = e.cmd := rfl
@[simp] theorem Engine.initTile_step (e : Engine) (mr nr nv : Nat) (first : Bool) (draw : Nat) (m : Memory) :
    (e.initTile mr nr nv first draw m).step = e.step := rfl
@[simp] theorem Engine.initTile_trips (e : Engine) (mr nr nv : Nat) (first : Bool) (draw : Nat) (m : Memory) :
    (e.initTile mr nr nv first draw m).trips = e.trips := rfl
@[simp] theorem Engine.initTile_odd (e : Engine) (mr nr nv : Nat) (first : Bool) (draw : Nat) (m : Memory) :
    (e.initTile mr nr nv first draw m).odd = e.odd := rfl
@[simp] theorem Engine.initTile_phase (e : Engine) (mr nr nv : Nat) (first : Bool) (draw : Nat) (m : Memory) :
    (e.initTile mr nr nv first draw m).phase = e.phaseAfterInit := rfl

@[simp] theorem Engine.rstep_x (e : Engine) (mr nr s : Nat) (m : Memory) : (e.rstep mr nr s m).x = e.x := rfl
@[simp] theorem Engine.rstep_cmd (e : Engine) (mr nr s : Nat) (m : Memory) : (e.rstep mr nr s m).cmd = e.cmd := rfl
@[simp] theorem Engine.rstep_step (e : Engine) (mr nr s : Nat) (m : Memory) : (e.rstep mr nr s m).step = e.step := rfl
@[simp] theorem Engine.rstep_trips (e : Engine) (mr nr s : Nat) (m : Memory) :
    (e.rstep mr nr s m).trips = e.trips := rfl
@[simp] theorem Engine.rstep_odd (e : Engine) (mr nr s : Nat) (m : Memory) : (e.rstep mr nr s m).odd = e.odd := rfl
@[simp] theorem Engine.rstep_phase (e : Engine) (mr nr s : Nat) (m : Memory) :
    (e.rstep mr nr s m).phase = e.phase := rfl

@[simp] theorem Engine.loopTrip_x (e : Engine) (mr nr : Nat) (m : Memory) : (e.loopTrip mr nr m).x = e.x := rfl
@[simp] theorem Engine.loopTrip_cmd (e : Engine) (mr nr : Nat) (m : Memory) : (e.loopTrip mr nr m).cmd = e.cmd := rfl
@[simp] theorem Engine.loopTrip_step (e : Engine) (mr nr : Nat) (m : Memory) :
    (e.loopTrip mr nr m).step = e.step + 2 := rfl
@[simp] theorem Engine.loopTrip_trips (e : Engine) (mr nr : Nat) (m : Memory) :
    (e.loopTrip mr nr m).trips = e.trips - 1 := rfl
@[simp] theorem Engine.loopTrip_odd (e : Engine) (mr nr : Nat) (m : Memory) : (e.loopTrip mr nr m).odd = e.odd := rfl
@[simp] theorem Engine.tailStep_x (e : Engine) (mr nr : Nat) (m : Memory) : (e.tailStep mr nr m).x = e.x := rfl
@[simp] theorem Engine.tailStep_cmd (e : Engine) (mr nr : Nat) (m : Memory) : (e.tailStep mr nr m).cmd = e.cmd := rfl
@[simp] theorem Engine.tailStep_step (e : Engine) (mr nr : Nat) (m : Memory) :
    (e.tailStep mr nr m).step = e.step + 1 := rfl
@[simp] theorem Engine.tailStep_trips (e : Engine) (mr nr : Nat) (m : Memory) :
    (e.tailStep mr nr m).trips = e.trips := rfl
@[simp] theorem Engine.tailStep_odd (e : Engine) (mr nr : Nat) (m : Memory) : (e.tailStep mr nr m).odd = e.odd := rfl
@[simp] theorem Engine.tailStep_phase (e : Engine) (mr nr : Nat) (m : Memory) :
    (e.tailStep mr nr m).phase = .store := rfl

/-- Starting a call writes no operand register (R21). -/
@[simp] theorem Job.begin_x (j : Job) (e : Engine) : (j.begin e).x = e.x := by cases j <;> rfl

/-- Starting a call leaves the command latch (R22). -/
@[simp] theorem Job.begin_cmd (j : Job) (e : Engine) : (j.begin e).cmd = e.cmd := by cases j <;> rfl

/-- An engine that has started a call is not idle. -/
theorem Job.begin_busy (j : Job) (e : Engine) : (j.begin e).phase ≠ .idle := by cases j <;> simp [Job.begin]

/-- The operands depend on the operand registers alone (R21). -/
theorem Engine.operand_of_x {e f : Engine} (h : e.x = f.x) : e.operand = f.operand := by
  funext n; simp [Engine.operand, h]

end Sys2Proof.Machine
end

