-- ==== Sys2Proof/Laws/Memory.lean ====
section
/-! SUPPORT. Memory: what a read gives after a write, and that every operation keeps the canonical form (20_memory.md
R50, R51, R78). -/

namespace Sys2Proof.Machine

/-! A read after a write. -/

/-- A write gives its byte at its address and leaves every other address alone. -/
theorem Memory.get?_set (m : Memory) (a : Nat) (b : Byte) (x : Nat) :
    Memory.get? (Memory.set m a b) x = if x = a then some b else Memory.get? m x := by
  fun_induction Memory.set m a b with
  | case1 a b => simp [Memory.get?, eq_comm]
  | case2 k c rest a b h => by_cases hx : x = a <;> simp [Memory.get?, hx, eq_comm]
  | case3 c rest a b h => by_cases hx : x = a <;> simp [Memory.get?, hx, eq_comm]
  | case4 k c rest a b h₁ h₂ ih =>
    by_cases hk : k = x
    · subst hk; simp [Memory.get?, h₂]
    · simp [Memory.get?, hk, ih]

/-- Allocating an address leaves what is there, or 0. -/
theorem Memory.get?_claim (m : Memory) (a x : Nat) (hw : m.Pairwise fun c d => c.1 < d.1) :
    Memory.get? (Memory.claim m a) x = if x = a then some ((Memory.get? m a).getD 0) else Memory.get? m x := by
  have absent : ∀ (m : Memory) (a : Nat), (∀ c ∈ m, a < c.1) → Memory.get? m a = none := by
    intro m a h
    induction m with
    | nil => rfl
    | cons c rest ih =>
      have hc := h c (by simp)
      simp only [Memory.get?]
      rw [if_neg (by omega)]
      exact ih fun d hd => h d (by simp [hd])
  fun_induction Memory.claim m a with
  | case1 a => by_cases hx : x = a <;> simp [Memory.get?, hx, eq_comm]
  | case2 k c rest a h =>
    have : Memory.get? ((k, c) :: rest) a = none := by
      apply absent
      intro d hd
      rcases List.mem_cons.1 hd with rfl | hd
      · exact h
      · exact lt_trans h ((List.pairwise_cons.1 hw).1 d hd)
    rw [this]
    by_cases hx : x = a <;> simp [Memory.get?, hx, eq_comm]
  | case3 c rest a h => by_cases hx : x = a <;> simp [Memory.get?, hx, eq_comm]
  | case4 k c rest a h₁ h₂ ih =>
    have ih := ih (List.pairwise_cons.1 hw).2
    by_cases hk : k = x
    · subst hk; simp [Memory.get?, h₂]
    · simp [Memory.get?, hk, h₂, ih]

/-- A block write gives its bytes in order from its address on and leaves every other address alone. -/
theorem Memory.get?_writeBytes (bs : List Byte) (m : Memory) (a x : Nat) :
    Memory.get? (Memory.writeBytes m a bs) x =
      if a ≤ x ∧ x < a + bs.length then bs[x - a]? else Memory.get? m x := by
  induction bs generalizing m a with
  | nil => simp [Memory.writeBytes]
  | cons b rest ih =>
    rw [Memory.writeBytes, ih]
    by_cases h : a + 1 ≤ x ∧ x < a + 1 + rest.length
    · rw [if_pos h, if_pos (by simp only [List.length_cons]; omega), show x - a = (x - (a + 1)) + 1 by omega,
        List.getElem?_cons_succ]
    · rw [if_neg h, Memory.get?_set]
      by_cases hx : x = a
      · subst hx; simp
      · rw [if_neg hx, if_neg (by simp only [List.length_cons]; omega)]

/-- A read of a byte in terms of `get?`: equal contents read equally. -/
theorem Memory.read_congr {m m' : Memory} {a : Nat} (h : Memory.get? m a = Memory.get? m' a) :
    Memory.read m a = Memory.read m' a := by simp [Memory.read, h]

/-- A block write, read back one byte at a time. -/
theorem Memory.read_writeBytes (bs : List Byte) (m : Memory) (a x : Nat) :
    Memory.read (Memory.writeBytes m a bs) x =
      if a ≤ x ∧ x < a + bs.length then bs.getD (x - a) 0 else Memory.read m x := by
  rw [Memory.read, Memory.get?_writeBytes]
  split
  · next h =>
    have : x - a < bs.length := by omega
    simp [List.getD, this]
  · rfl

@[simp] theorem Memory.length_readBytes (m : Memory) (a n : Nat) : (Memory.readBytes m a n).length = n := by
  simp [Memory.readBytes]

theorem Memory.getD_readBytes (m : Memory) (a : Nat) {n t : Nat} (h : t < n) (d : Byte) :
    (Memory.readBytes m a n).getD t d = Memory.read m (a + t) := by
  simp [Memory.readBytes, List.getD, h]

@[simp] theorem length_i32Bytes (v : Lane) : (i32Bytes v).length = 4 := by simp [i32Bytes]

/-- The bytes of an int32, least significant first (R51). -/
theorem getD_i32Bytes (v : Lane) {t : Nat} (h : t < 4) (d : Byte) :
    (i32Bytes v).getD t d = BitVec.ofNat 8 (v.toNat / 2 ^ (8 * t)) := by
  simp [i32Bytes, List.getD, h]

/-- Four bytes that are the bytes of an int32 read as that int32 (R10, R51). -/
theorem Memory.readI32_of_bytes {m : Memory} {a : Nat} {v : Lane}
    (h : ∀ t, t < 4 → Memory.read m (a + t) = BitVec.ofNat 8 (v.toNat / 2 ^ (8 * t))) :
    Memory.readI32 m a = v := by
  have h0 := h 0 (by omega)
  have h1 := h 1 (by omega)
  have h2 := h 2 (by omega)
  have h3 := h 3 (by omega)
  have hv := v.isLt
  apply BitVec.eq_of_toNat_eq
  simp only [Memory.readI32, Nat.add_zero] at *
  simp only [h0, h1, h2, h3, BitVec.toNat_ofNat]
  norm_num
  omega

/-- A write of an int32, read back (R10, R51). -/
theorem Memory.readI32_writeI32 (m : Memory) (a : Nat) (v : Lane) :
    Memory.readI32 (Memory.writeI32 m a v) a = v := by
  apply Memory.readI32_of_bytes
  intro t ht
  rw [Memory.writeI32, Memory.read_writeBytes, if_pos (by simp; omega), show a + t - a = t by omega,
    getD_i32Bytes v ht]

/-- What a write of an int32 leaves at each address. -/
theorem Memory.get?_writeI32 (m : Memory) (a : Nat) (v : Lane) (x : Nat) :
    Memory.get? (Memory.writeI32 m a v) x =
      if a ≤ x ∧ x < a + 4 then some (BitVec.ofNat 8 (v.toNat / 2 ^ (8 * (x - a)))) else Memory.get? m x := by
  rw [Memory.writeI32, Memory.get?_writeBytes, length_i32Bytes]
  split
  · next h =>
    have : x - a < 4 := by omega
    simp [i32Bytes, this]
  · rfl

/-- An int32 read depends on its four bytes alone. -/
theorem Memory.readI32_congr {m m' : Memory} {a : Nat}
    (h : ∀ t, t < 4 → Memory.read m (a + t) = Memory.read m' (a + t)) :
    Memory.readI32 m a = Memory.readI32 m' a := by
  have h0 := h 0 (by omega)
  have h1 := h 1 (by omega)
  have h2 := h 2 (by omega)
  have h3 := h 3 (by omega)
  simp only [Memory.readI32, Nat.add_zero] at *
  rw [h0, h1, h2, h3]

/-! The canonical form. -/

theorem Memory.wf_nil : Memory.wf [] := by simp [Memory.wf]

/-- Every listed address of a written memory was listed before or is the one written. -/
theorem Memory.mem_set {m : Memory} {a : Nat} {b : Byte} {c : Host.Cell} (h : c ∈ Memory.set m a b) :
    c = (a, b) ∨ c ∈ m := by
  fun_induction Memory.set m a b with
  | case1 a b => simpa using h
  | case2 k d rest a b h₁ => simpa using h
  | case3 d rest a b h₁ => rcases List.mem_cons.1 h with h | h <;> simp [h]
  | case4 k d rest a b h₁ h₂ ih =>
    rcases List.mem_cons.1 h with h | h
    · simp [h]
    · rcases ih h with h | h <;> simp [h]

/-- A write keeps the canonical form (R50). -/
theorem Memory.wf_set {m : Memory} {a : Nat} (b : Byte) (hm : Memory.wf m) (ha : a < Config.addressLimit) :
    Memory.wf (Memory.set m a b) := by
  refine ⟨?_, fun c hc => ?_⟩
  · have hs := hm.1
    clear hm ha
    fun_induction Memory.set m a b with
    | case1 a b => simp
    | case2 k c rest a b h =>
      refine List.pairwise_cons.2 ⟨fun d hd => ?_, hs⟩
      rcases List.mem_cons.1 hd with rfl | hd
      · exact h
      · exact lt_trans h ((List.pairwise_cons.1 hs).1 d hd)
    | case3 c rest a b h => exact List.pairwise_cons.2 ⟨(List.pairwise_cons.1 hs).1, (List.pairwise_cons.1 hs).2⟩
    | case4 k c rest a b h₁ h₂ ih =>
      refine List.pairwise_cons.2 ⟨fun d hd => ?_, ih (List.pairwise_cons.1 hs).2⟩
      rcases Memory.mem_set hd with rfl | hd
      · show k < a; omega
      · exact (List.pairwise_cons.1 hs).1 d hd
  · rcases Memory.mem_set hc with rfl | hc
    · exact ha
    · exact hm.2 c hc

/-- A block write keeps the canonical form. -/
theorem Memory.wf_writeBytes {bs : List Byte} {m : Memory} {a : Nat} (hm : Memory.wf m)
    (ha : ∀ t, t < bs.length → a + t < Config.addressLimit) : Memory.wf (Memory.writeBytes m a bs) := by
  induction bs generalizing m a with
  | nil => exact hm
  | cons b rest ih =>
    apply ih (Memory.wf_set b hm (by simpa using ha 0 (by simp)))
    intro t ht
    have := ha (t + 1) (by simpa using ht)
    omega

/-- A write of an int32 keeps the canonical form. -/
theorem Memory.wf_writeI32 {m : Memory} {a : Nat} (v : Lane) (hm : Memory.wf m)
    (ha : ∀ t, t < 4 → a + t < Config.addressLimit) : Memory.wf (Memory.writeI32 m a v) :=
  Memory.wf_writeBytes hm (by simpa using ha)

/-- Allocating an address keeps the canonical form. -/
theorem Memory.wf_claim {m : Memory} {a : Nat} (hm : Memory.wf m) (ha : a < Config.addressLimit) :
    Memory.wf (Memory.claim m a) := by
  have eq : ∀ (m : Memory) (a : Nat), Memory.claim m a = m ∨ Memory.claim m a = Memory.set m a 0 := by
    intro m a
    fun_induction Memory.claim m a with
    | case1 a => right; rfl
    | case2 k c rest a h => right; simp [Memory.set, h]
    | case3 c rest a h => left; rfl
    | case4 k c rest a h₁ h₂ ih => rcases ih with h | h <;> simp [h, Memory.set, h₁, h₂]
  rcases eq m a with h | h <;> rw [h]
  · exact hm
  · exact Memory.wf_set 0 hm ha

/-- The buffers of a launch keep the canonical form. -/
theorem Memory.wf_allocate {m : Memory} {n : Nat} (hm : Memory.wf m) (hn : n ≤ Config.addressLimit) :
    Memory.wf (allocate n m) := by
  have : ∀ l : List Nat, (∀ a ∈ l, a < Config.addressLimit) →
      Memory.wf (l.foldr (fun a m => Memory.claim m a) m) := by
    intro l hl
    induction l with
    | nil => exact hm
    | cons a rest ih => exact Memory.wf_claim (ih fun b hb => hl b (by simp [hb])) (hl a (by simp))
  exact this _ fun a ha => lt_of_lt_of_le (List.mem_range.1 ha) hn

/-- Two memories in canonical form with the same contents are the same data. -/
theorem Memory.ext {m m' : Memory} (hm : Memory.wf m) (hm' : Memory.wf m')
    (h : ∀ x, Memory.get? m x = Memory.get? m' x) : m = m' := by
  have absent : ∀ (m : Memory) (a : Nat), (∀ c ∈ m, a < c.1) → Memory.get? m a = none := by
    intro m a h
    induction m with
    | nil => rfl
    | cons c rest ih =>
      have hc := h c (by simp)
      simp only [Memory.get?]
      rw [if_neg (by omega)]
      exact ih fun d hd => h d (by simp [hd])
  have hs := hm.1
  have hs' := hm'.1
  clear hm hm'
  induction m generalizing m' with
  | nil =>
    cases m' with
    | nil => rfl
    | cons c rest => simpa [Memory.get?] using h c.1
  | cons c rest ih =>
    cases m' with
    | nil => simpa [Memory.get?] using h c.1
    | cons d rest' =>
      obtain ⟨hc, hr⟩ := List.pairwise_cons.1 hs
      obtain ⟨hd, hr'⟩ := List.pairwise_cons.1 hs'
      have key : c.1 = d.1 := by
        rcases lt_trichotomy c.1 d.1 with hlt | heq | hgt
        · have := h c.1
          rw [absent (d :: rest') c.1 (by
            intro e he
            rcases List.mem_cons.1 he with rfl | he
            · exact hlt
            · exact lt_trans hlt (hd e he))] at this
          simp [Memory.get?] at this
        · exact heq
        · have := h d.1
          rw [absent (c :: rest) d.1 (by
            intro e he
            rcases List.mem_cons.1 he with rfl | he
            · exact hgt
            · exact lt_trans hgt (hc e he))] at this
          simp [Memory.get?] at this
      have hcd : c = d := by
        have := h c.1
        simp only [Memory.get?, key, if_true] at this
        exact Prod.ext key (by simpa using this)
      subst hcd
      congr 1
      apply ih (m' := rest') ?_ hr hr'
      intro x
      have hx := h x
      simp only [Memory.get?] at hx
      by_cases hcx : c.1 = x
      · rw [absent rest x (fun e he => hcx ▸ hc e he), absent rest' x (fun e he => hcx ▸ hd e he)]
      · simpa [hcx] using hx

end Sys2Proof.Machine
end

