-- ==== Sys2Proof/Laws/Writes.lean ====
section
/-! SUPPORT. A sequence of block writes (the shape of every store of the hardware: 40_pack_a.md R122, 41_pack_b.md
R143, 42_kernel_common.md R169): what it leaves inside the blocks and outside them. -/

namespace Sys2Proof.Machine

/-- A sequence of block writes: for each item of `l` in turn, the bytes `data` gives (they may depend on memory, as a
copy's do) to the address `addr` gives. -/
def writeSeq {ι : Type} (addr : ι → Nat) (data : Memory → ι → List Byte) (l : List ι) (m : Memory) : Memory :=
  l.foldl (fun m k => Memory.writeBytes m (addr k) (data m k)) m

section
variable {ι : Type} {addr : ι → Nat} {data : Memory → ι → List Byte} {len : ι → Nat}

@[simp] theorem writeSeq_nil (m : Memory) : writeSeq addr data [] m = m := rfl

@[simp] theorem writeSeq_cons (k : ι) (l : List ι) (m : Memory) :
    writeSeq addr data (k :: l) m = writeSeq addr data l (Memory.writeBytes m (addr k) (data m k)) := rfl

theorem writeSeq_append (l l' : List ι) (m : Memory) :
    writeSeq addr data (l ++ l') m = writeSeq addr data l' (writeSeq addr data l m) := by
  simp [writeSeq]

/-- Items renamed. -/
theorem writeSeq_map {κ : Type} (f : κ → ι) (l : List κ) (m : Memory) :
    writeSeq addr data (l.map f) m = writeSeq (addr ∘ f) (fun m k => data m (f k)) l m := by
  simp [writeSeq, List.foldl_map]

/-- Only the blocks of the items written matter. -/
theorem writeSeq_congr {addr' : ι → Nat} {data' : Memory → ι → List Byte} {l : List ι}
    (ha : ∀ k ∈ l, addr k = addr' k) (hd : ∀ m, ∀ k ∈ l, data m k = data' m k) (m : Memory) :
    writeSeq addr data l m = writeSeq addr' data' l m := by
  induction l generalizing m with
  | nil => rfl
  | cons k rest ih =>
    rw [writeSeq_cons, writeSeq_cons, ha k (by simp), hd m k (by simp)]
    exact ih (fun a h => ha a (by simp [h])) (fun m a h => hd m a (by simp [h])) _

/-- An address in no block is left alone. -/
theorem get?_writeSeq_outside (hlen : ∀ m k, (data m k).length = len k) (l : List ι) (m : Memory) {x : Nat}
    (hx : ∀ k ∈ l, ¬ (addr k ≤ x ∧ x < addr k + len k)) :
    Memory.get? (writeSeq addr data l m) x = Memory.get? m x := by
  induction l generalizing m with
  | nil => rfl
  | cons k rest ih =>
    rw [writeSeq, List.foldl_cons, ← writeSeq, ih _ fun k hk => hx k (by simp [hk]), Memory.get?_writeBytes, hlen,
      if_neg (hx k (by simp))]

/-- An address in exactly one block holds that block's byte, when the bytes written come from outside all blocks. -/
theorem get?_writeSeq_inside (hlen : ∀ m k, (data m k).length = len k) (l : List ι) (m : Memory) {k : ι} {x : Nat}
    (hstable : ∀ m', (∀ y, (∀ k ∈ l, ¬ (addr k ≤ y ∧ y < addr k + len k)) → Memory.get? m' y = Memory.get? m y) →
      data m' k = data m k)
    (hk : k ∈ l) (hx : addr k ≤ x ∧ x < addr k + len k)
    (huniq : ∀ k' ∈ l, addr k' ≤ x ∧ x < addr k' + len k' → k' = k) :
    Memory.get? (writeSeq addr data l m) x = (data m k)[x - addr k]? := by
  have main : ∀ (rest : List ι), (∀ a ∈ rest, a ∈ l) → ∀ m₁ : Memory,
      (∀ y, (∀ k ∈ l, ¬ (addr k ≤ y ∧ y < addr k + len k)) → Memory.get? m₁ y = Memory.get? m y) → k ∈ rest →
      Memory.get? (writeSeq addr data rest m₁) x = (data m k)[x - addr k]? := by
    intro rest
    induction rest with
    | nil => intro _ _ _ h; simp at h
    | cons a rest ih =>
      intro hsub m₁ hm₁ hkr
      rw [writeSeq, List.foldl_cons, ← writeSeq]
      have hm₂ : ∀ y, (∀ k ∈ l, ¬ (addr k ≤ y ∧ y < addr k + len k)) →
          Memory.get? (Memory.writeBytes m₁ (addr a) (data m₁ a)) y = Memory.get? m y := by
        intro y hy
        rw [Memory.get?_writeBytes, hlen, if_neg (hy a (hsub a (by simp))), hm₁ y hy]
      by_cases hin : k ∈ rest
      · exact ih (fun b hb => hsub b (by simp [hb])) _ hm₂ hin
      · have hka : k = a := by simpa [hin] using hkr
        subst hka
        rw [get?_writeSeq_outside hlen rest _ (x := x), Memory.get?_writeBytes, hlen, if_pos hx, hstable m₁ hm₁]
        intro b hb hbx
        exact hin (huniq b (hsub b (by simp [hb])) hbx ▸ hb)
  exact main l (fun _ h => h) m (fun _ _ => rfl) hk

/-- Writes below `2^AW` keep the canonical form. -/
theorem wf_writeSeq (hlen : ∀ m k, (data m k).length = len k) (l : List ι) {m : Memory} (hm : Memory.wf m)
    (h : ∀ k ∈ l, ∀ t, t < len k → addr k + t < Config.addressLimit) : Memory.wf (writeSeq addr data l m) := by
  induction l generalizing m with
  | nil => exact hm
  | cons k rest ih =>
    rw [writeSeq, List.foldl_cons, ← writeSeq]
    exact ih (Memory.wf_writeBytes hm (by rw [hlen]; exact h k (by simp))) fun a ha => h a (by simp [ha])

end

end Sys2Proof.Machine
end

