-- ==== Sys2Proof/Laws/Kernel.lean ====
section
/-! SUPPORT. What the phases of a kernel do (42_kernel_common.md R164 to R169), one lemma for each operation. -/

namespace Sys2Proof.Machine

/-- What a reduction step reads and writes: the operand registers, the accumulator file and the operand vectors. -/
structure SameData (e f : Engine) : Prop where
  x : e.x = f.x
  acc : e.acc = f.acc
  va : e.va = f.va
  vb : e.vb = f.vb

theorem SameData.refl (e : Engine) : SameData e e := ⟨rfl, rfl, rfl, rfl⟩

theorem SameData.trans {e f g : Engine} (h : SameData e f) (k : SameData f g) : SameData e g :=
  ⟨h.x.trans k.x, h.acc.trans k.acc, h.va.trans k.va, h.vb.trans k.vb⟩

/-- A reduction step depends on the data registers alone (R166). -/
theorem SameData.rstep {e f : Engine} (h : SameData e f) (mr nr s : Nat) (m : Memory) :
    SameData (e.rstep mr nr s m) (f.rstep mr nr s m) := by
  have hx := Engine.operand_of_x h.x
  obtain ⟨hx', hacc, hva, hvb⟩ := h
  have hacc' : e.accAt = f.accAt := by funext i j; simp [Engine.accAt, hacc]
  have hva' : e.vaAt = f.vaAt := by funext n; simp [Engine.vaAt, hva]
  have hvb' : e.vbAt = f.vbAt := by funext n; simp [Engine.vbAt, hvb]
  have hl : (e.loadStep mr nr s m).va = (f.loadStep mr nr s m).va ∧
      (e.loadStep mr nr s m).vb = (f.loadStep mr nr s m).vb := by
    simp [Engine.loadStep, Engine.aptr, Engine.bptr, hx, hva', hvb']
  have ha : (e.loadStep mr nr s m).accAt = (f.loadStep mr nr s m).accAt := hacc'
  have hva₁ : (e.loadStep mr nr s m).vaAt = (f.loadStep mr nr s m).vaAt := by
    funext n; simp only [Engine.vaAt, hl.1]
  have hvb₁ : (e.loadStep mr nr s m).vbAt = (f.loadStep mr nr s m).vbAt := by
    funext n; simp only [Engine.vbAt, hl.2]
  refine ⟨hx', ?_, hl.1, hl.2⟩
  simp only [Engine.rstep, Engine.accumulate, ha, hva₁, hvb₁]

/-- The stores depend on the operand registers and the accumulator file alone (R169). -/
theorem SameData.storeTile {e f : Engine} (h : SameData e f) (mr nv : Nat) (m : Memory) :
    e.storeTile mr nv m = f.storeTile mr nv m := by
  have hx := Engine.operand_of_x h.x
  have hacc : e.accAt = f.accAt := by funext i j; simp [Engine.accAt, h.acc]
  have : e.storeRow nv = f.storeRow nv := by
    funext m i
    simp [Engine.storeRow, Engine.addrC, Engine.outp, Engine.ldcb, Engine.ldc, hx, hacc]
  rw [Engine.storeTile, Engine.storeTile, this]

/-- The steps `a`, `a+1`, …, `a+n-1`, one after another (R168). -/
def Engine.rsteps (e : Engine) (mr nr a n : Nat) (m : Memory) : Engine :=
  (List.range' a n).foldl (fun e s => e.rstep mr nr s m) e

theorem Engine.rsteps_zero (e : Engine) (mr nr a : Nat) (m : Memory) : e.rsteps mr nr a 0 m = e := rfl

theorem Engine.rsteps_succ (e : Engine) (mr nr a n : Nat) (m : Memory) :
    e.rsteps mr nr a (n + 1) m = (e.rstep mr nr a m).rsteps mr nr (a + 1) n m := by
  simp [Engine.rsteps, List.range'_succ]

theorem Engine.rsteps_add (e : Engine) (mr nr a n k : Nat) (m : Memory) :
    e.rsteps mr nr a (n + k) m = (e.rsteps mr nr a n m).rsteps mr nr (a + n) k m := by
  induction n generalizing e a with
  | zero => simp [Engine.rsteps_zero]
  | succ n ih =>
    rw [show n + 1 + k = (n + k) + 1 by omega, Engine.rsteps_succ, ih, Engine.rsteps_succ,
      show a + 1 + n = a + (n + 1) by omega]

@[simp] theorem Engine.rsteps_x (e : Engine) (mr nr a n : Nat) (m : Memory) : (e.rsteps mr nr a n m).x = e.x := by
  induction n generalizing e a with
  | zero => rfl
  | succ n ih => rw [Engine.rsteps_succ, ih]; rfl

theorem SameData.rsteps {e f : Engine} (h : SameData e f) (mr nr a n : Nat) (m : Memory) :
    SameData (e.rsteps mr nr a n m) (f.rsteps mr nr a n m) := by
  induction n generalizing e f a with
  | zero => exact h
  | succ n ih => simpa only [Engine.rsteps_succ] using ih (h.rstep mr nr a m) (a + 1)

/-- A loop trip is two reduction steps (R167). -/
theorem Engine.loopTrip_data (e : Engine) (mr nr : Nat) (m : Memory) :
    SameData (e.loopTrip mr nr m) (e.rsteps mr nr e.step.toNat 2 m) := ⟨rfl, rfl, rfl, rfl⟩

/-- The tail is one reduction step (R167). -/
theorem Engine.tailStep_data (e : Engine) (mr nr : Nat) (m : Memory) :
    SameData (e.tailStep mr nr m) (e.rsteps mr nr e.step.toNat 1 m) := ⟨rfl, rfl, rfl, rfl⟩

/-- A lane of the tile after a reduction step (R166): its dot product with the step's bytes of the two panels. -/
theorem Engine.accAt_rstep (e : Engine) {mr nr i j : Nat} (s : Nat) (m : Memory) (hmr : mr ≤ 8) (hnr : nr ≤ 6)
    (hi : i < mr) (hj : j < nr) :
    (e.rstep mr nr s m).accAt i j =
      dot4 (e.accAt i j)
        (fun kk => if kk < 4 then Memory.read m (e.aptr + 4 * mr * s + (4 * i + kk)) else 0)
        (fun kk => if kk < 4 then Memory.read m (e.bptr + 4 * nr * s + (4 * j + kk)) else 0) := by
  rw [accAt_accFile _ _ (by omega : i < 8) (by omega : j < 6) rfl, if_pos ⟨hi, hj⟩]
  have hva : ∀ kk, kk < 4 → (e.loadStep mr nr s m).vaAt (4 * i + kk) =
      Memory.read m (e.aptr + 4 * mr * s + (4 * i + kk)) := by
    intro kk hk
    rw [Engine.vaAt, Engine.loadStep, tabulate_getD _ _ (by omega), if_pos (by omega)]
  have hvb : ∀ kk, kk < 4 → (e.loadStep mr nr s m).vbAt (4 * j + kk) =
      Memory.read m (e.bptr + 4 * nr * s + (4 * j + kk)) := by
    intro kk hk
    rw [Engine.vbAt, Engine.loadStep, tabulate_getD _ _ (by omega), if_pos (by omega)]
  simp only [dot4, hva 0 (by omega), hva 1 (by omega), hva 2 (by omega), hva 3 (by omega), hvb 0 (by omega),
    hvb 1 (by omega), hvb 2 (by omega), hvb 3 (by omega)]
  rfl

/-- `wrap32` composes (R171). -/
theorem wrap32_toInt_add (u v : Int) : wrap32 ((wrap32 u).toInt + v) = wrap32 (u + v) := by
  apply BitVec.eq_of_toInt_eq
  simp [wrap32, BitVec.toInt_ofInt, Int.bmod_add_bmod]

/-! The stores (R169). -/

/-- The elements of the tile that `STORE` writes, in its order. -/
def tileItems (mr nv : Nat) : List (Nat × Nat) :=
  (List.range mr).flatMap fun i => (List.range nv).map fun j => (i, j)

theorem mem_tileItems {mr nv i j : Nat} : (i, j) ∈ tileItems mr nv ↔ i < mr ∧ j < nv := by
  simp [tileItems]

/-- `STORE` is a sequence of int32 writes (R169). -/
theorem Engine.storeTile_eq (e : Engine) (mr nv : Nat) (m : Memory) :
    e.storeTile mr nv m =
      writeSeq (fun k : Nat × Nat => e.addrC k.1 k.2) (fun _ k => i32Bytes (e.accAt k.1 k.2)) (tileItems mr nv) m := by
  simp only [Engine.storeTile, writeSeq, tileItems, List.foldl_flatMap, List.foldl_map]
  rfl

/-- `addrC(i, j)` as R69 writes it. -/
theorem Engine.addrC_eq (e : Engine) (i j : Nat) : e.addrC i j = e.outp + 4 * (i * e.ldc + j) := by
  simp only [Engine.addrC, Engine.ldcb, Config.dstElemBytes]; ring

/-- The elements of a tile whose rows do not overlap stand apart (R71). -/
theorem Engine.addrC_inj (e : Engine) {nv i j i' j' x : Nat} (hl : nv ≤ e.ldc) (hj : j < nv) (hj' : j' < nv)
    (h : e.addrC i j ≤ x ∧ x < e.addrC i j + 4) (h' : e.addrC i' j' ≤ x ∧ x < e.addrC i' j' + 4) :
    i' = i ∧ j' = j := by
  rw [Engine.addrC_eq] at h h'
  have hlin : i' * e.ldc + j' = i * e.ldc + j := by omega
  have hi : i' = i := by
    have h1 : (i' * e.ldc + j') / e.ldc = i' := by
      rw [Nat.mul_comm, Nat.mul_add_div (by omega), Nat.div_eq_of_lt (by omega), Nat.add_zero]
    have h2 : (i * e.ldc + j) / e.ldc = i := by
      rw [Nat.mul_comm, Nat.mul_add_div (by omega), Nat.div_eq_of_lt (by omega), Nat.add_zero]
    rw [← h1, ← h2, hlin]
  subst hi
  exact ⟨rfl, by omega⟩

/-- A byte in no valid element is left alone by `STORE` (R169, R205). -/
theorem Engine.get?_storeTile_outside (e : Engine) (mr nv : Nat) (m : Memory) {x : Nat}
    (hx : ∀ i j, i < mr → j < nv → ¬ (e.addrC i j ≤ x ∧ x < e.addrC i j + 4)) :
    Memory.get? (e.storeTile mr nv m) x = Memory.get? m x := by
  rw [Engine.storeTile_eq]
  refine get?_writeSeq_outside (len := fun _ => 4) (by simp) _ m ?_
  rintro ⟨i, j⟩ hk
  exact hx i j (mem_tileItems.1 hk).1 (mem_tileItems.1 hk).2

/-- A valid element after `STORE` holds its lane (R169). -/
theorem Engine.readI32_storeTile (e : Engine) {mr nv i j : Nat} (m : Memory) (hl : nv ≤ e.ldc) (hi : i < mr)
    (hj : j < nv) : Memory.readI32 (e.storeTile mr nv m) (e.addrC i j) = e.accAt i j := by
  apply Memory.readI32_of_bytes
  intro t ht
  rw [Memory.read, Engine.storeTile_eq,
    get?_writeSeq_inside (len := fun _ => 4) (by simp) (tileItems mr nv) m (k := (i, j)) (fun _ _ => rfl)
      (mem_tileItems.2 ⟨hi, hj⟩) (by simp; omega)]
  · simp [i32Bytes, ht]
  · rintro ⟨i', j'⟩ hk hx
    have := e.addrC_inj (i := i) hl hj (mem_tileItems.1 hk).2 (x := e.addrC i j + t) (by omega) hx
    exact Prod.ext this.1 this.2

end Sys2Proof.Machine
end

