-- ==== Sys2Proof/Safety.lean ====
section
/-! DEFINITION. What a call inside the contract is (60_exceptions.md R211), written from the rules as propositions and
not from the machine's checks, and the invariant of the machine. -/

namespace Sys2Proof.Safety

open Sys2Proof.Machine

/-- A byte address that a call may access (R10, R54): below `2^AW` and in `Valid`. -/
def Accessible (m : Memory) (a : Nat) : Prop := a < 2 ^ 64 ∧ ∃ b, Memory.get? m a = some b

/-! What the commands read and write (R126, R147, R177), for the operands in the registers of `e`. -/

/-- The source bytes of `PACK_A`: for every row group `G` with `LO/4 <= G < HI/4`, the `4*K` bytes from
`SRC + G*LDS + 16*s0` (R126). -/
def PackAReads (e : Engine) (a : Nat) : Prop :=
  ∃ g t, e.lo / 4 ≤ g ∧ g < e.hi / 4 ∧ t < 4 * (e.kmax - e.k0) ∧ a = e.src + g * e.lds + 16 * (e.k0 / 4) + t

/-- The packed region of `PACK_A`: `[DST, DST + Mp*K)` (R126). -/
def PackAWrites (e : Engine) (a : Nat) : Prop :=
  e.dst ≤ a ∧ a < e.dst + (e.hi - e.lo) * (e.kmax - e.k0)

/-- The source bytes of `PACK_B`: for every step `s`, the bytes from `SRC + (s0+s)*LDS + 4*LO` to
`SRC + (s0+s)*LDS + 4*HI - 1` (R147). -/
def PackBReads (e : Engine) (a : Nat) : Prop :=
  ∃ s, s < (e.kmax - e.k0) / 4 ∧ e.src + (e.k0 / 4 + s) * e.lds + 4 * e.lo ≤ a ∧
    a < e.src + (e.k0 / 4 + s) * e.lds + 4 * e.hi

/-- The size of the packed region of `PACK_B` (R64, R144). -/
def packBSize (e : Engine) : Nat :=
  (e.hi - e.lo) / 6 * 6 * (e.kmax - e.k0) + (e.hi - e.lo) % 6 / 4 * 4 * (e.kmax - e.k0)
    + (if 0 < (e.hi - e.lo) % 6 % 4 then 4 * (e.kmax - e.k0) else 0)

/-- The packed region of `PACK_B` (R144, R147). -/
def PackBWrites (e : Engine) (a : Nat) : Prop := e.dst ≤ a ∧ a < e.dst + packBSize e

/-- The A region `[APTR, APTR + MR*K)` and the B region `[BPTR, BPTR + NR*K)` of a kernel (R70, R177). -/
def PanelReads (mr nr : Nat) (e : Engine) (a : Nat) : Prop :=
  (e.aptr ≤ a ∧ a < e.aptr + mr * e.klen) ∨ (e.bptr ≤ a ∧ a < e.bptr + nr * e.klen)

/-- The C region of a kernel: the bytes `addrC(i, j) .. addrC(i, j) + 3` of the valid elements (R69, R70, R177). -/
def TileBytes (mr nv : Nat) (e : Engine) (a : Nat) : Prop :=
  ∃ i j t, i < mr ∧ j < nv ∧ t < 4 ∧ a = e.outp + 4 * (i * e.ldc + j) + t

/-- The bytes a command reads. A kernel reads its C region only on a warm start (R177). -/
def Reads (j : Job) (e : Engine) (a : Nat) : Prop :=
  match j with
  | .packA => PackAReads e a
  | .packB => PackBReads e a
  | .kernel mr nr nv first => PanelReads mr nr e a ∨ (first = false ∧ TileBytes mr nv e a)

/-- The bytes a command writes. -/
def Writes (j : Job) (e : Engine) (a : Nat) : Prop :=
  match j with
  | .packA => PackAWrites e a
  | .packB => PackBWrites e a
  | .kernel mr _ nv _ => TileBytes mr nv e a

/-! The addresses the packers compute besides those of the bytes they touch (R97, R122, R143; log 11). -/

/-- `OPTR` of `PACK_A` at its start and after each 16-byte cell of the packed region, the last included (R122). -/
def PackAComputes (e : Engine) (a : Nat) : Prop :=
  ∃ c, 16 * c ≤ (e.hi - e.lo) * (e.kmax - e.k0) ∧ a = e.dst + 16 * c

/-- `B4`, `BS` and the source step rows of `PACK_B`, whether or not a byte is accessed there (R143). -/
def PackBComputes (e : Engine) (a : Nat) : Prop :=
  a = e.b4 ∨ a = e.bs ∨ ∃ s, s < (e.kmax - e.k0) / 4 ∧ a = e.src + (e.k0 / 4 + s) * e.lds

/-- The addresses a command computes besides those of the bytes it touches; a kernel computes no other (R164, R166,
R169). -/
def Computes (j : Job) (e : Engine) (a : Nat) : Prop :=
  match j with
  | .packA => PackAComputes e a
  | .packB => PackBComputes e a
  | .kernel _ _ _ _ => False

/-! The contract (R120, R140, R162). -/

/-- The preconditions of `PACK_A` (R120). -/
structure PackAContract (e : Engine) (m : Memory) : Prop where
  v3 : e.lo % 4 = 0 ∧ e.lo ≤ e.hi ∧ (e.hi - e.lo) % 4 = 0
  v4 : e.k0 % 4 = 0 ∧ e.k0 ≤ e.kmax ∧ (e.kmax - e.k0) % 4 = 0
  v7 : ∀ v ∈ [e.lds, e.lo, e.hi, e.k0, e.kmax], v ≤ 2 ^ 31 - 1
  v8 : ∀ a, PackAReads e a ∨ PackAWrites e a → Accessible m a
  v8Computed : ∀ a, PackAComputes e a → a < 2 ^ 64
  v10 : ∀ a, PackAReads e a → ¬ PackAWrites e a

/-- The preconditions of `PACK_B` (R140). -/
structure PackBContract (e : Engine) (m : Memory) : Prop where
  v4 : e.k0 % 4 = 0 ∧ e.k0 ≤ e.kmax ∧ (e.kmax - e.k0) % 4 = 0
  v5 : e.lo ≤ e.hi
  v7 : ∀ v ∈ [e.lds, e.lo, e.hi, e.k0, e.kmax], v ≤ 2 ^ 31 - 1
  v8 : ∀ a, PackBReads e a ∨ PackBWrites e a → Accessible m a
  v8Computed : ∀ a, PackBComputes e a → a < 2 ^ 64
  v10 : ∀ a, PackBReads e a → ¬ PackBWrites e a

/-- The preconditions of a kernel of `mr` rows and `nr` columns with `nv` valid ones (R162). -/
structure KernelContract (mr nr nv : Nat) (e : Engine) (m : Memory) : Prop where
  v2 : e.klen % 4 = 0 ∧ 4 ≤ e.klen
  v6 : nr ≤ e.ldc
  v7 : e.klen ≤ 2 ^ 31 - 1 ∧ e.ldc ≤ 2 ^ 31 - 1
  v8 : ∀ a, PanelReads mr nr e a ∨ TileBytes mr nv e a → Accessible m a
  v9 : e.outp % 4 = 0
  v10 : ∀ a, PanelReads mr nr e a → ¬ TileBytes mr nv e a

/-- The preconditions V2 to V10 of a command. -/
def Contract (j : Job) (e : Engine) (m : Memory) : Prop :=
  match j with
  | .packA => PackAContract e m
  | .packB => PackBContract e m
  | .kernel mr nr nv _ => KernelContract mr nr nv e m

/-- The conditions V2 to V10 of R211, each for the commands it concerns; every other refusal is none of them. -/
def Violates (j : Job) (e : Engine) (m : Memory) : Refusal → Prop
  | .v2ReductionLength => match j with
    | .packA => False
    | .packB => False
    | .kernel _ _ _ _ => e.klen % 4 ≠ 0 ∨ e.klen < 4
  | .v3RowRange => match j with
    | .packA => e.lo % 4 ≠ 0 ∨ e.hi < e.lo ∨ (e.hi - e.lo) % 4 ≠ 0
    | .packB => False
    | .kernel _ _ _ _ => False
  | .v4ReductionRange => match j with
    | .packA => e.k0 % 4 ≠ 0 ∨ e.kmax < e.k0 ∨ (e.kmax - e.k0) % 4 ≠ 0
    | .packB => e.k0 % 4 ≠ 0 ∨ e.kmax < e.k0 ∨ (e.kmax - e.k0) % 4 ≠ 0
    | .kernel _ _ _ _ => False
  | .v5ColumnRange => match j with
    | .packA => False
    | .packB => e.hi < e.lo
    | .kernel _ _ _ _ => False
  | .v6RowStride => match j with
    | .packA => False
    | .packB => False
    | .kernel _ nr _ _ => e.ldc < nr
  | .v7ScalarRange => match j with
    | .packA => ∃ v ∈ [e.lds, e.lo, e.hi, e.k0, e.kmax], 2 ^ 31 - 1 < v
    | .packB => ∃ v ∈ [e.lds, e.lo, e.hi, e.k0, e.kmax], 2 ^ 31 - 1 < v
    | .kernel _ _ _ _ => 2 ^ 31 - 1 < e.klen ∨ 2 ^ 31 - 1 < e.ldc
  | .v8Access => ∃ a, ((Reads j e a ∨ Writes j e a) ∧ ¬ Accessible m a) ∨ (Computes j e a ∧ 2 ^ 64 ≤ a)
  | .v9OutputAlignment => match j with
    | .packA => False
    | .packB => False
    | .kernel _ _ _ _ => e.outp % 4 ≠ 0
  | .v10Overlap => match j with
    | .packA => ∃ a, PackAReads e a ∧ PackAWrites e a
    | .packB => ∃ a, PackBReads e a ∧ PackBWrites e a
    | .kernel mr nr nv _ => ∃ a, PanelReads mr nr e a ∧ TileBytes mr nv e a
  | _ => False

/-- The order in which a command's preconditions are tested (R213): V7, V2 to V6, V9, V8, V10. -/
def testOrder : List Refusal :=
  [.v7ScalarRange, .v2ReductionLength, .v3RowRange, .v4ReductionRange, .v5ColumnRange, .v6RowStride,
    .v9OutputAlignment, .v8Access, .v10Overlap]

/-- `r` is the first violation, in the order of R213, of the call. -/
def FirstViolated (j : Job) (e : Engine) (m : Memory) (r : Refusal) : Prop :=
  ∃ before after, testOrder = before ++ r :: after ∧ Violates j e m r ∧ ∀ q ∈ before, ¬ Violates j e m q

/-- Two calls that may run at a time: neither writes a byte the other reads or writes (R80). -/
def Independent (j : Job) (e : Engine) (k : Job) (f : Engine) : Prop :=
  ∀ a, (Writes j e a → ¬ Reads k f a ∧ ¬ Writes k f a) ∧ (Writes k f a → ¬ Reads j e a)

/-- No other engine runs a call that the work `j` of engine `n` would race with (R80, V11). -/
def NoRace (s : State) (n : Nat) (j : Job) (e : Engine) : Prop :=
  ∀ k f i, s.engines[k]? = some f → k ≠ n → f.phase ≠ .idle → decode f.cmd = .ok i → Independent j e (jobOf i) f

/-- The call transaction in hand is inside the contract: it was presented to engine `e`, which is `IDLE` (V12), and
none of V2 to V11 holds. -/
structure Ready (s : State) (j : Job) (e : Engine) : Prop where
  engine : s.engines[s.active]? = some e
  idle : e.phase = .idle
  contract : Contract j e s.mem
  noRace : NoRace s s.active j e

/-! The invariant of the machine. -/

/-- The sequencer registers of an engine that runs `j` (R23, R24, R167): the phase is one of the command's, the packer
registers hold their start values (the model's choice where R122 and R143 give none, log 22), `ODD` belongs to `K`, and
the reduction steps done and still to do add up to `K/4`. -/
def InSequence (j : Job) (e : Engine) : Prop :=
  match j with
  | .packA => e.phase = .copy ∧ e.pack = e.packStart
  | .packB => e.phase = .copy ∧ e.pack = e.packStart
  | .kernel _ _ _ _ =>
    e.odd = oddFlag e.ksteps ∧
    match e.phase with
    | .init => e.step.toNat = 0 ∧ e.trips.toNat = e.ksteps / 2
    | .loop => 0 < e.trips.toNat ∧ e.step.toNat + 2 * e.trips.toNat + e.odd.toNat = e.ksteps
    | .tail => e.trips.toNat = 0 ∧ e.odd = true ∧ e.step.toNat + 1 = e.ksteps
    | .store => e.trips.toNat = 0 ∧ e.step.toNat = e.ksteps
    | .idle => False
    | .copy => False

/-- A running engine runs a call of a valid command word that is inside the contract and races with no other. -/
def RunningWell (s : State) (n : Nat) (e : Engine) : Prop :=
  e.phase ≠ .idle → ∃ i, decode e.cmd = .ok i ∧ InSequence (jobOf i) e ∧ Contract (jobOf i) e s.mem ∧
    NoRace s n (jobOf i) e

/-- The invariant: memory is in canonical form, there is an engine, and every running engine runs well. -/
structure Inv (s : State) : Prop where
  memory : Memory.wf s.mem
  engines : s.engines ≠ []
  running : ∀ n e, s.engines[n]? = some e → RunningWell s n e

/-- `k` steps of engine `n`, stopping where one of them stops. -/
def advances (n : Nat) : Nat → State → Host.Outcome State Fault Refusal
  | 0, s => .next s
  | k + 1, s => match advance n s with
    | .next t => advances n k t
    | .fault r => .fault r
    | .refused r => .refused r

/-! The results of the commands in closed form (R123, R144, R171). -/

/-- The exact sum `P(i, j)` of a kernel (R171): over the steps and the four indices of a step, the product of the A
panel's and the B panel's elements. -/
def panelSum (mr nr : Nat) (e : Engine) (m : Memory) (i j : Nat) : Int :=
  ((List.range (e.klen / 4)).map fun s => ((List.range 4).map fun kk =>
    s8 (Memory.read m (e.aptr + 4 * mr * s + 4 * i + kk)) *
      s8 (Memory.read m (e.bptr + 4 * nr * s + 4 * j + kk))).sum).sum

/-- `C0(i, j)` of a kernel (R171). -/
def initialElement (first : Bool) (e : Engine) (m : Memory) (i j : Nat) : Int :=
  if first then 0 else (Memory.readI32 m (e.outp + 4 * (i * e.ldc + j))).toInt

/-- The memory a kernel call leaves (R171). -/
structure TileResult (mr nr nv : Nat) (first : Bool) (e : Engine) (m m' : Memory) : Prop where
  element : ∀ i j, i < mr → j < nv →
    Memory.readI32 m' (e.outp + 4 * (i * e.ldc + j)) = wrap32 (initialElement first e m i j + panelSum mr nr e m i j)
  rest : ∀ a, ¬ TileBytes mr nv e a → Memory.get? m' a = Memory.get? m a

/-- The memory `PACK_A` leaves (R123). -/
structure PackAResult (e : Engine) (m m' : Memory) : Prop where
  rows8 : ∀ p s i kk, p < (e.hi - e.lo) / 8 → s < (e.kmax - e.k0) / 4 → i < 8 → kk < 4 →
    Memory.read m' (e.dst + p * 8 * (e.kmax - e.k0) + 32 * s + 4 * i + kk)
      = Memory.read m (e.addrA (e.lo + 8 * p + i) (e.k0 + 4 * s + kk))
  rows4 : (e.hi - e.lo) % 8 / 4 = 1 → ∀ s i kk, s < (e.kmax - e.k0) / 4 → i < 4 → kk < 4 →
    Memory.read m' (e.dst + (e.hi - e.lo) / 8 * 8 * (e.kmax - e.k0) + 16 * s + 4 * i + kk)
      = Memory.read m (e.addrA (e.lo + 8 * ((e.hi - e.lo) / 8) + i) (e.k0 + 4 * s + kk))
  rest : ∀ a, ¬ PackAWrites e a → Memory.get? m' a = Memory.get? m a

/-- The memory `PACK_B` leaves (R144). -/
structure PackBResult (e : Engine) (m m' : Memory) : Prop where
  cols6 : ∀ q s j kk, q < e.n6 → s < (e.kmax - e.k0) / 4 → j < 6 → kk < 4 →
    Memory.read m' (e.dst + q * 6 * (e.kmax - e.k0) + 24 * s + 4 * j + kk)
      = Memory.read m (e.addrB (e.k0 + 4 * s + kk) (e.lo + 6 * q + j))
  cols4 : e.n4 = 1 → ∀ s j kk, s < (e.kmax - e.k0) / 4 → j < 4 → kk < 4 →
    Memory.read m' (e.b4 + 16 * s + 4 * j + kk) = Memory.read m (e.addrB (e.k0 + 4 * s + kk) (e.lo + 6 * e.n6 + j))
  short : 0 < e.rem → ∀ s kk, s < (e.kmax - e.k0) / 4 → kk < 4 →
    (∀ j, j < e.rem → Memory.read m' (e.bs + 16 * s + 4 * j + kk)
      = Memory.read m (e.addrB (e.k0 + 4 * s + kk) (e.lo + 6 * e.n6 + 4 * e.n4 + j))) ∧
    (∀ j, e.rem ≤ j → j < 4 → Memory.read m' (e.bs + 16 * s + 4 * j + kk) = 0)
  rest : ∀ a, ¬ PackBWrites e a → Memory.get? m' a = Memory.get? m a

/-- Engine registers that hold the operands `x`; the operand names below read them. -/
def holding (x : Vector Word 7) : Engine := { Engine.reset with x := x }

/-- `ptr` is the start of a packed A panel of `mr` rows that `PACK_A` with the operands of `e` leaves, and its tile row
0 is row `row` of `A` (R60, R123). -/
def IsPanelA (e : Engine) (mr ptr row : Nat) : Prop :=
  (mr = 8 ∧ ∃ p, p < (e.hi - e.lo) / 8 ∧ ptr = e.dst + p * 8 * (e.kmax - e.k0) ∧ row = e.lo + 8 * p) ∨
  (mr = 4 ∧ (e.hi - e.lo) % 8 / 4 = 1 ∧ ptr = e.dst + (e.hi - e.lo) / 8 * 8 * (e.kmax - e.k0) ∧
    row = e.lo + 8 * ((e.hi - e.lo) / 8))

/-- `ptr` is the start of a packed B panel of `nr` columns, the first `nv` of them real ones, that `PACK_B` with the
operands of `e` leaves, and its tile column 0 is column `col` of `B` (R64, R144). -/
def IsPanelB (e : Engine) (nr nv ptr col : Nat) : Prop :=
  (nr = 6 ∧ nv ≤ 6 ∧ ∃ q, q < e.n6 ∧ ptr = e.dst + q * 6 * (e.kmax - e.k0) ∧ col = e.lo + 6 * q) ∨
  (nr = 4 ∧ nv ≤ 4 ∧ e.n4 = 1 ∧ ptr = e.b4 ∧ col = e.lo + 6 * e.n6) ∨
  (nr = 4 ∧ 0 < e.rem ∧ nv ≤ e.rem ∧ ptr = e.bs ∧ col = e.lo + 6 * e.n6 + 4 * e.n4)

/-- Row `row` of `A` times column `col` of `B` over the packed reduction range, in ascending order, the operands being
where the views of `ea` and `eb` have them (R58, R59, R172). -/
def referenceSum (ea eb : Engine) (m : Memory) (row col : Nat) : Int :=
  ((List.range (ea.kmax - ea.k0)).map fun k =>
    s8 (Memory.read m (ea.addrA row (ea.k0 + k))) * s8 (Memory.read m (eb.addrB (eb.k0 + k) col))).sum

/-- What a completed call leaves of the rest of the machine (R31, R90, R178, R218): its engine is back in `IDLE`,
every other engine is as it was, and so is what the outside world does next. -/
structure CallFrame (s t : State) : Prop where
  own : ∃ e, t.engines[s.active]? = some e ∧ e.phase = .idle
  others : ∀ n, n ≠ s.active → t.engines[n]? = s.engines[n]?
  count : t.engines.length = s.engines.length
  agenda : t.agenda = s.agenda
  active : t.active = s.active

end Sys2Proof.Safety
end

