-- ==== Sys2Proof/Laws/Contract.lean ====
section
/-! SUPPORT. The machine's regions and checks against the propositions of Safety.lean (20_memory.md R70,
60_exceptions.md R211). -/

namespace Sys2Proof.Machine

open Sys2Proof.Safety

/-! Regions as lists and as propositions. -/

theorem mem_range'_iff {a s n : Nat} : a ∈ List.range' s n ↔ s ≤ a ∧ a < s + n := by
  simp [List.mem_range'_1]

theorem mem_packASource {e : Engine} {a : Nat} : a ∈ e.packASource ↔ PackAReads e a := by
  simp only [Engine.packASource, List.mem_flatMap, mem_range'_iff, PackAReads, Engine.packK, Engine.packFirst]
  constructor
  · rintro ⟨g, ⟨h1, h2⟩, h3, h4⟩
    exact ⟨g, a - (e.src + g * e.lds + 16 * (e.k0 / 4)), h1, by omega, by omega, by omega⟩
  · rintro ⟨g, t, h1, h2, h3, rfl⟩
    exact ⟨g, ⟨h1, by omega⟩, by omega, by omega⟩

theorem mem_packAPacked {e : Engine} {a : Nat} : a ∈ e.packAPacked ↔ PackAWrites e a := by
  simp only [Engine.packAPacked, mem_range'_iff, PackAWrites, Engine.span, Engine.packK]

theorem mem_packBSource {e : Engine} {a : Nat} : a ∈ e.packBSource ↔ PackBReads e a := by
  simp only [Engine.packBSource, List.mem_flatMap, mem_range'_iff, List.mem_range, PackBReads, Engine.packSteps,
    Engine.packK, Engine.packFirst, Engine.span]
  refine exists_congr fun s => and_congr_right fun _ => ?_
  omega

theorem mem_packBPacked {e : Engine} {a : Nat} : a ∈ e.packBPacked ↔ PackBWrites e a := by
  rw [Engine.packBPacked, mem_range'_iff]; exact Iff.rfl

theorem mem_panels {e : Engine} {mr nr a : Nat} : a ∈ e.panels mr nr ↔ PanelReads mr nr e a := by
  simp only [Engine.panels, List.mem_append, mem_range'_iff, PanelReads]

theorem mem_tile {e : Engine} {mr nv a : Nat} : a ∈ e.tile mr nv ↔ TileBytes mr nv e a := by
  simp only [Engine.tile, List.mem_flatMap, mem_range'_iff, List.mem_range, TileBytes, Engine.addrC_eq]
  constructor
  · rintro ⟨i, hi, j, hj, h1, h2⟩
    exact ⟨i, j, a - (e.outp + 4 * (i * e.ldc + j)), hi, hj, by omega, by omega⟩
  · rintro ⟨i, j, t, hi, hj, ht, rfl⟩
    exact ⟨i, hi, j, hj, by omega, by omega⟩

theorem mem_packAComputed {e : Engine} {a : Nat} : a ∈ e.packAComputed ↔ PackAComputes e a := by
  simp only [Engine.packAComputed, List.mem_map, List.mem_range, PackAComputes, Engine.span, Engine.packK]
  refine exists_congr fun c => and_congr ?_ eq_comm
  omega

theorem mem_packBComputed {e : Engine} {a : Nat} : a ∈ e.packBComputed ↔ PackBComputes e a := by
  simp only [Engine.packBComputed, List.mem_cons, List.mem_map, List.mem_range, PackBComputes, Engine.packSteps,
    Engine.packK, Engine.packFirst, eq_comm]

theorem mem_computed (j : Job) (e : Engine) (a : Nat) : a ∈ j.computed e ↔ Computes j e a := by
  cases j <;> simp only [Job.computed, Computes, mem_packAComputed, mem_packBComputed, List.not_mem_nil]

/-! Checks. -/

theorem overlap_eq_false {as bs : List Nat} : overlap as bs = false ↔ ∀ a, a ∈ as → a ∉ bs := by
  simp [overlap]

theorem accessible_iff {m : Memory} {a : Nat} : Memory.accessible m a = true ↔ Accessible m a := by
  rw [Memory.accessible, Bool.and_eq_true, decide_eq_true_iff, Option.isSome_iff_exists]; exact Iff.rfl

theorem badAccess_eq_false {j : Job} {e : Engine} {m : Memory} :
    j.badAccess e m = false ↔ (∀ a, a ∈ j.inputs e ∨ a ∈ j.outputs e → Accessible m a) ∧
      ∀ a, Computes j e a → a < 2 ^ 64 := by
  simp only [Job.badAccess, Bool.or_eq_false_iff, Bool.not_eq_false', List.all_eq_true, List.mem_append,
    accessible_iff, List.any_eq_false, decide_eq_true_iff, Nat.not_le, mem_computed]
  exact Iff.rfl

theorem badScalar_eq_false {j : Job} {e : Engine} :
    j.badScalar e = false ↔ ∀ v ∈ j.scalars e, v ≤ 2 ^ 31 - 1 := by
  simp only [Job.badScalar, List.any_eq_false, decide_eq_true_iff, Nat.not_lt]; exact Iff.rfl

theorem firstViolation_eq_none {l : List (Bool × Refusal)} :
    firstViolation l = none ↔ ∀ p ∈ l, p.1 = false := by
  induction l with
  | nil => simp [firstViolation]
  | cons p rest ih =>
    obtain ⟨b, r⟩ := p
    cases b <;> simp [firstViolation, ih]

/-- Whether a byte is accessible depends on which addresses are in `Valid`, not on what they hold. -/
theorem Accessible.congr {m m' : Memory} {a : Nat} (h : Memory.get? m a = none ↔ Memory.get? m' a = none)
    (ha : Accessible m a) : Accessible m' a := by
  obtain ⟨h1, b, hb⟩ := ha
  refine ⟨h1, ?_⟩
  rcases hm : Memory.get? m' a with _ | b'
  · rw [h.2 hm] at hb; simp at hb
  · exact ⟨b', rfl⟩

end Sys2Proof.Machine
end

