-- ==== Sys2Proof/Laws/Exec.lean ====
section
/-! SUPPORT. What a call transaction and a step of the sequencer can do (10_state.md R23, 30_encoding.md R90), one
inversion lemma for each operation. -/

namespace Sys2Proof.Machine

open Sys2Proof.Safety

/-- The machine after the whole call `j` on its active engine `e` (R90). -/
def State.completed (s : State) (j : Job) (e : Engine) : State :=
  { s.setEngine s.active (j.run s.draws e s.mem).1 with
    mem := (j.run s.draws e s.mem).2, draws := s.draws + 1 }

/-- A whole call completes exactly when its engine is there, is `IDLE` and the call meets no violation (R90, R211). -/
theorem runJob_next {j : Job} {s t : State} :
    runJob j s = .next t ↔ ∃ e, s.engines[s.active]? = some e ∧ e.phase = .idle ∧
      s.violation s.active j e = none ∧ t = s.completed j e := by
  unfold runJob
  rcases h : s.engines[s.active]? with _ | e
  · simp
  · by_cases hp : e.phase = .idle
    · rcases hv : s.violation s.active j e with _ | r
      · simp [hp, hv, State.completed, eq_comm]
      · simp [hp, hv]
    · simp [hp]

/-- A call that starts (R90): the same conditions, and the engine has begun. -/
theorem startJob_next {j : Job} {s t : State} :
    startJob j s = .next t ↔ ∃ e, s.engines[s.active]? = some e ∧ e.phase = .idle ∧
      s.violation s.active j e = none ∧ t = s.setEngine s.active (j.begin e) := by
  unfold startJob
  rcases h : s.engines[s.active]? with _ | e
  · simp
  · by_cases hp : e.phase = .idle
    · rcases hv : s.violation s.active j e with _ | r
      · simp [hp, hv, eq_comm]
      · simp [hp, hv]
    · simp [hp]

/-- The machine after engine `n`, holding `e` and running `j`, has taken a step. -/
def State.ticked (s : State) (n : Nat) (j : Job) (e : Engine) : State :=
  { s.setEngine n (j.tick s.draws (e, s.mem)).1 with mem := (j.tick s.draws (e, s.mem)).2, draws := s.draws + 1 }

/-- A step of an engine: nothing if it is idle, else one step of its call, which meets no violation (R219, R250). -/
theorem advance_next {n : Nat} {s t : State} :
    advance n s = .next t ↔ ∃ e, s.engines[n]? = some e ∧
      ((e.phase = .idle ∧ t = s) ∨
       (e.phase ≠ .idle ∧ ∃ j, e.job? = some j ∧ s.violation n j e = none ∧ t = s.ticked n j e)) := by
  unfold advance
  rcases h : s.engines[n]? with _ | e
  · simp
  · by_cases hp : e.phase = .idle
    · simp [hp, eq_comm]
    · rcases hj : e.job? with _ | j
      · simp [hp, hj]
      · rcases hv : s.violation n j e with _ | r
        · simp [hp, hj, hv, State.ticked]; exact eq_comm
        · simp [hp, hj, hv]

/-- A call transaction hands the decoded command over, latched, or stops (R90). -/
theorem present_next {go : Instr → State → Host.Outcome State Fault Refusal} {n : Nat} {cmd : CmdWord}
    {x : Vector Word 7} {s t : State} :
    present go n cmd x s = .next t ↔ ∃ e i, s.engines[n]? = some e ∧ e.phase = .idle ∧ decode cmd = .ok i ∧
      go i (s.latch n e cmd x) = .next t := by
  unfold present
  rcases h : s.engines[n]? with _ | e
  · simp
  · by_cases hp : e.phase = .idle
    · rcases hd : decode cmd with r | i
      · simp [hp]
      · simp [hp]
    · simp [hp]

/-- `exec` of a well-formed command is the whole call of its work (R181). -/
theorem exec_eq_runJob {i : Instr} (h : i.wf = true) (s : State) : exec i s = runJob (jobOf i) s := by
  cases i with
  | packA => rfl
  | packB => rfl
  | kern8x6 first => rfl
  | kern4x6 first => rfl
  | kern8x4 first nrem => exact if_pos h
  | kern4x4 first nrem => exact if_pos h

/-! One step of the sequencer, by command and phase (R23). -/

theorem Job.tick_packA {draw : Nat} {e : Engine} {m : Memory} (h : e.phase = .copy) :
    Job.packA.tick draw (e, m) = (Engine.afterCall draw, (e.copyA m).2) := by simp [Job.tick, h]

theorem Job.tick_packB {draw : Nat} {e : Engine} {m : Memory} (h : e.phase = .copy) :
    Job.packB.tick draw (e, m) = (Engine.afterCall draw, (e.copyB m).2) := by simp [Job.tick, h]

section
variable {mr nr nv draw : Nat} {first : Bool} {e : Engine} {m : Memory}

theorem Job.tick_init (h : e.phase = .init) : (Job.kernel mr nr nv first).tick draw (e, m) =
    (e.initTile mr nr nv first draw m, m) := by simp [Job.tick, h]

theorem Job.tick_loop (h : e.phase = .loop) : (Job.kernel mr nr nv first).tick draw (e, m) =
    (e.loopTrip mr nr m, m) := by simp [Job.tick, h]

theorem Job.tick_tail (h : e.phase = .tail) : (Job.kernel mr nr nv first).tick draw (e, m) =
    (e.tailStep mr nr m, m) := by simp [Job.tick, h]

theorem Job.tick_store (h : e.phase = .store) : (Job.kernel mr nr nv first).tick draw (e, m) =
    (Engine.afterCall draw, e.storeTile mr nv m) := by simp [Job.tick, h]

end

/-- The work an engine runs, when it runs one and its command word is valid (R90). -/
theorem Engine.job?_busy {e : Engine} {i : Instr} (h : e.phase ≠ .idle) (hd : decode e.cmd = .ok i) :
    e.job? = some (jobOf i) := by simp [Engine.job?, h, hd]

theorem Engine.job?_some {e : Engine} {j : Job} (h : e.job? = some j) :
    e.phase ≠ .idle ∧ ∃ i, decode e.cmd = .ok i ∧ j = jobOf i := by
  unfold Engine.job? at h
  split at h
  · simp at h
  · next hp =>
    refine ⟨hp, ?_⟩
    split at h
    · next i hd => exact ⟨i, hd, by simpa using h.symm⟩
    · simp at h

end Sys2Proof.Machine
end

