-- ==== Sys2Proof/Certificates/Slice0/Obligations.lean ====
section
/-! DEFINITION. The statements for the provers, each from the rules of spec/ its docstring names. -/

open Sys2Proof Sys2Proof.Machine Sys2Proof.Safety

/-! Encoding (30_encoding.md). -/

/-- R102: decode as a function of the word read as a number, and the encoder. -/
def Obligations.DecodeIsTheCommandTable : Prop :=
  (∀ w : CmdWord, (decode w = .ok .packA ↔ w.toNat = 0x1) ∧ (decode w = .ok .packB ↔ w.toNat = 0x2) ∧
    (∀ first : Bool, (decode w = .ok (.kern8x6 first) ↔ w.toNat = 0x4 + 16 * first.toNat) ∧
      (decode w = .ok (.kern4x6 first) ↔ w.toNat = 0x5 + 16 * first.toNat) ∧
      (∀ nrem, (decode w = .ok (.kern8x4 first nrem) ↔ nrem ≤ 4 ∧ w.toNat = 0x6 + 16 * first.toNat + 32 * nrem) ∧
        (decode w = .ok (.kern4x4 first nrem) ↔ nrem ≤ 4 ∧ w.toNat = 0x7 + 16 * first.toNat + 32 * nrem)))) ∧
  (encode .packA).toNat = 0x1 ∧ (encode .packB).toNat = 0x2 ∧
  (∀ first : Bool, (encode (.kern8x6 first)).toNat = 0x4 + 16 * first.toNat ∧
    (encode (.kern4x6 first)).toNat = 0x5 + 16 * first.toNat ∧
    (∀ nrem, nrem ≤ 4 → (encode (.kern8x4 first nrem)).toNat = 0x6 + 16 * first.toNat + 32 * nrem ∧
      (encode (.kern4x4 first nrem)).toNat = 0x7 + 16 * first.toNat + 32 * nrem))

/-- R102: encode and decode are inverse to each other. -/
def Obligations.DecodeAndEncodeAgree : Prop :=
  (∀ i : Instr, i.wf = true → decode (encode i) = .ok i) ∧
  (∀ (w : CmdWord) (i : Instr), decode w = .ok i → i.wf = true ∧ encode i = w)

/-- R98: which words are reserved, by their fields, and that 26 words are not. -/
def Obligations.ReservedCommandWords : Prop :=
  (∀ w : CmdWord, (∃ r, decode w = .error r) ↔
    w.toNat % 16 = 0x0 ∨ w.toNat % 16 = 0x3 ∨ 0x8 ≤ w.toNat % 16 ∨ w.toNat / 256 ≠ 0 ∨
    ((w.toNat % 16 = 0x1 ∨ w.toNat % 16 = 0x2) ∧ (w.toNat / 16 % 2 ≠ 0 ∨ w.toNat / 32 % 8 ≠ 0)) ∨
    ((w.toNat % 16 = 0x4 ∨ w.toNat % 16 = 0x5) ∧ w.toNat / 32 % 8 ≠ 0) ∨
    ((w.toNat % 16 = 0x6 ∨ w.toNat % 16 = 0x7) ∧ 5 ≤ w.toNat / 32 % 8)) ∧
  (∃ words : List CmdWord, words.Nodup ∧ words.length = 26 ∧ ∀ w, w ∈ words ↔ ∃ i, decode w = .ok i)

/-- R92 to R94, R190, R191, R200, R201: words written out from the encodings decode to what they stand for. -/
def Obligations.WrittenOutWordsDecode : Prop :=
  decode 0x00000001 = .ok .packA ∧ decode 0x00000002 = .ok .packB ∧
  decode 0x00000014 = .ok (.kern8x6 true) ∧ decode 0x00000005 = .ok (.kern4x6 false) ∧
  decode 0x00000056 = .ok (.kern8x4 true 2) ∧ decode 0x00000087 = .ok (.kern4x4 false 4) ∧
  decode 0x000000A6 = .error .nremRange ∧ decode 0x00000024 = .error .nremOnFullTile ∧
  decode 0x00000011 = .error .flagOnPacker ∧ decode 0x00000104 = .error .upperBits ∧
  decode 0x0000000F = .error .opcode

/-! Arithmetic and memory (42_kernel_common.md R165, R174; 20_memory.md R51). -/

/-- R165: `DOT4`, and that its products and their sum are exact. -/
def Obligations.Dot4WrapsOnlyTheLastAddition : Prop :=
  ∀ (acc : Lane) (a b : Nat → Byte),
    (∀ k, -16256 ≤ (a k).toInt * (b k).toInt ∧ (a k).toInt * (b k).toInt ≤ 16384) ∧
    ∀ sum, sum = (a 0).toInt * (b 0).toInt + (a 1).toInt * (b 1).toInt + (a 2).toInt * (b 2).toInt
        + (a 3).toInt * (b 3).toInt →
      -65024 ≤ sum ∧ sum ≤ 65536 ∧
      (dot4 acc a b).toInt = (acc.toInt + sum + 2 ^ 31) % 2 ^ 32 - 2 ^ 31 ∧
      (-2 ^ 31 ≤ acc.toInt + sum → acc.toInt + sum < 2 ^ 31 → (dot4 acc a b).toInt = acc.toInt + sum)

/-- R51: an int32 in memory is little-endian, and a write of one touches its four bytes only. -/
def Obligations.Int32IsLittleEndian : Prop :=
  ∀ (m : Memory) (a : Nat) (v : Lane),
    (∀ t, t < 4 → (Memory.read (Memory.writeI32 m a v) (a + t)).toNat = v.toNat / 2 ^ (8 * t) % 256) ∧
    Memory.readI32 (Memory.writeI32 m a v) a = v ∧
    (∀ x, x < a ∨ a + 4 ≤ x → Memory.get? (Memory.writeI32 m a v) x = Memory.get? m x)

/-- R97: with every scalar at most `SCALAR_MAX`, the offsets the address formulas add to a base stay below `2^62`, so
only the last addition can reach `2^AW`. -/
def Obligations.OffsetsStayBelow2Pow62 : Prop :=
  ∀ e : Engine, e.lds ≤ 2 ^ 31 - 1 → e.lo ≤ 2 ^ 31 - 1 → e.hi ≤ 2 ^ 31 - 1 → e.k0 ≤ 2 ^ 31 - 1 →
    e.kmax ≤ 2 ^ 31 - 1 → (e.kmax - e.k0) % 4 = 0 →
    (e.hi - e.lo) * (e.kmax - e.k0) < 2 ^ 62 ∧ packBSize e < 2 ^ 62 ∧
    (∀ m k, m < e.hi → k < e.kmax → e.addrA m k - e.src < 2 ^ 62) ∧
    (∀ k n, k < e.kmax → n < e.hi → e.addrB k n - e.src < 2 ^ 62) ∧
    (∀ i j, i < 8 → j < 6 → e.ldc ≤ 2 ^ 31 - 1 → e.addrC i j - e.outp < 2 ^ 36)

/-! The call transaction and the contract (30_encoding.md R90, 60_exceptions.md R211, R213). -/

/-- R90: a step whose next action is a call transaction on an idle engine, of a word that decodes, latches the word
and all seven operands and runs the decoded command. The event that presents it is the model's (log 7). The second
clause is about the model's own `withFetchWord`, which stands for such a call with operands the model chose (log 8). -/
def Obligations.StepRunsTheDecodedCommand : Prop :=
  (∀ (s : State) (n : Nat) (cmd : CmdWord) (x : Vector Word 7) (rest : List Event) (e : Engine) (i : Instr),
    s.agenda = .call n cmd x :: rest → s.engines[n]? = some e → e.phase = .idle → decode cmd = .ok i →
    step s = exec i { s with
      engines := s.engines.set n { e with cmd := cmd, x := x }, agenda := rest, active := n }) ∧
  (∀ (s : State) (w : Nat) (i : Instr), w < 2 ^ 32 → decode (BitVec.ofNat 32 w) = .ok i →
    ∃ e, (s.withFetchWord 32 w).engines[0]? = some e ∧ e.phase = .idle ∧
      step (s.withFetchWord 32 w) = exec i { s.withFetchWord 32 w with
        engines := (s.withFetchWord 32 w).engines.set 0
          { e with cmd := BitVec.ofNat 32 w, x := launchOperands },
        agenda := s.agenda, active := 0 })

/-- R90, R98: a call presented to a busy engine is refused (V12) whatever its word, and a reserved word is refused
(V1) whatever the operands and the memory. -/
def Obligations.BusyEngineAndReservedWordRefused : Prop :=
  ∀ (s : State) (n : Nat) (cmd : CmdWord) (x : Vector Word 7) (rest : List Event) (e : Engine),
    (s.agenda = .call n cmd x :: rest ∨ s.agenda = .start n cmd x :: rest) → s.engines[n]? = some e →
    (e.phase ≠ .idle → step s = .refused .v12Busy) ∧
    (e.phase = .idle → (∃ r, decode cmd = .error r) → step s = .refused .v1InvalidCommand)

/-- R211: a call presented to an idle engine completes exactly when none of V2 to V11 holds; a count above 4 is no
command (R94; the refusal of the ill-formed term is the model's reading, log 18). Which addresses V8 counts as computed
(log 11) and that V11 is tested by the calls' whole footprints (log 16) are the model's readings. -/
def Obligations.CompletesExactlyInsideTheContract : Prop :=
  (∀ (i : Instr) (s : State) (e : Engine), i.wf = true → s.engines[s.active]? = some e → e.phase = .idle →
    ((∃ t, exec i s = .next t) ↔ Ready s (jobOf i) e)) ∧
  (∀ (first : Bool) (nrem : Nat) (s : State), 4 < nrem →
    exec (.kern8x4 first nrem) s = .refused .v1InvalidCommand ∧
    exec (.kern4x4 first nrem) s = .refused .v1InvalidCommand)

/-- R213: a call is refused for the first of V2 to V10 it meets. Which addresses V8 counts as computed (log 11), and that
V11 is tested when the call starts, after all others, by the calls' whole footprints (log 16: R213 says only that it is
tested during the run), are the model's readings. -/
def Obligations.RefusedForTheFirstViolation : Prop :=
  ∀ (i : Instr) (s : State) (e : Engine) (r : Refusal), i.wf = true → s.engines[s.active]? = some e →
    e.phase = .idle →
    (exec i s = .refused r ↔
      FirstViolated (jobOf i) e s.mem r ∨
      ((∀ q, ¬ Violates (jobOf i) e s.mem q) ∧ ¬ NoRace s s.active (jobOf i) e ∧ r = .v11Race))

/-! The packers (40_pack_a.md, 41_pack_b.md). -/

/-- R122, R123, R126: `PACK_A` inside the contract completes, its packed buffer holds the closed form, every other byte
is as before, and so is the rest of the machine. -/
def Obligations.PackACompletesWithItsPanels : Prop :=
  ∀ (s : State) (e : Engine), Ready s .packA e →
    ∃ t, exec .packA s = .next t ∧ PackAResult e s.mem t.mem ∧ CallFrame s t

/-- R129: the packed A buffer unpacks to the source sub-range, and its bytes are exactly the images of the
(row, index) pairs. -/
def Obligations.PackARoundTrip : Prop :=
  ∀ (s : State) (e : Engine), Ready s .packA e →
    ∃ t, exec .packA s = .next t ∧
      (let K := e.kmax - e.k0
       let n8 := (e.hi - e.lo) / 8
       let place := fun m k =>
         if (m - e.lo) / 8 < n8 then
           e.dst + (m - e.lo) / 8 * 8 * K + 32 * ((k - e.k0) / 4) + 4 * ((m - e.lo) % 8) + (k - e.k0) % 4
         else e.dst + n8 * 8 * K + 16 * ((k - e.k0) / 4) + 4 * ((m - e.lo) % 4) + (k - e.k0) % 4
       (∀ m k, e.lo ≤ m → m < e.hi → e.k0 ≤ k → k < e.kmax →
          s8 (Memory.read t.mem (place m k)) = s8 (Memory.read s.mem (e.addrA m k)) ∧
          PackAWrites e (place m k)) ∧
       (∀ a, PackAWrites e a → ∃ m k, e.lo ≤ m ∧ m < e.hi ∧ e.k0 ≤ k ∧ k < e.kmax ∧ place m k = a ∧
          ∀ m' k', e.lo ≤ m' → m' < e.hi → e.k0 ≤ k' → k' < e.kmax → place m' k' = a → m' = m ∧ k' = k))

/-- R143, R144, R145: `PACK_B` inside the contract completes, its packed buffer holds the closed form with its zero
padding, every other byte is as before, and so is the rest of the machine. -/
def Obligations.PackBCompletesWithItsPanels : Prop :=
  ∀ (s : State) (e : Engine), Ready s .packB e →
    ∃ t, exec .packB s = .next t ∧ PackBResult e s.mem t.mem ∧ CallFrame s t

/-- R150: the packed B buffer unpacks to the source sub-range, and the bytes of the short panel that no (index, column)
pair reaches are zero. -/
def Obligations.PackBRoundTrip : Prop :=
  ∀ (s : State) (e : Engine), Ready s .packB e →
    ∃ t, exec .packB s = .next t ∧
      (let K := e.kmax - e.k0
       let n6 := (e.hi - e.lo) / 6
       let n4 := (e.hi - e.lo) % 6 / 4
       let rem := (e.hi - e.lo) % 6 % 4
       let b4 := e.dst + n6 * 6 * K
       let bs := b4 + n4 * 4 * K
       let place := fun k n =>
         if n - e.lo < 6 * n6 then
           e.dst + (n - e.lo) / 6 * 6 * K + 24 * ((k - e.k0) / 4) + 4 * ((n - e.lo) % 6) + (k - e.k0) % 4
         else if n - e.lo < 6 * n6 + 4 * n4 then
           b4 + 16 * ((k - e.k0) / 4) + 4 * (n - e.lo - 6 * n6) + (k - e.k0) % 4
         else bs + 16 * ((k - e.k0) / 4) + 4 * (n - e.lo - 6 * n6 - 4 * n4) + (k - e.k0) % 4
       (∀ k n, e.k0 ≤ k → k < e.kmax → e.lo ≤ n → n < e.hi →
          s8 (Memory.read t.mem (place k n)) = s8 (Memory.read s.mem (e.addrB k n))) ∧
       (0 < rem → ∀ a, bs ≤ a → a < bs + 4 * K →
          (∀ k n, e.k0 ≤ k → k < e.kmax → e.lo ≤ n → n < e.hi → place k n ≠ a) → Memory.read t.mem a = 0x00))

/-- R128 (a), (b), R149 (a), (b): a packer with an empty range completes and writes nothing. -/
def Obligations.EmptyPackerRangesDoNothing : Prop :=
  ∀ (s : State) (e : Engine), e.hi = e.lo ∨ e.kmax = e.k0 →
    (Ready s .packA e → ∃ t, exec .packA s = .next t ∧ t.mem = s.mem ∧ CallFrame s t) ∧
    (Ready s .packB e → ∃ t, exec .packB s = .next t ∧ t.mem = s.mem ∧ CallFrame s t)

/-! The kernels (42_kernel_common.md, 43_kernels_full_tile.md, 44_kernels_remainder.md). -/

/-- R171, R190, R191: the full-tile kernels inside the contract complete, every element of the tile holds the closed
form, every other byte is as before, and so is the rest of the machine. -/
def Obligations.FullTileKernelsCompleteWithTheTile : Prop :=
  ∀ (s : State) (e : Engine) (first : Bool),
    (Ready s (.kernel 8 6 6 first) e →
      ∃ t, exec (.kern8x6 first) s = .next t ∧ TileResult 8 6 6 first e s.mem t.mem ∧ CallFrame s t) ∧
    (Ready s (.kernel 4 6 6 first) e →
      ∃ t, exec (.kern4x6 first) s = .next t ∧ TileResult 4 6 6 first e s.mem t.mem ∧ CallFrame s t)

/-- R171, R200, R201: the same for the column-remainder kernels with `NREM` in 0..4 valid columns. -/
def Obligations.RemainderKernelsCompleteWithTheirColumns : Prop :=
  ∀ (s : State) (e : Engine) (first : Bool) (nrem : Nat), nrem ≤ 4 →
    (Ready s (.kernel 8 4 nrem first) e →
      ∃ t, exec (.kern8x4 first nrem) s = .next t ∧ TileResult 8 4 nrem first e s.mem t.mem ∧ CallFrame s t) ∧
    (Ready s (.kernel 4 4 nrem first) e →
      ∃ t, exec (.kern4x4 first nrem) s = .next t ∧ TileResult 4 4 nrem first e s.mem t.mem ∧ CallFrame s t)

/-- R205: the valid columns of every row hold their results; every byte of the row from column `NREM` on is as
before. -/
def Obligations.ColumnsFromNremOnUnmodified : Prop :=
  ∀ (s : State) (e : Engine) (first : Bool) (nrem : Nat), nrem ≤ 4 →
    (Ready s (.kernel 8 4 nrem first) e →
      ∃ t, exec (.kern8x4 first nrem) s = .next t ∧ ∀ i, i < 8 →
        (∀ j, j < nrem → Memory.readI32 t.mem (e.outp + 4 * (i * e.ldc + j)) =
          wrap32 (initialElement first e s.mem i j + panelSum 8 4 e s.mem i j)) ∧
        (∀ j, nrem ≤ j → j < e.ldc → ∀ u, u < 4 →
          Memory.get? t.mem (e.outp + 4 * (i * e.ldc + j) + u) = Memory.get? s.mem (e.outp + 4 * (i * e.ldc + j) + u))) ∧
    (Ready s (.kernel 4 4 nrem first) e →
      ∃ t, exec (.kern4x4 first nrem) s = .next t ∧ ∀ i, i < 4 →
        (∀ j, j < nrem → Memory.readI32 t.mem (e.outp + 4 * (i * e.ldc + j)) =
          wrap32 (initialElement first e s.mem i j + panelSum 4 4 e s.mem i j)) ∧
        (∀ j, nrem ≤ j → j < e.ldc → ∀ u, u < 4 →
          Memory.get? t.mem (e.outp + 4 * (i * e.ldc + j) + u) = Memory.get? s.mem (e.outp + 4 * (i * e.ldc + j) + u)))

/-- R204: with `NREM = 0` a remainder kernel completes and leaves memory as it is; the panels must still be
accessible. -/
def Obligations.NremZeroLeavesMemory : Prop :=
  ∀ (s : State) (e : Engine) (first : Bool),
    (Ready s (.kernel 8 4 0 first) e → ∃ t, exec (.kern8x4 first 0) s = .next t ∧ t.mem = s.mem) ∧
    (Ready s (.kernel 4 4 0 first) e → ∃ t, exec (.kern4x4 first 0) s = .next t ∧ t.mem = s.mem) ∧
    (s.engines[s.active]? = some e → e.phase = .idle → (∃ a, PanelReads 8 4 e a ∧ ¬ Accessible s.mem a) →
      ¬ ∃ t, exec (.kern8x4 first 0) s = .next t) ∧
    (s.engines[s.active]? = some e → e.phase = .idle → (∃ a, PanelReads 4 4 e a ∧ ¬ Accessible s.mem a) →
      ¬ ∃ t, exec (.kern4x4 first 0) s = .next t)

/-- R168: a kernel call leaves the memory that the plain loop over the reduction steps leaves. -/
def Obligations.UnrollingDoesNotChangeTheResult : Prop :=
  ∀ (mr nr nv draw : Nat) (first : Bool) (e : Engine) (m : Memory),
    ((Job.kernel mr nr nv first).run draw e m).2 =
      ((List.range (e.klen / 4)).foldl (fun f s => f.rstep mr nr s m) (e.initTile mr nr nv first draw m)).storeTile
        mr nv m

/-- R164, R25: what `INIT` gives the lanes of the tile, the lanes it does not touch, and the registers it leaves. -/
def Obligations.InitGivesTheLanes : Prop :=
  ∀ (e : Engine) (mr nr nv draw : Nat) (first : Bool) (m : Memory), mr ≤ 8 → nr ≤ 6 →
    (let f := e.initTile mr nr nv first draw m
     (∀ i j, i < mr → j < nr → first = true → f.accAt i j = 0) ∧
     (∀ i j, i < mr → j < nr → j < nv → first = false →
       f.accAt i j = Memory.readI32 m (e.outp + 4 * (i * e.ldc + j))) ∧
     (∀ i j, i < 8 → j < 6 → mr ≤ i ∨ nr ≤ j → f.accAt i j = e.accAt i j) ∧
     f.x = e.x ∧ f.cmd = e.cmd ∧ f.step = e.step ∧ f.trips = e.trips ∧ f.odd = e.odd ∧ f.va = e.va ∧ f.vb = e.vb ∧
     f.pack = e.pack)

/-- R166, R25, R26: what a reduction step loads into `VA` and `VB` and adds to the lanes of the tile, and what it does
not touch. -/
def Obligations.ReductionStepUpdatesEveryLane : Prop :=
  ∀ (e : Engine) (mr nr s : Nat) (m : Memory), mr ≤ 8 → nr ≤ 6 →
    (let f := e.rstep mr nr s m
     (∀ n, n < 4 * mr → f.vaAt n = Memory.read m (e.aptr + 4 * mr * s + n)) ∧
     (∀ n, 4 * mr ≤ n → n < 32 → f.vaAt n = e.vaAt n) ∧
     (∀ n, n < 4 * nr → f.vbAt n = Memory.read m (e.bptr + 4 * nr * s + n)) ∧
     (∀ n, 4 * nr ≤ n → n < 24 → f.vbAt n = e.vbAt n) ∧
     (∀ i j, i < mr → j < nr → f.accAt i j =
       dot4 (e.accAt i j) (fun kk => f.vaAt (4 * i + kk)) (fun kk => f.vbAt (4 * j + kk))) ∧
     (∀ i j, i < 8 → j < 6 → mr ≤ i ∨ nr ≤ j → f.accAt i j = e.accAt i j) ∧
     f.x = e.x ∧ f.cmd = e.cmd ∧ f.phase = e.phase ∧ f.step = e.step ∧ f.trips = e.trips ∧ f.odd = e.odd ∧
     f.pack = e.pack)

/-- R174: after `t` steps a lane lies within `16256*4t` below and `16384*4t` above its start, so inside the bound the
result is the exact sum. -/
def Obligations.NoOverflowInsideTheBound : Prop :=
  ∀ (e : Engine) (mr nr nv draw : Nat) (first : Bool) (m : Memory) (i j : Nat) (c0 : Int),
    mr ≤ 8 → nr ≤ 6 → i < mr → j < nv → nv ≤ nr → c0 = initialElement first e m i j →
    (-2 ^ 31 ≤ c0 - 16256 * e.klen → c0 + 16384 * e.klen ≤ 2 ^ 31 - 1 →
      ∀ (t : Nat) (lane : Int), t ≤ e.klen / 4 →
        lane = (((List.range t).foldl (fun f s => f.rstep mr nr s m)
          (e.initTile mr nr nv first draw m)).accAt i j).toInt →
        c0 - 16256 * (4 * t) ≤ lane ∧ lane ≤ c0 + 16384 * (4 * t) ∧
        (t = e.klen / 4 → lane = c0 + panelSum mr nr e m i j)) ∧
    (e.klen % 4 = 0 → (16384 * e.klen ≤ 2 ^ 31 - 1 ↔ e.klen ≤ 131068))

/-- R176: one call over `K1 + K2` and two calls over the two slices, the second warm, leave the same memory. -/
def Obligations.SplitKEqualsOneCall : Prop :=
  ∀ (mr nr nv d d₁ d₂ : Nat) (first : Bool) (e e₁ e₂ : Engine) (m : Memory) (K1 K2 : Nat),
    (mr = 8 ∨ mr = 4) → (nr = 6 ∨ nr = 4) → nv ≤ nr → KernelContract mr nr nv e m →
    K1 % 4 = 0 → K2 % 4 = 0 → 4 ≤ K1 → 4 ≤ K2 → e.klen = K1 + K2 →
    e₁.aptr = e.aptr → e₁.bptr = e.bptr → e₁.klen = K1 → e₁.outp = e.outp → e₁.ldc = e.ldc →
    e₂.aptr = e.aptr + mr * K1 → e₂.bptr = e.bptr + nr * K1 → e₂.klen = K2 → e₂.outp = e.outp → e₂.ldc = e.ldc →
    KernelContract mr nr nv e₁ m ∧
    KernelContract mr nr nv e₂ ((Job.kernel mr nr nv first).run d₁ e₁ m).2 ∧
    ∀ a, Memory.get? ((Job.kernel mr nr nv false).run d₂ e₂ ((Job.kernel mr nr nv first).run d₁ e₁ m).2).2 a =
      Memory.get? ((Job.kernel mr nr nv first).run d e m).2 a

/-- R145, R206: a column whose panel bytes are zero in every step adds nothing: its elements end as they start. -/
def Obligations.ZeroColumnAddsNothing : Prop :=
  ∀ (s t : State) (e : Engine) (i : Instr) (mr nr nv : Nat) (first : Bool) (j : Nat), i.wf = true →
    jobOf i = .kernel mr nr nv first → s.engines[s.active]? = some e → exec i s = .next t → j < nv →
    (∀ st kk, st < e.klen / 4 → kk < 4 → Memory.read s.mem (e.bptr + 4 * nr * st + 4 * j + kk) = 0) →
    ∀ r, r < mr → (Memory.readI32 t.mem (e.outp + 4 * (r * e.ldc + j))).toInt = initialElement first e s.mem r j

/-- R172: packing `A`, packing `B` and one kernel call on two of the panels, one after another on one engine, leave in
every valid element of the tile the naive product over the packed reduction range, on top of what the destination
held (nothing, on a cold start). -/
def Obligations.PackedProductEqualsTheReference : Prop :=
  ∀ (s t : State) (n : Nat) (xa xb xk : Vector Word 7) (cmd : CmdWord) (rest : List Event) (i : Instr)
    (mr nr nv : Nat) (first : Bool) (row col : Nat),
    (let ea := holding xa
     let eb := holding xb
     let ek := holding xk
     s.agenda = .call n 0x00000001 xa :: .call n 0x00000002 xb :: .call n cmd xk :: rest →
     decode cmd = .ok i → jobOf i = .kernel mr nr nv first →
     Host.Core.run Sys2Proof.core 3 s = .next t →
     ea.k0 = eb.k0 → ea.kmax = eb.kmax → ek.klen = ea.kmax - ea.k0 →
     IsPanelA ea mr ek.aptr row → IsPanelB eb nr nv ek.bptr col →
     (∀ a, PackAWrites ea a → ¬ PackBReads eb a ∧ ¬ PackBWrites eb a) →
     (∀ a, TileBytes mr nv ek a → ¬ PackAWrites ea a ∧ ¬ PackBWrites eb a) →
     ∀ r j, r < mr → j < nv →
       Memory.readI32 t.mem (ek.outp + 4 * (r * ek.ldc + j)) =
         wrap32 (initialElement first ek s.mem r j + referenceSum ea eb s.mem (row + r) (col + j)))

/-! What a call depends on and what it may touch (R31, R126, R147, R177, R203, R218). -/

/-- R31, R203: the memory a call leaves depends on its operands and on memory alone: neither on what the engine's
registers held before nor on the values of masked lanes (whatever the free values are). -/
def Obligations.OnlyOperandsAndMemoryMatter : Prop :=
  ∀ (i : Instr) (d d' : Nat) (e e' : Engine) (m : Memory), i.wf = true → e.x = e'.x →
    ((jobOf i).run d e m).2 = ((jobOf i).run d' e' m).2

/-- R126, R147, R164, R177: what a call writes depends only on the bytes the rules say it reads (a cold kernel call
does not read its destination). -/
def Obligations.NothingElseIsRead : Prop :=
  ∀ (i : Instr) (d d' : Nat) (e : Engine) (m m' : Memory), i.wf = true →
    Contract (jobOf i) e m → Contract (jobOf i) e m' →
    (∀ a, Reads (jobOf i) e a → Memory.get? m a = Memory.get? m' a) →
    ∀ a, Writes (jobOf i) e a →
      Memory.get? ((jobOf i).run d e m).2 a = Memory.get? ((jobOf i).run d' e m').2 a

/-- R54, R126, R147, R177, R218: a completed call leaves every byte outside its output region, the set `Valid`, the
other engines as they were, and its own engine in `IDLE`. `CallFrame` also keeps the model's own fields for the outside
world's plans (log 7). -/
def Obligations.CompletedCallFrame : Prop :=
  ∀ (i : Instr) (s t : State) (e : Engine), i.wf = true → s.engines[s.active]? = some e → exec i s = .next t →
    (∀ a, ¬ Writes (jobOf i) e a → Memory.get? t.mem a = Memory.get? s.mem a) ∧
    (∀ a, Memory.get? t.mem a = none ↔ Memory.get? s.mem a = none) ∧ CallFrame s t

/-! The sequencer (10_state.md R23, R24, R29). -/

/-- R23, R24, R27: what starting a call sets. `ODD`, `TRIPS` and `STEP` at the start (log 13), and `PACK_B`'s `OPTR` and
cursor at the start (log 22), are the model's readings; R122 gives `PACK_A`'s. -/
def Obligations.StartSetsTheSequencer : Prop :=
  ∀ (i : Instr) (s : State) (e : Engine), i.wf = true → Ready s (jobOf i) e →
    ∃ f, startJob (jobOf i) s = .next (s.setEngine s.active f) ∧ f.x = e.x ∧ f.cmd = e.cmd ∧
      (i = .packA ∨ i = .packB → f.phase = .copy ∧ f.pack.optr.toNat = e.dst ∧ f.pack.cursor = e.lo) ∧
      (i ≠ .packA → i ≠ .packB → f.phase = .init ∧ f.step.toNat = 0 ∧ f.trips.toNat = e.klen / 4 / 2 ∧
        f.odd.toNat = e.klen / 4 % 2)

/-- R23, R29, R21: one step of a running engine: the phases follow each other as R23 says, only `STORE` and `COPY` write
memory, and as long as the call runs its operands and its command word stay. That a step is a whole phase or one trip,
and that a phase with nothing to do is passed, are the model's readings (logs 12, 13). -/
def Obligations.PhasesFollowEachOther : Prop :=
  ∀ (s t : State) (n : Nat) (e : Engine), Inv s → s.engines[n]? = some e → e.phase ≠ .idle → advance n s = .next t →
    ∃ f, t.engines[n]? = some f ∧
      (f.phase ≠ .idle → f.x = e.x ∧ f.cmd = e.cmd ∧ f.odd = e.odd ∧ t.mem = s.mem) ∧
      (e.phase = .init → f.phase = (if e.trips ≠ 0 then .loop else if e.odd then .tail else .store) ∧
        f.step = e.step ∧ f.trips = e.trips) ∧
      (e.phase = .loop → f.phase = (if e.trips ≠ 1 then .loop else if e.odd then .tail else .store) ∧
        f.step.toNat = e.step.toNat + 2 ∧ f.trips.toNat + 1 = e.trips.toNat) ∧
      (e.phase = .tail → f.phase = .store ∧ f.step.toNat = e.step.toNat + 1 ∧ f.step.toNat = e.klen / 4) ∧
      (e.phase = .store ∨ e.phase = .copy → f.phase = .idle) ∧
      (∀ k, k ≠ n → t.engines[k]? = s.engines[k]?)

/-- R23, R126, R147, R167, R177: a call started and stepped by the sequencer ends after `1` step (packers) or
`2 + ⌊K/8⌋ + (K/4 mod 2)` steps (kernels), no earlier, with the memory of the whole call run as one step. What a step is, is the
model's reading (logs 12, 13). -/
def Obligations.SteppedCallEqualsWholeCall : Prop :=
  ∀ (i : Instr) (s : State) (e : Engine), i.wf = true → decode e.cmd = .ok i → Ready s (jobOf i) e →
    (let k := match jobOf i with
       | .packA => 1
       | .packB => 1
       | .kernel _ _ _ _ => 2 + e.klen / 4 / 2 + e.klen / 4 % 2
     ∃ t u v, exec i s = .next t ∧ startJob (jobOf i) s = .next u ∧ advances s.active k u = .next v ∧
       v.mem = t.mem ∧ (∃ f, v.engines[s.active]? = some f ∧ f.phase = .idle) ∧
       (∀ n, n ≠ s.active → v.engines[n]? = t.engines[n]?) ∧ v.agenda = t.agenda ∧
       ∀ k', k' < k → ∃ w f, advances s.active k' u = .next w ∧ w.engines[s.active]? = some f ∧ f.phase ≠ .idle)

/-! The machine as a whole (R80, R214, R240, R250, R251). -/

/-- The invariant (canonical memory; every running engine runs a valid command inside the contract, in sequence and
without a race) is kept by every step. -/
def Obligations.StepKeepsTheInvariant : Prop :=
  ∀ s t : State, Inv s → step s = .next t → Inv t

/-- R32, R240: right after reset every engine is `IDLE`, and the invariant holds, for every number of engines. The
register values of the model's reset (log 4) play no part. -/
def Obligations.ResetIsIdleAndInvariant : Prop :=
  (∀ n, 0 < n → Inv (State.resetWith n)) ∧ Inv State.reset ∧
  (∀ n, ∀ e ∈ (State.resetWith n).engines, e.phase = .idle) ∧ step State.reset = .next State.reset

/-- R54, R178: no call allocates or frees memory, so a step that is no action of the driver keeps `Valid`. For the
driver's actions both halves are the model's choice (log 10): R8 and R54 leave `Valid` to the driver; here it never
takes an address out, and its store to a new address puts it in. -/
def Obligations.ValidNeverShrinks : Prop :=
  ∀ s t : State, Inv s → step s = .next t →
    (∀ a, Memory.get? s.mem a ≠ none → Memory.get? t.mem a ≠ none) ∧
    ((∀ a b rest, s.agenda ≠ .driverWrite a b :: rest) →
      ∀ a, Memory.get? t.mem a = none ↔ Memory.get? s.mem a = none)

/-- R80: two calls that may run at a time leave the same memory in either order. -/
def Obligations.IndependentCallsCommute : Prop :=
  ∀ (i k : Instr) (d₁ d₂ d₃ d₄ : Nat) (e f : Engine) (m : Memory), i.wf = true → k.wf = true → Memory.wf m →
    Contract (jobOf i) e m → Contract (jobOf k) f m → Independent (jobOf i) e (jobOf k) f →
    ((jobOf k).run d₂ f ((jobOf i).run d₁ e m).2).2 = ((jobOf i).run d₃ e ((jobOf k).run d₄ f m).2).2

/-- R80 (c): a driver thread's store to a byte a running call reads or writes, and its load of a byte a running call
writes, are refused (V11); any other store writes its byte and nothing else, any other load of an accessible byte
changes nothing. That a call's whole footprint counts as long as it runs (log 16) is the model's reading. That the load of a byte outside `Valid` faults, and that a store puts its byte into `Valid`, are the
model's choices (log 10). -/
def Obligations.DriverAccessesRace : Prop :=
  ∀ (s : State) (a : Word) (b : Byte) (rest : List Event), Inv s →
    (s.agenda = .driverWrite a b :: rest →
      ((∃ (n : Nat) (e : Engine) (i : Instr), s.engines[n]? = some e ∧ e.phase ≠ .idle ∧ decode e.cmd = .ok i ∧
          (Reads (jobOf i) e a.toNat ∨ Writes (jobOf i) e a.toNat)) → step s = .refused .v11Race) ∧
      ((∀ (n : Nat) (e : Engine) (i : Instr), s.engines[n]? = some e → e.phase ≠ .idle → decode e.cmd = .ok i →
          ¬ Reads (jobOf i) e a.toNat ∧ ¬ Writes (jobOf i) e a.toNat) →
        ∃ m, step s = .next { s with agenda := rest, mem := m } ∧ Memory.get? m a.toNat = some b ∧
          ∀ x, x ≠ a.toNat → Memory.get? m x = Memory.get? s.mem x)) ∧
    (s.agenda = .driverRead a :: rest →
      ((∃ (n : Nat) (e : Engine) (i : Instr), s.engines[n]? = some e ∧ e.phase ≠ .idle ∧ decode e.cmd = .ok i ∧ Writes (jobOf i) e a.toNat) →
        step s = .refused .v11Race) ∧
      ((∀ (n : Nat) (e : Engine) (i : Instr), s.engines[n]? = some e → e.phase ≠ .idle → decode e.cmd = .ok i → ¬ Writes (jobOf i) e a.toNat) →
        (Accessible s.mem a.toNat → step s = .next { s with agenda := rest }) ∧
        (¬ Accessible s.mem a.toNat → step s = .fault .driverUnmapped)))

/-- R29, R214, R240: a reset puts every engine in `IDLE`; a byte keeps its contents, or belongs to the output region of
an abandoned call that had begun to write and holds what that call would have left there (a mixture byte by byte, log 9). -/
def Obligations.ResetAbandonsCalls : Prop :=
  ∀ (s : State) (rest : List Event), Inv s → s.agenda = .reset :: rest →
    ∃ t, step s = .next t ∧ t.agenda = rest ∧ t.engines.length = s.engines.length ∧
      (∀ e ∈ t.engines, e.phase = .idle) ∧
      ∀ a, Memory.get? t.mem a = Memory.get? s.mem a ∨
        ∃ (n : Nat) (e : Engine) (i : Instr), s.engines[n]? = some e ∧ (e.phase = .store ∨ e.phase = .copy) ∧ decode e.cmd = .ok i ∧
          Writes (jobOf i) e a ∧
          Memory.get? t.mem a = Memory.get? ((jobOf i).tick s.draws (e, s.mem)).2 a

/-- R179, R250, R251: when the outside world does nothing more, every running call ends: after finitely many steps every
engine is `IDLE`, and from then on nothing changes. Which running engine moves, and that an idle machine stays as it is, are the model's
choices (log 19). -/
def Obligations.EveryRunEnds : Prop :=
  ∀ s : State, Inv s → s.agenda = [] →
    ∃ k t, Host.Core.run Sys2Proof.core k s = .next t ∧ (∀ e ∈ t.engines, e.phase = .idle) ∧ t.agenda = [] ∧
      step t = .next t

/-! Address computations (R97). -/

/-- R97, R122: a call one of whose computed addresses reaches `2^64` does not complete, although none of the bytes it
touches is there; inside the contract `OPTR` of `PACK_A` never wraps, and the copy ends with it at `DST + Mp*K` and with
`y = HI`. Which addresses count as computed is read from the pseudocode of R122 and R143 (log 11). -/
def Obligations.NoComputedAddressReachesTheTop : Prop :=
  (∀ (i : Instr) (s : State) (e : Engine) (a : Nat), s.engines[s.active]? = some e → Computes (jobOf i) e a →
    2 ^ 64 ≤ a → ¬ ∃ t, exec i s = .next t) ∧
  (∀ (s : State) (e : Engine), Ready s .packA e →
    ((Job.packA.begin e).copyA s.mem).1.optr.toNat = e.dst + (e.hi - e.lo) * (e.kmax - e.k0) ∧
    ((Job.packA.begin e).copyA s.mem).1.cursor = e.hi)
end

