-- ==== Sys2Proof/Laws/Checks.lean ====
section
/-! SUPPORT. The machine's checks find a violation exactly where Safety.lean says there is one (20_memory.md R80,
60_exceptions.md R211). -/

namespace Sys2Proof.Machine

open Sys2Proof.Safety

/-- None of V2 to V10 holds exactly when the preconditions of Safety.lean do (R211). -/
theorem Job.violation_eq_none {i : Instr} {e : Engine} {m : Memory} :
    (jobOf i).violation e m = none ↔ Contract (jobOf i) e m := by
  rw [Job.violation, firstViolation_eq_none]
  simp only [List.cons_append, List.forall_mem_cons, List.forall_mem_append, List.not_mem_nil, false_imp_iff,
    implies_true, and_true]
  rw [badScalar_eq_false, badAccess_eq_false, Job.badOverlap, overlap_eq_false]
  cases i <;> simp only [jobOf, Job.operandChecks, List.not_mem_nil, false_imp_iff, implies_true, and_true, Contract,
    Job.scalars, Job.inputs, Job.outputs, mem_packASource, mem_packAPacked, mem_packBSource, mem_packBPacked,
    mem_panels, mem_tile, Engine.badRows, Engine.badReduction, Engine.badColumns, Engine.badK, Engine.badStride,
    Engine.badAlignment, Bool.or_eq_false_iff, decide_eq_false_iff_not, ne_eq, not_not, not_lt, List.mem_cons,
    forall_eq_or_imp]
  · constructor
    · rintro ⟨h7, ⟨⟨⟨a, b⟩, c⟩, ⟨⟨p, q⟩, r⟩⟩, ⟨h8, hc⟩, h10⟩
      exact ⟨⟨a, b, c⟩, ⟨p, q, r⟩, by simpa using h7, h8, hc, h10⟩
    · rintro ⟨⟨a, b, c⟩, ⟨p, q, r⟩, h7, h8, hc, h10⟩
      exact ⟨by simpa using h7, ⟨⟨⟨a, b⟩, c⟩, ⟨⟨p, q⟩, r⟩⟩, ⟨h8, hc⟩, h10⟩
  · constructor
    · rintro ⟨h7, ⟨⟨⟨a, b⟩, c⟩, p⟩, ⟨h8, hc⟩, h10⟩
      exact ⟨⟨a, b, c⟩, p, by simpa using h7, h8, hc, h10⟩
    · rintro ⟨⟨a, b, c⟩, p, h7, h8, hc, h10⟩
      exact ⟨by simpa using h7, ⟨⟨⟨a, b⟩, c⟩, p⟩, ⟨h8, hc⟩, h10⟩
  all_goals
    constructor
    · rintro ⟨h7, ⟨⟨a, b⟩, c, p⟩, ⟨h8, -⟩, h10⟩
      exact ⟨⟨a, by simpa [Config.kMin] using b⟩, c, by simpa using h7, h8, by simpa [Config.outAlign] using p,
        h10⟩
    · rintro ⟨⟨a, b⟩, c, h7, h8, p, h10⟩
      exact ⟨by simpa using h7, ⟨⟨a, by simpa [Config.kMin] using b⟩, c, by simpa [Config.outAlign] using p⟩,
        ⟨h8, fun _ h => h.elim⟩, h10⟩

/-- The bytes a command touches, as a list and as propositions (R126, R147, R177). -/
theorem mem_inputs_or_outputs (i : Instr) (e : Engine) (a : Nat) :
    (a ∈ (jobOf i).inputs e ∨ a ∈ (jobOf i).outputs e) ↔ Reads (jobOf i) e a ∨ Writes (jobOf i) e a := by
  cases i <;> simp only [jobOf, Job.inputs, Job.outputs, Reads, Writes, mem_packASource, mem_packAPacked,
    mem_packBSource, mem_packBPacked, mem_panels, mem_tile] <;> tauto

theorem mem_outputs (i : Instr) (e : Engine) (a : Nat) : a ∈ (jobOf i).outputs e ↔ Writes (jobOf i) e a := by
  cases i <;> simp only [jobOf, Job.outputs, Writes, mem_packAPacked, mem_packBPacked, mem_tile]

/-- Two calls that do not conflict are independent (R80 (b)). -/
theorem conflict_eq_false (i k : Instr) (e f : Engine) :
    conflict (jobOf i) e (jobOf k) f = false ↔ Independent (jobOf i) e (jobOf k) f := by
  rw [conflict, Bool.or_eq_false_iff, overlap_eq_false, overlap_eq_false]
  simp only [List.mem_append]
  constructor
  · rintro ⟨h1, h2⟩ a
    refine ⟨fun hw => ?_, fun hw hr => ?_⟩
    · have := h1 a ((mem_outputs i e a).2 hw)
      rw [mem_inputs_or_outputs] at this; tauto
    · have h2 := h2 a ((mem_outputs k f a).2 hw)
      have := (mem_inputs_or_outputs i e a).2 (.inl hr)
      rcases this with h | h
      · exact h2 h
      · exact h1 a h (.inr ((mem_outputs k f a).2 hw))
  · intro h
    refine ⟨fun a ha => ?_, fun a ha hb => ?_⟩
    · rw [mem_inputs_or_outputs]; have := (h a).1 ((mem_outputs i e a).1 ha); tauto
    · have h3 := h a
      have hw := (mem_outputs k f a).1 ha
      have := (mem_inputs_or_outputs i e a).1 (.inl hb)
      rcases this with hr | hr
      · exact h3.2 hw hr
      · exact (h3.1 hr).2 hw

/-- No race is found exactly when there is none (R80, V11). -/
theorem State.races_eq_false (i : Instr) (s : State) (n : Nat) (e : Engine) :
    s.races n (jobOf i) e = false ↔ NoRace s n (jobOf i) e := by
  rw [State.races, List.any_eq_false]
  constructor
  · intro h k f i' hk hn hp hd
    have := h (f, k) (by rw [List.mem_zipIdx_iff_getElem?]; exact hk)
    simp only [Engine.job?_busy hp hd, Bool.and_eq_true, not_and, Bool.not_eq_true, hn, ne_eq,
      not_false_eq_true, forall_const, decide_true] at this
    exact (conflict_eq_false _ _ _ _).1 (by simpa [hn] using this)
  · rintro h ⟨f, k⟩ hk
    rw [List.mem_zipIdx_iff_getElem?] at hk
    by_cases hn : k = n
    · simp [hn]
    · rcases hj : f.job? with _ | j
      · simp
      · obtain ⟨hp, i', hd, rfl⟩ := Engine.job?_some hj
        have := h k f i' hk hn hp hd
        simp [hn, (conflict_eq_false _ _ _ _).2 this]

/-- A call meets no violation exactly when it is inside the contract and races with no other (R211). -/
theorem State.violation_eq_none (i : Instr) (s : State) (n : Nat) (e : Engine) :
    s.violation n (jobOf i) e = none ↔ Contract (jobOf i) e s.mem ∧ NoRace s n (jobOf i) e := by
  rw [State.violation, ← Job.violation_eq_none, ← State.races_eq_false]
  rcases h : (jobOf i).violation e s.mem with _ | r
  · simp
  · simp

end Sys2Proof.Machine
end

