-- ==== Sys2Proof/Laws/Pack.lean ====
section
/-! SUPPORT. The copy loops of the packers as sequences of block copies (40_pack_a.md R122, 41_pack_b.md R143). -/

namespace Sys2Proof.Machine

/-! `PACK_A`. -/

/-- `OPTR` moves by sums. -/
theorem optr_add (o : Word) (a b : Nat) :
    o + BitVec.ofNat 64 a + BitVec.ofNat 64 b = o + BitVec.ofNat 64 (a + b) := by
  rw [BitVec.add_assoc, BitVec.ofNat_add]

/-- Cells copied one after another from the addresses `from` gives to `OPTR` on. -/
def copyCells (src : Nat → Nat) (optr : Word) (n : Nat) (m : Memory) : Memory :=
  writeSeq (fun k => (optr + BitVec.ofNat 64 (16 * k)).toNat) (fun m k => Memory.readBytes m (src k) 16)
    (List.range n) m

/-- Two runs of cells, one after the other, are one. -/
theorem copyCells_add {src src₁ src₂ : Nat → Nat} (optr : Word) (a b : Nat) (m : Memory)
    (h₁ : ∀ k, k < a → src₁ k = src k) (h₂ : ∀ k, k < b → src₂ k = src (a + k)) :
    copyCells src₂ (optr + BitVec.ofNat 64 (16 * a)) b (copyCells src₁ optr a m) = copyCells src optr (a + b) m := by
  rw [copyCells, copyCells, copyCells, List.range_add, writeSeq_append, writeSeq_map]
  rw [writeSeq_congr (l := List.range a) (addr' := fun k => (optr + BitVec.ofNat 64 (16 * k)).toNat)
    (data' := fun m k => Memory.readBytes m (src k) 16) (fun _ _ => rfl)
    (fun m k hk => by rw [h₁ k (List.mem_range.1 hk)])]
  refine writeSeq_congr (fun k _ => ?_) (fun m k hk => by rw [h₂ k (List.mem_range.1 hk)]) _
  rw [optr_add, Function.comp, Nat.mul_add]

/-- The cells of one step of a panel, from the copy state before it: the first `k` row groups (R122). -/
theorem Engine.copyStepCells (e : Engine) (s k : Nat) (c : Copy) :
    let d := (List.range k).foldl (e.copyGroupCell s) c
    d.1.optr = c.1.optr + BitVec.ofNat 64 (16 * k) ∧ d.1.cursor = c.1.cursor ∧ d.1.group = c.1.group ∧
    d.2 = copyCells (fun h => e.src + (c.1.group + h) * e.lds + (e.packFirst + s) * 16) c.1.optr k c.2 := by
  induction k with
  | zero => simp [copyCells]
  | succ k ih =>
    obtain ⟨h1, h2, h3, h4⟩ := ih
    simp only [List.range_succ, List.foldl_append, List.foldl_cons, List.foldl_nil]
    refine ⟨?_, h2, h3, ?_⟩
    · simp only [Engine.copyGroupCell, copyCell, h1]
      exact optr_add _ _ 16
    · rw [copyCells, List.range_succ, writeSeq_append, ← copyCells, ← h4, writeSeq_cons, writeSeq_nil]
      simp only [Engine.copyGroupCell, copyCell, h1, h3]

/-- The `n`-th cell of a panel of `groups` row groups: step `n / groups`, row group `n % groups`. `PACK_A` reads it at
this address when the panel's first row group is `g`. -/
def Engine.cellSource (e : Engine) (groups g n : Nat) : Nat :=
  e.src + (g + n % groups) * e.lds + (e.packFirst + n / groups) * 16

/-- What a panel copy leaves in the registers, `OPTR` past the panel and the cursor past its rows, and in memory, its
cells copied one after another (R122). -/
theorem Engine.copyRowPanel_spec (e : Engine) {groups : Nat} (hg : 0 < groups) (c : Copy) :
    (e.copyRowPanel groups c).1.optr = c.1.optr + BitVec.ofNat 64 (16 * (groups * e.packSteps)) ∧
    (e.copyRowPanel groups c).1.cursor = c.1.cursor + 4 * groups ∧
    (e.copyRowPanel groups c).2 =
      copyCells (e.cellSource groups (c.1.cursor / 4)) c.1.optr (groups * e.packSteps) c.2 := by
  have steps : ∀ (k : Nat) (c : Copy),
      let d := (List.range k).foldl (fun c s => (List.range groups).foldl (e.copyGroupCell s) c) c
      d.1.optr = c.1.optr + BitVec.ofNat 64 (16 * (groups * k)) ∧ d.1.cursor = c.1.cursor ∧
      d.1.group = c.1.group ∧ d.2 = copyCells (e.cellSource groups c.1.group) c.1.optr (groups * k) c.2 := by
    intro k c
    induction k with
    | zero => simp [copyCells]
    | succ k ih =>
      obtain ⟨h1, h2, h3, h4⟩ := ih
      simp only [List.range_succ, List.foldl_append, List.foldl_cons, List.foldl_nil]
      obtain ⟨i1, i2, i3, i4⟩ := e.copyStepCells k groups
        ((List.range k).foldl (fun c s => (List.range groups).foldl (e.copyGroupCell s) c) c)
      refine ⟨?_, i2.trans h2, i3.trans h3, ?_⟩
      · rw [i1, h1, optr_add, Nat.mul_succ, Nat.mul_add]
      · rw [i4, h1, h4, h3, show groups * (k + 1) = groups * k + groups from Nat.mul_succ _ _]
        refine copyCells_add _ _ _ _ (fun _ _ => rfl) fun h hh => ?_
        rw [Engine.cellSource, Nat.mul_add_mod, Nat.mod_eq_of_lt hh, Nat.mul_add_div hg, Nat.div_eq_of_lt hh,
          Nat.add_zero]
  obtain ⟨h1, h2, -, h4⟩ := steps e.packSteps ({ c.1 with group := c.1.cursor / 4 }, c.2)
  exact ⟨h1, by simp only [Engine.copyRowPanel, h2], h4⟩

/-- Cell `n` of a sequence of panels of `groups` row groups that starts at row `y`. -/
def Engine.panelsSource (e : Engine) (groups y n : Nat) : Nat :=
  e.cellSource groups ((y + 4 * groups * (n / (groups * e.packSteps))) / 4) (n % (groups * e.packSteps))

/-- A sequence of panel copies is one sequence of cell copies (R122). -/
theorem Engine.copyRowPanel_iterate (e : Engine) {groups : Nat} (hg : 0 < groups) (k : Nat) (c : Copy) :
    ((e.copyRowPanel groups)^[k] c).1.optr = c.1.optr + BitVec.ofNat 64 (16 * (groups * e.packSteps * k)) ∧
    ((e.copyRowPanel groups)^[k] c).1.cursor = c.1.cursor + 4 * groups * k ∧
    ((e.copyRowPanel groups)^[k] c).2 =
      copyCells (e.panelsSource groups c.1.cursor) c.1.optr (groups * e.packSteps * k) c.2 := by
  induction k with
  | zero => simp [copyCells]
  | succ k ih =>
    obtain ⟨h1, h2, h3⟩ := ih
    rw [Function.iterate_succ_apply']
    obtain ⟨p1, p2, p3⟩ := e.copyRowPanel_spec hg ((e.copyRowPanel groups)^[k] c)
    refine ⟨?_, ?_, ?_⟩
    · rw [p1, h1, optr_add, Nat.mul_succ, Nat.mul_add]
    · rw [p2, h2]; ring
    · rw [p3, h1, h2, h3, show groups * e.packSteps * (k + 1) = groups * e.packSteps * k + groups * e.packSteps from
        Nat.mul_succ _ _]
      refine copyCells_add _ _ _ _ (fun _ _ => rfl) fun n hn => ?_
      rw [Engine.panelsSource, Nat.mul_add_mod, Nat.mod_eq_of_lt hn, Nat.mul_add_div (by omega), Nat.div_eq_of_lt hn,
        Nat.add_zero]

/-- The whole copy of `PACK_A` (R122): the cells of the 8-row panels, then the cells of the 4-row panel. -/
theorem Engine.copyA_mem (e : Engine) (m : Memory) :
    (e.copyA m).2 =
      copyCells (e.panelsSource 1 (e.pack.cursor + 8 * ((e.hi - e.pack.cursor) / 8)))
        (e.pack.optr + BitVec.ofNat 64 (16 * (2 * e.packSteps * ((e.hi - e.pack.cursor) / 8))))
        (1 * e.packSteps * ((e.hi - (e.pack.cursor + 8 * ((e.hi - e.pack.cursor) / 8))) / 4))
        (copyCells (e.panelsSource 2 e.pack.cursor) e.pack.optr
          (2 * e.packSteps * ((e.hi - e.pack.cursor) / 8)) m) := by
  obtain ⟨a1, a2, a3⟩ := e.copyRowPanel_iterate (groups := 2) (by omega) ((e.hi - e.pack.cursor) / 8) (e.pack, m)
  obtain ⟨-, -, b3⟩ := e.copyRowPanel_iterate (groups := 1) (by omega)
    ((e.hi - ((e.copyRowPanel 2)^[(e.hi - e.pack.cursor) / 8] (e.pack, m)).1.cursor) / 4)
    ((e.copyRowPanel 2)^[(e.hi - e.pack.cursor) / 8] (e.pack, m))
  have hA : e.copyA m = (e.copyRowPanel 1)^[(e.hi - ((e.copyRowPanel 2)^[(e.hi - e.pack.cursor) / 8]
    (e.pack, m)).1.cursor) / 4] ((e.copyRowPanel 2)^[(e.hi - e.pack.cursor) / 8] (e.pack, m)) := rfl
  rw [hA, b3, a1, a2, a3]

/-! `PACK_B`. -/

/-- The bytes of one run of `cols` columns from the source step row `row` at column `x`, padded to `width` (R143). -/
def runBytes (m : Memory) (row x cols width : Nat) : List Byte :=
  Memory.readBytes m (row + 4 * x) (4 * cols) ++ List.replicate (4 * (width - cols)) 0

/-- One run as `PACK_B` writes it: where it goes, where it comes from, its columns and its width. -/
structure Run where
  target : Nat
  row : Nat
  col : Nat
  cols : Nat
  width : Nat

/-- The runs of step `s` in the order `PACK_B` visits them (R143): 6-column panels, 4-column panels, short panel. -/
def Engine.stepRuns (e : Engine) (s : Nat) : List Run :=
  let row := e.src + (e.packFirst + s) * e.lds
  ((List.range e.n6).map fun q => ⟨e.dst + q * 6 * e.packK + 24 * s, row, e.lo + 6 * q, 6, 6⟩)
    ++ ((List.range e.n4).map fun q => ⟨e.b4 + q * 4 * e.packK + 16 * s, row, e.lo + 6 * e.n6 + 4 * q, 4, 4⟩)
    ++ (if 0 < e.rem then [⟨e.bs + 16 * s, row, e.lo + 6 * e.n6 + 4 * e.n4, e.rem, 4⟩] else [])

/-- The runs of the whole call. -/
def Engine.allRuns (e : Engine) : List Run := (List.range e.packSteps).flatMap e.stepRuns

/-- Memory after a list of runs. -/
def copyRuns (l : List Run) (m : Memory) : Memory :=
  writeSeq Run.target (fun m r => runBytes m r.row r.col r.cols r.width) l m

theorem copyRuns_append (l l' : List Run) (m : Memory) : copyRuns (l ++ l') m = copyRuns l' (copyRuns l m) :=
  writeSeq_append l l' m

/-- One K-step of `PACK_B` writes that step's runs (R143). -/
theorem Engine.copyStepRow_mem (e : Engine) (c : Copy) (s : Nat) :
    (e.copyStepRow c s).2 = copyRuns (e.stepRuns s) c.2 := by
  have six : ∀ (k : Nat) (c : Copy),
      ((List.range k).foldl (e.copyRun6 s) c).1.cursor = c.1.cursor + 6 * k ∧
      ((List.range k).foldl (e.copyRun6 s) c).1.row = c.1.row ∧
      ((List.range k).foldl (e.copyRun6 s) c).2 = copyRuns
        ((List.range k).map fun q => ⟨e.dst + q * 6 * e.packK + 24 * s, c.1.row, c.1.cursor + 6 * q, 6, 6⟩) c.2 := by
    intro k c
    induction k with
    | zero => simp [copyRuns, writeSeq]
    | succ k ih =>
      obtain ⟨h1, h2, h3⟩ := ih
      rw [List.range_succ, List.foldl_append, List.foldl_cons, List.foldl_nil, List.map_append, copyRuns_append, ← h3]
      refine ⟨?_, ?_, ?_⟩
      · simp only [Engine.copyRun6, copyRun, h1]; ring
      · simpa [Engine.copyRun6, copyRun] using h2
      · simp [copyRuns, Engine.copyRun6, copyRun, h1, h2, runBytes]
  have four : ∀ (k : Nat) (c : Copy),
      ((List.range k).foldl (e.copyRun4 s) c).1.cursor = c.1.cursor + 4 * k ∧
      ((List.range k).foldl (e.copyRun4 s) c).1.row = c.1.row ∧
      ((List.range k).foldl (e.copyRun4 s) c).2 = copyRuns
        ((List.range k).map fun q => ⟨e.b4 + q * 4 * e.packK + 16 * s, c.1.row, c.1.cursor + 4 * q, 4, 4⟩) c.2 := by
    intro k c
    induction k with
    | zero => simp [copyRuns, writeSeq]
    | succ k ih =>
      obtain ⟨h1, h2, h3⟩ := ih
      rw [List.range_succ, List.foldl_append, List.foldl_cons, List.foldl_nil, List.map_append, copyRuns_append, ← h3]
      refine ⟨?_, ?_, ?_⟩
      · simp only [Engine.copyRun4, copyRun, h1]; ring
      · simpa [Engine.copyRun4, copyRun] using h2
      · simp [copyRuns, Engine.copyRun4, copyRun, h1, h2, runBytes]
  set start : Copy := ({ c.1 with kstep := s, row := e.src + (e.packFirst + s) * e.lds, cursor := e.lo }, c.2)
    with hstart
  obtain ⟨a1, a2, a3⟩ := six e.n6 start
  obtain ⟨b1, b2, b3⟩ := four e.n4 ((List.range e.n6).foldl (e.copyRun6 s) start)
  have hrow : start.1.row = e.src + (e.packFirst + s) * e.lds := rfl
  have hcur : start.1.cursor = e.lo := rfl
  rw [Engine.stepRuns, copyRuns_append, copyRuns_append]
  show (e.copyShort s ((List.range e.n4).foldl (e.copyRun4 s) ((List.range e.n6).foldl (e.copyRun6 s) start))).2 = _
  rw [a1, a2, hrow, hcur] at b3
  rw [hrow, hcur] at a3
  rw [show c.2 = start.2 from rfl, ← a3, ← b3]
  by_cases hr : 0 < e.rem
  · simp only [Engine.copyShort, if_pos hr, copyRun, copyRuns, writeSeq, List.foldl_cons, List.foldl_nil, runBytes]
    rw [b1, b2, a1, a2, hrow, hcur]
  · simp only [Engine.copyShort, if_neg hr, copyRuns, writeSeq, List.foldl_nil]

/-- The whole copy of `PACK_B` writes all its runs (R143). -/
theorem Engine.copyB_mem (e : Engine) (m : Memory) : (e.copyB m).2 = copyRuns e.allRuns m := by
  have : ∀ (l : List Nat) (c : Copy), (l.foldl e.copyStepRow c).2 = copyRuns (l.flatMap e.stepRuns) c.2 := by
    intro l
    induction l with
    | nil => intro c; rfl
    | cons s rest ih =>
      intro c
      rw [List.foldl_cons, ih, Engine.copyStepRow_mem, List.flatMap_cons]
      simp [copyRuns, writeSeq]
  exact this _ _

end Sys2Proof.Machine
end

