-- ==== Sys2Proof/Laws/Keep.lean ====
section
/-! SUPPORT. What every write and every step of the sequencer keeps of memory (20_memory.md R50, R54): an address that
is listed stays listed, and addresses rise strictly. -/

namespace Sys2Proof.Machine

/-! Listed addresses stay listed. -/

/-- A block write keeps every listed address listed. -/
theorem Memory.listed_writeBytes (bs : List Byte) (m : Memory) (a x : Nat) (h : Memory.get? m x ≠ none) :
    Memory.get? (Memory.writeBytes m a bs) x ≠ none := by
  rw [Memory.get?_writeBytes]; split
  · rw [List.getElem?_eq_getElem (by omega)]; simp
  · exact h

theorem listed_writeSeq {ι} {addr : ι → Nat} {data} (l : List ι) (m : Memory) (x : Nat)
    (h : Memory.get? m x ≠ none) : Memory.get? (writeSeq addr data l m) x ≠ none := by
  induction l generalizing m with
  | nil => exact h
  | cons k l ih => rw [writeSeq_cons]; exact ih _ (Memory.listed_writeBytes _ _ _ _ h)

/-- So does `STORE`. -/
theorem Engine.listed_storeTile (e : Engine) (mr nv : Nat) (m : Memory) (x : Nat) (h : Memory.get? m x ≠ none) :
    Memory.get? (e.storeTile mr nv m) x ≠ none := by
  have row : ∀ (l : List Nat) (m : Memory) i, Memory.get? m x ≠ none →
      Memory.get? (l.foldl (fun m j => Memory.writeI32 m (e.addrC i j) (e.accAt i j)) m) x ≠ none := by
    intro l; induction l with
    | nil => intro m i h; exact h
    | cons j l ih => intro m i h; exact ih _ _ (Memory.listed_writeBytes _ _ _ _ h)
  have all : ∀ (l : List Nat) (m : Memory), Memory.get? m x ≠ none →
      Memory.get? (l.foldl (e.storeRow nv) m) x ≠ none := by
    intro l; induction l with
    | nil => intro m h; exact h
    | cons j l ih => intro m h; exact ih _ (row _ _ _ h)
  exact all _ _ h

/-- So does every step of the sequencer, whatever it runs. -/
theorem Job.listed_tick (j : Job) (d : Nat) (e : Engine) (m : Memory) (x : Nat) (h : Memory.get? m x ≠ none) :
    Memory.get? (j.tick d (e, m)).2 x ≠ none := by
  unfold Job.tick
  split <;> try exact h
  · show Memory.get? (e.copyA m).2 x ≠ none
    rw [Engine.copyA_mem]; exact listed_writeSeq _ _ _ (listed_writeSeq _ _ _ h)
  · show Memory.get? (e.copyB m).2 x ≠ none
    rw [Engine.copyB_mem]; exact listed_writeSeq _ _ _ h
  · exact Engine.listed_storeTile _ _ _ _ _ h

/-! Addresses rise strictly, wherever a write goes. -/

/-- Addresses rise strictly. -/
abbrev Memory.Rising (m : Memory) : Prop := m.Pairwise (fun c d => c.1 < d.1)

theorem Memory.rising_set {m : Memory} (a : Nat) (b : Byte) (h : Memory.Rising m) :
    Memory.Rising (Memory.set m a b) := by
  unfold Memory.Rising at *
  fun_induction Memory.set m a b with
  | case1 a b => simp
  | case2 k d rest a b h₁ =>
    rw [List.pairwise_cons] at h ⊢
    refine ⟨?_, by rw [List.pairwise_cons]; exact h⟩
    intro c hc
    rcases List.mem_cons.1 hc with rfl | hc
    · exact h₁
    · exact lt_trans h₁ (h.1 c hc)
  | case3 d rest a b h₁ => rw [List.pairwise_cons] at h ⊢; exact h
  | case4 k d rest a b h₁ h₂ ih =>
    rw [List.pairwise_cons] at h ⊢
    refine ⟨?_, ih h.2⟩
    intro c hc
    rcases Memory.mem_set hc with rfl | hc
    · show k < a
      omega
    · exact h.1 c hc

theorem Memory.rising_writeBytes (bs : List Byte) :
    ∀ (m : Memory) (a : Nat), Memory.Rising m → Memory.Rising (Memory.writeBytes m a bs) := by
  induction bs with
  | nil => intro m a h; exact h
  | cons b bs ih => intro m a h; exact ih _ _ (Memory.rising_set _ _ h)

theorem rising_writeSeq {ι} {addr : ι → Nat} {data} (l : List ι) (m : Memory) (h : Memory.Rising m) :
    Memory.Rising (writeSeq addr data l m) := by
  induction l generalizing m with
  | nil => exact h
  | cons k l ih => rw [writeSeq_cons]; exact ih _ (Memory.rising_writeBytes _ _ _ h)

theorem Engine.rising_storeTile (e : Engine) (mr nv : Nat) (m : Memory) (h : Memory.Rising m) :
    Memory.Rising (e.storeTile mr nv m) := by
  have row : ∀ (l : List Nat) (m : Memory) i, Memory.Rising m →
      Memory.Rising (l.foldl (fun m j => Memory.writeI32 m (e.addrC i j) (e.accAt i j)) m) := by
    intro l; induction l with
    | nil => intro m i h; exact h
    | cons j l ih => intro m i h; exact ih _ _ (Memory.rising_writeBytes _ _ _ h)
  have all : ∀ (l : List Nat) (m : Memory), Memory.Rising m → Memory.Rising (l.foldl (e.storeRow nv) m) := by
    intro l; induction l with
    | nil => intro m h; exact h
    | cons j l ih => intro m h; exact ih _ (row _ _ _ h)
  exact all _ _ h

/-- Every step of the sequencer keeps addresses rising. -/
theorem Job.rising_tick (j : Job) (d : Nat) (e : Engine) (m : Memory) (h : Memory.Rising m) :
    Memory.Rising (j.tick d (e, m)).2 := by
  unfold Job.tick
  split <;> try exact h
  · show Memory.Rising (e.copyA m).2
    rw [Engine.copyA_mem]; exact rising_writeSeq _ _ (rising_writeSeq _ _ h)
  · show Memory.Rising (e.copyB m).2
    rw [Engine.copyB_mem]; exact rising_writeSeq _ _ h
  · exact Engine.rising_storeTile _ _ _ _ h

/-! The canonical form. -/

theorem Memory.get?_of_mem {m : Memory} {c : Host.Cell} (h : c ∈ m) : Memory.get? m c.1 ≠ none := by
  induction m with
  | nil => simp at h
  | cons d rest ih =>
    obtain ⟨k, b⟩ := d
    simp only [Memory.get?]
    split
    · simp
    · next hk =>
      rcases List.mem_cons.1 h with rfl | h
      · exact absurd rfl hk
      · exact ih h

theorem Memory.mem_of_get? {m : Memory} {a : Nat} (h : Memory.get? m a ≠ none) : ∃ c ∈ m, c.1 = a := by
  induction m with
  | nil => simp [Memory.get?] at h
  | cons d rest ih =>
    obtain ⟨k, b⟩ := d
    simp only [Memory.get?] at h
    split at h
    · next hk => exact ⟨_, List.mem_cons_self, hk⟩
    · obtain ⟨c, h1, h2⟩ := ih h; exact ⟨c, List.mem_cons_of_mem _ h1, h2⟩

/-- A memory that lists, in order, the addresses a canonical one lists is canonical. -/
theorem Memory.wf_of_same_addresses {m m' : Memory} (hw : Memory.wf m) (hp : Memory.Rising m')
    (h : ∀ a, Memory.get? m' a = none ↔ Memory.get? m a = none) : Memory.wf m' := by
  refine ⟨hp, fun c hc => ?_⟩
  have h1 := Memory.get?_of_mem hc
  have h2 : Memory.get? m c.1 ≠ none := fun h' => h1 ((h _).2 h')
  obtain ⟨c', h3, h4⟩ := Memory.mem_of_get? h2
  rw [← h4]; exact hw.2 _ h3

end Sys2Proof.Machine
end

