-- ==== Sys2Proof/Laws/PerInstr.lean ====
section
/-! SUPPORT. The fields of the command word of each command (30_encoding.md R91 to R94, R102), one lemma for each. -/

namespace Sys2Proof.Laws.EncodedFields

/-- The word of a well-formed command holds its operation code, its `FIRST`, its `NREM` and zeros (R91, R102). -/
def Statement (i : Instr) : Prop :=
  i.wf = true → fieldOpc (encode i) = i.opc ∧ fieldFirst (encode i) = i.firstBit ∧
    fieldNrem (encode i) = i.nremField ∧ fieldZero (encode i) = 0

theorem packA : Statement .packA := by intro _; decide

theorem packB : Statement .packB := by intro _; decide

theorem kern8x6 (first : Bool) : Statement (.kern8x6 first) := by
  intro _; cases first <;> decide

theorem kern4x6 (first : Bool) : Statement (.kern4x6 first) := by
  intro _; cases first <;> decide

theorem kern8x4 (first : Bool) (nrem : Nat) : Statement (.kern8x4 first nrem) := by
  intro h
  have h : nrem ≤ 4 := of_decide_eq_true h
  interval_cases nrem <;> cases first <;> decide

theorem kern4x4 (first : Bool) (nrem : Nat) : Statement (.kern4x4 first nrem) := by
  intro h
  have h : nrem ≤ 4 := of_decide_eq_true h
  interval_cases nrem <;> cases first <;> decide

end Sys2Proof.Laws.EncodedFields
end

