-- ==== Sys2Proof/Laws/Run.lean ====
section
/-! SUPPORT. What a whole kernel call does, whatever its unrolling (42_kernel_common.md R167, R168, R170). -/

namespace Sys2Proof.Machine

variable {mr nr nv d : Nat} {first : Bool} {m : Memory}

theorem Engine.klen_lt (e : Engine) : e.klen < 2 ^ 64 := by unfold Engine.klen Engine.operand; exact BitVec.isLt _

theorem toNat_tripCount (e : Engine) : (tripCount e.ksteps).toNat = e.klen / 4 / 2 := by
  have := e.klen_lt
  simp [tripCount, Engine.ksteps]; omega

/-- The unrolled loop, from its first trip to its last: two reduction steps a trip (R167). -/
theorem Job.tick_trips (n : Nat) : ∀ (e : Engine), e.phase = .loop → e.trips.toNat = n + 1 →
    e.step.toNat + 2 * (n + 1) < 2^64 →
    ∃ f, ((Job.kernel mr nr nv first).tick d)^[n + 1] (e, m) = (f, m) ∧
      SameData f (e.rsteps mr nr e.step.toNat (2 * (n + 1)) m) ∧ f.odd = e.odd ∧ f.trips.toNat = 0 ∧
      f.step.toNat = e.step.toNat + 2 * (n+1) ∧ f.phase = e.phaseAfterLoop := by
  induction n with
  | zero =>
    intro e hp ht hs
    have : e.trips = 1 := by apply BitVec.eq_of_toNat_eq; simpa using ht
    refine ⟨e.loopTrip mr nr m, by simp [Job.tick_loop hp], e.loopTrip_data mr nr m, rfl, ?_, ?_, ?_⟩
    · simp [this]
    · simp; omega
    · simp [Engine.loopTrip, Engine.phaseAfterTrip, this]; rfl
  | succ n ih =>
    intro e hp ht hs
    have h1 : (e.loopTrip mr nr m).trips.toNat = n + 1 := by
      rw [Engine.loopTrip_trips, BitVec.toNat_sub]; have := e.trips.isLt; simp; omega
    have h2 : (e.loopTrip mr nr m).phase = .loop := by
      have : (e.loopTrip mr nr m).trips ≠ 0 := by intro h; rw [h] at h1; simp at h1
      show Engine.phaseAfterTrip _ = _
      unfold Engine.phaseAfterTrip
      exact if_neg this
    have hst : (e.loopTrip mr nr m).step.toNat = e.step.toNat + 2 := by simp; omega
    obtain ⟨f, g1, g2, g3, g4, g5, g6⟩ := ih (e.loopTrip mr nr m) h2 h1 (by omega)
    refine ⟨f, ?_, ?_, g3, g4, by omega, g6⟩
    · rw [Function.iterate_succ_apply, Job.tick_loop hp, g1]
    · refine g2.trans ?_
      rw [hst, show 2 * (n + 1 + 1) = 2 + 2 * (n+1) by omega, Engine.rsteps_add]
      exact (e.loopTrip_data mr nr m).rsteps _ _ _ _ _

/-- The whole kernel call (R170): `INIT`, then the `K/4` reduction steps in order however they are unrolled, then
`STORE`; the engine ends in `IDLE`. -/
theorem Job.run_kernel (e : Engine) : (Job.kernel mr nr nv first).run d e m =
    (Engine.afterCall d, ((e.initTile mr nr nv first d m).rsteps mr nr 0 (e.klen / 4) m).storeTile mr nv m) := by
  have hk := e.klen_lt
  set j := Job.kernel mr nr nv first with hj
  set b := j.begin e with hb
  have hbp : b.phase = .init := rfl
  have hbt : b.trips.toNat = e.klen / 4 / 2 := toNat_tripCount e
  have hbo : b.odd = decide (e.klen / 4 % 2 = 1) := rfl
  set i := b.initTile mr nr nv first d m with hi
  have hidata : SameData i (e.initTile mr nr nv first d m) := ⟨rfl, rfl, rfl, rfl⟩
  have hit : i.trips.toNat = e.klen / 4 / 2 := hbt
  have his : i.step.toNat = 0 := rfl
  have hio : i.odd = decide (e.klen / 4 % 2 = 1) := rfl
  have loop : ∃ f, (j.tick d)^[e.klen / 4 / 2] (i, m) = (f, m) ∧
      SameData f (i.rsteps mr nr 0 (2 * (e.klen / 4 / 2)) m) ∧ f.odd = i.odd ∧
      f.step.toNat = 2 * (e.klen/4/2) ∧ f.phase = i.phaseAfterLoop := by
    rcases hn : e.klen / 4 / 2 with _ | n
    · have : i.trips = 0 := by apply BitVec.eq_of_toNat_eq; rw [hit, hn]; rfl
      refine ⟨i, rfl, SameData.refl _, rfl, his, ?_⟩
      show b.phaseAfterInit = _
      have hb0 : b.trips = 0 := this
      unfold Engine.phaseAfterInit; rw [if_pos hb0]; rfl
    · have hne : b.trips ≠ 0 := by intro h; rw [h] at hbt; simp at hbt; omega
      have hip : i.phase = .loop := by
        show b.phaseAfterInit = _
        unfold Engine.phaseAfterInit; rw [if_neg hne]
      obtain ⟨f, g1, g2, g3, _, g5, g6⟩ := Job.tick_trips (d := d) (first := first) (nv := nv) (m := m) (mr := mr)
        (nr := nr) n i hip (by omega) (by omega)
      rw [his] at g2
      exact ⟨f, g1, g2, g3, by omega, g6⟩
  obtain ⟨f, f1, f2, f3, f4, f5⟩ := loop
  have tl : ∃ g, (j.tick d)^[e.klen / 4 % 2] (f, m) = (g, m) ∧
      SameData g (i.rsteps mr nr 0 (e.klen / 4) m) ∧ g.phase = .store := by
    rcases Nat.mod_two_eq_zero_or_one (e.klen / 4) with h0 | h1
    · rw [h0]
      refine ⟨f, rfl, ?_, ?_⟩
      · rw [show e.klen / 4 = 2 * (e.klen / 4 / 2) by omega]; exact f2
      · rw [f5, Engine.phaseAfterLoop, hio]; simp [h0]
    · rw [h1]
      have hfp : f.phase = .tail := by rw [f5, Engine.phaseAfterLoop, hio]; simp [h1]
      refine ⟨f.tailStep mr nr m, by simp [hj, Job.tick_tail hfp], ?_, rfl⟩
      rw [show e.klen / 4 = 2 * (e.klen / 4 / 2) + 1 by omega, Engine.rsteps_add, Nat.zero_add]
      refine (f.tailStep_data mr nr m).trans ?_
      rw [f4]
      exact f2.rsteps _ _ _ _ _
  obtain ⟨g, g1, g2, g3⟩ := tl
  show (j.tick d)^[e.klen / 4 / 2 + e.klen/4 % 2 + 2] (b, m) = _
  rw [show e.klen / 4 / 2 + e.klen/4 % 2 + 2 = (1 + e.klen/4%2 + e.klen/4/2) + 1 by omega,
    Function.iterate_add_apply, Function.iterate_one, hj, Job.tick_init hbp, ← hj, Function.iterate_add_apply, f1,
    Function.iterate_add_apply, g1, Function.iterate_one, hj, Job.tick_store g3]
  congr 1
  exact (g2.trans (hidata.rsteps _ _ _ _ _)).storeTile _ _ _

/-- A whole call leaves its engine as `Engine.afterCall` says (R31). -/
theorem Job.run_fst (i : Instr) (d : Nat) (e : Engine) (m : Memory) :
    ((jobOf i).run d e m).1 = Engine.afterCall d := by
  cases i <;> simp only [jobOf]
  · rfl
  · rfl
  all_goals rw [Job.run_kernel]

end Sys2Proof.Machine
end

