-- ==== Sys2Proof/Laws/Tick.lean ====
section
/-! SUPPORT. What one step of the sequencer can do to the engine that takes it (10_state.md R23, R31). -/

namespace Sys2Proof.Machine

open Sys2Proof.Safety

/-- A step of a call in sequence either ends the call (`STORE`, `COPY`) or goes on: memory, the operands, the command
word and `ODD` stay, and the call is in sequence again (R23). -/
def TickDoes (j : Job) (draw : Nat) (e : Engine) (m : Memory) : Prop :=
  ((e.phase = .store ∨ e.phase = .copy) ∧ (j.tick draw (e, m)).1 = Engine.afterCall draw) ∨
  ((e.phase ≠ .store ∧ e.phase ≠ .copy) ∧ ∃ f, j.tick draw (e, m) = (f, m) ∧ f.x = e.x ∧ f.cmd = e.cmd ∧
    f.odd = e.odd ∧ f.phase ≠ .idle ∧ InSequence j f)

section
variable {mr nr nv d : Nat} {first : Bool} {e : Engine} {m : Memory}

theorem toNat_ne_zero {w : Word} (h : w ≠ 0) : w.toNat ≠ 0 :=
  fun hw => h (BitVec.eq_of_toNat_eq (by simpa using hw))

/-- The phase after `INIT` (R23). -/
theorem Engine.initTile_next : (e.initTile mr nr nv first d m).phase =
    if e.trips = 0 then (if e.odd then .tail else .store) else .loop := rfl

/-- The phase after a trip of `LOOP` (R23, R167). -/
theorem Engine.loopTrip_next : (e.loopTrip mr nr m).phase =
    if e.trips - 1 = 0 then (if e.odd then .tail else .store) else .loop := rfl

theorem toNat_odd (h : e.odd = oddFlag e.ksteps) : e.odd.toNat = e.ksteps % 2 := by
  rw [h, oddFlag]; rcases Nat.mod_two_eq_zero_or_one e.ksteps with h | h <;> simp [h]

/-- `INIT` keeps a kernel call in sequence (R23). -/
theorem Engine.inSequence_initTile (h : InSequence (.kernel mr nr nv first) e) (hp : e.phase = .init) :
    (e.initTile mr nr nv first d m).phase ≠ .idle ∧
    InSequence (.kernel mr nr nv first) (e.initTile mr nr nv first d m) := by
  obtain ⟨ho, h⟩ := h
  rw [hp] at h
  obtain ⟨hs, ht⟩ : e.step.toNat = 0 ∧ e.trips.toNat = e.ksteps / 2 := h
  have hod := toNat_odd ho
  have hn := e.initTile_next (mr := mr) (nr := nr) (nv := nv) (first := first) (d := d) (m := m)
  unfold InSequence
  by_cases h0 : e.trips = 0
  · have hz : e.trips.toNat = 0 := by rw [h0]; rfl
    rcases hb : e.odd with _ | _ <;> simp only [hb, h0, if_true, Bool.false_eq_true, if_false] at hn hod <;>
      rw [hn] <;> refine ⟨by simp, ho, ?_⟩
    · exact ⟨hz, by show e.step.toNat = e.ksteps; simp at hod; omega⟩
    · exact ⟨hz, hb, by show e.step.toNat + 1 = e.ksteps; simp at hod; omega⟩
  · have hz := toNat_ne_zero h0
    rw [if_neg h0] at hn
    rw [hn]
    exact ⟨by simp, ho, by show 0 < e.trips.toNat; omega,
      by show e.step.toNat + 2 * e.trips.toNat + e.odd.toNat = e.ksteps; omega⟩

/-- A trip of `LOOP` keeps a kernel call in sequence (R23, R167). -/
theorem Engine.inSequence_loopTrip (h : InSequence (.kernel mr nr nv first) e) (hp : e.phase = .loop) :
    (e.loopTrip mr nr m).phase ≠ .idle ∧ InSequence (.kernel mr nr nv first) (e.loopTrip mr nr m) := by
  obtain ⟨ho, h⟩ := h
  rw [hp] at h
  obtain ⟨hpos, hsum⟩ : 0 < e.trips.toNat ∧ e.step.toNat + 2 * e.trips.toNat + e.odd.toNat = e.ksteps := h
  have hod := toNat_odd ho
  have hk : e.ksteps < 2 ^ 62 := by have := e.klen_lt; unfold Engine.ksteps; omega
  have hst : (e.loopTrip mr nr m).step.toNat = e.step.toNat + 2 := by
    rw [Engine.loopTrip_step, BitVec.toNat_add]; simp; omega
  have htr : (e.loopTrip mr nr m).trips.toNat + 1 = e.trips.toNat := by
    rw [Engine.loopTrip_trips, BitVec.toNat_sub]; have := e.trips.isLt; simp; omega
  have hiff : (e.trips - 1 = 0) ↔ e.trips.toNat = 1 := by
    rw [← BitVec.toNat_inj, ← Engine.loopTrip_trips mr nr (e := e) (m := m)]; simp; omega
  have hn := e.loopTrip_next (mr := mr) (nr := nr) (m := m)
  unfold InSequence
  by_cases h1 : e.trips.toNat = 1
  · rw [if_pos (hiff.2 h1)] at hn
    rcases hb : e.odd with _ | _ <;> simp only [hb, if_true, Bool.false_eq_true, if_false] at hn hod hsum <;>
      rw [hn] <;> refine ⟨by simp, ho, ?_⟩
    · exact ⟨by omega, by show _ = e.ksteps; simp at hsum; omega⟩
    · exact ⟨by omega, hb, by show _ = e.ksteps; simp at hsum; omega⟩
  · rw [if_neg fun h => h1 (hiff.1 h)] at hn
    rw [hn]
    exact ⟨by simp, ho, by show 0 < _; omega, by show _ + e.odd.toNat = e.ksteps; omega⟩

/-- The correction step keeps a kernel call in sequence (R23, R167). -/
theorem Engine.inSequence_tailStep (h : InSequence (.kernel mr nr nv first) e) (hp : e.phase = .tail) :
    InSequence (.kernel mr nr nv first) (e.tailStep mr nr m) := by
  obtain ⟨ho, h⟩ := h
  rw [hp] at h
  obtain ⟨ht, -, hs⟩ : e.trips.toNat = 0 ∧ e.odd = true ∧ e.step.toNat + 1 = e.ksteps := h
  have hk : e.ksteps < 2 ^ 62 := by have := e.klen_lt; unfold Engine.ksteps; omega
  refine ⟨ho, ht, ?_⟩
  show (e.step + 1).toNat = e.ksteps
  rw [BitVec.toNat_add]; simp; omega

/-- One step of a kernel call in sequence. -/
theorem tickDoes_kernel (h : InSequence (.kernel mr nr nv first) e) : TickDoes (.kernel mr nr nv first) d e m := by
  have hs := h.2
  rcases hp : e.phase with _ | _ | _ | _ | _ | _ <;> rw [hp] at hs
  · exact hs.elim
  · exact .inr ⟨by simp [hp], _, Job.tick_init hp, rfl, rfl, rfl, Engine.inSequence_initTile h hp⟩
  · exact .inr ⟨by simp [hp], _, Job.tick_loop hp, rfl, rfl, rfl, Engine.inSequence_loopTrip h hp⟩
  · exact .inr ⟨by simp [hp], _, Job.tick_tail hp, rfl, rfl, rfl, by simp [Engine.tailStep],
      Engine.inSequence_tailStep h hp⟩
  · exact .inl ⟨.inl hp, by rw [Job.tick_store hp]⟩
  · exact hs.elim

end

/-- One step of a call in sequence (R23, R31). -/
theorem tickDoes (i : Instr) (d : Nat) (e : Engine) (m : Memory) (h : InSequence (jobOf i) e) :
    TickDoes (jobOf i) d e m := by
  cases i with
  | packA => exact .inl ⟨.inr h.1, by rw [jobOf, Job.tick_packA h.1]⟩
  | packB => exact .inl ⟨.inr h.1, by rw [jobOf, Job.tick_packB h.1]⟩
  | kern8x6 first => exact tickDoes_kernel h
  | kern4x6 first => exact tickDoes_kernel h
  | kern8x4 first nrem => exact tickDoes_kernel h
  | kern4x4 first nrem => exact tickDoes_kernel h

/-- A call that has just started is in sequence (R23, R24, R27). -/
theorem inSequence_begin (i : Instr) (e : Engine) : InSequence (jobOf i) ((jobOf i).begin e) := by
  have kernel : ∀ mr nr nv first, InSequence (.kernel mr nr nv first) ((Job.kernel mr nr nv first).begin e) :=
    fun _ _ _ _ => ⟨rfl, rfl, toNat_tripCount e⟩
  cases i <;> first | exact ⟨rfl, rfl⟩ | exact kernel _ _ _ _

end Sys2Proof.Machine
end

