-- ==== Sys2Proof/Tests/Slice0.lean ====
section
/-! SUPPORT. The model's own tests: values of 95_test_vectors.md and of the rules' worked examples, each a small theorem
about one step, and a witness for the hypotheses of every statement that has some. -/

namespace Sys2Proof.Tests

open Sys2Proof.Machine Sys2Proof.Safety

-- One after another: run at a time, the kernel evaluations below need a thread, and its stack, each.
set_option Elab.async false

/-! Helpers. -/

/-- Operand registers that hold `l`, the rest 0. -/
def operands (l : List Nat) : Vector Word 7 := tabulate 7 fun n => BitVec.ofNat 64 (l.getD n 0)

/-- A memory that holds blocks of bytes, given by rising address. -/
def memoryOf (blocks : List (Nat × List Nat)) : Memory :=
  blocks.flatMap fun p => ((List.range p.2.length).map (p.1 + ·)).zip (p.2.map (BitVec.ofNat 8))

/-- An int32 as its four bytes. -/
def word32 (v : Int) : List Nat := (i32Bytes (wrap32 v)).map BitVec.toNat

/-- One engine, `IDLE`, to which a call with operands `l` has just been presented. -/
def presented (l : List Nat) (m : Memory) : State :=
  { State.resetWith 1 with engines := [holding (operands l)], mem := m }

/-- Memory after a step that goes on. -/
def memoryAfter : Host.Outcome State Fault Refusal → Option Memory
  | .next t => some t.mem
  | .fault _ => none
  | .refused _ => none

/-- Why a step is refused. -/
def refusalOf : Host.Outcome State Fault Refusal → Option Refusal
  | .next _ => none
  | .fault _ => none
  | .refused r => some r

/-- The bytes at an address after a step. -/
def bytesAfter (o : Host.Outcome State Fault Refusal) (a n : Nat) : Option (List Nat) :=
  (memoryAfter o).map fun m => (Memory.readBytes m a n).map BitVec.toNat

/-- The int32 values after a step: `n` of them from address `a`, for each (`a`, `n`). -/
def rowsAfter (o : Host.Outcome State Fault Refusal) (rows : List (Nat × Nat)) : Option (List (List Int)) :=
  (memoryAfter o).map fun m => rows.map fun p =>
    (List.range p.2).map fun j => (Memory.readI32 m (p.1 + 4 * j)).toInt

/-! Well-formedness (R94, R98): ill-formed terms are refused. -/

theorem test_wf_refuses_nrem_above_4 :
    (Instr.kern8x4 true 5).wf = false ∧ (Instr.kern4x4 false 7).wf = false ∧ (Instr.kern8x4 false 4).wf = true ∧
    (Instr.kern4x4 true 0).wf = true := by decide

/-! Decoding: the words of 95_test_vectors.md, section 2.1, and of R200, R201. -/

theorem test_decode_packers : decode 0x00000001 = .ok .packA ∧ decode 0x00000002 = .ok .packB ∧
    decode 0x00000011 = .error .flagOnPacker ∧ decode 0x00000022 = .error .flagOnPacker := by decide

theorem test_decode_kern8x6 : decode 0x00000004 = .ok (.kern8x6 false) ∧ decode 0x00000014 = .ok (.kern8x6 true) ∧
    decode 0x00000024 = .error .nremOnFullTile := by decide

theorem test_decode_kern4x6 : decode 0x00000005 = .ok (.kern4x6 false) ∧ decode 0x00000015 = .ok (.kern4x6 true) := by
  decide

theorem test_decode_kern8x4 : decode 0x00000006 = .ok (.kern8x4 false 0) ∧ decode 0x00000096 = .ok (.kern8x4 true 4) ∧
    decode 0x00000056 = .ok (.kern8x4 true 2) ∧ decode 0x000000A6 = .error .nremRange := by decide

theorem test_decode_kern4x4 : decode 0x00000037 = .ok (.kern4x4 true 1) ∧ decode 0x00000087 = .ok (.kern4x4 false 4) ∧
    decode 0x000000F7 = .error .nremRange := by decide

theorem test_decode_reserved : decode 0x00000000 = .error .opcode ∧ decode 0x00000003 = .error .opcode ∧
    decode 0x00000008 = .error .opcode ∧ decode 0x0000000F = .error .opcode ∧
    decode 0x00000104 = .error .upperBits ∧ decode 0x80000001 = .error .upperBits := by decide

theorem test_encode : encode .packA = 0x00000001 ∧ encode (.kern8x6 true) = 0x00000014 ∧
    encode (.kern8x4 true 2) = 0x00000056 ∧ encode (.kern4x4 true 4) = 0x00000097 := by decide

theorem test_decodeTableWord : decodeTableWord 32 0x00000056 = some (.kern8x4 true 2) ∧
    decodeTableWord 32 0x000000A6 = none := by decide

/-! `DOT4`: DT1 to DT10 of 95_test_vectors.md. -/

/-- `DOT4` on byte lists, as a number. -/
def dot4Of (acc : Int) (a b : List Nat) : Int :=
  (dot4 (wrap32 acc) (fun k => BitVec.ofNat 8 (a.getD k 0)) (fun k => BitVec.ofNat 8 (b.getD k 0))).toInt

theorem test_dot4_values : dot4Of 0 [1, 2, 3, 4] [5, 6, 7, 8] = 70 ∧
    dot4Of 100 [0xFF, 0xFE, 0x03, 0x00] [0x04, 0xFB, 0x80, 0x7F] = -278 ∧
    dot4Of 0 [0x80, 0x80, 0x80, 0x80] [0x7F, 0x7F, 0x7F, 0x7F] = -65024 ∧
    dot4Of (-5) [0, 0, 0, 0] [0x80, 0x7F, 0x01, 0xFF] = -5 := by decide

theorem test_dot4_wraps : dot4Of 2147483647 [1, 0, 0, 0] [1, 0, 0, 0] = -2147483648 ∧
    dot4Of (-2147483648) [1, 0, 0, 0] [0xFF, 0, 0, 0] = 2147483647 ∧
    dot4Of 2147483647 [0x80, 0x80, 0x80, 0x80] [0x80, 0x80, 0x80, 0x80] = -2147418113 ∧
    dot4Of (-2147483648) [0x80, 0x80, 0x80, 0x80] [0x7F, 0x7F, 0x7F, 0x7F] = 2147418624 := by decide

/-! `PACK_A`: PA1 (two row groups, two steps) and PA3 (an 8-row and a 4-row panel). -/

/-- The source of PA1 at `0x1000` and its buffer at `0x3000`, 4 bytes too long. -/
def pa1 : Memory := memoryOf [(0x1000,
    [0xF8, 0xFB, 0xFE, 0x01, 0xFF, 0x02, 0x05, 0x08, 0x06, 0xF8, 0xFB, 0xFE, 0xFC, 0xFF, 0x02, 0x05, 0x04, 0x07,
    0xF9, 0xFC, 0xFA, 0xFD, 0x00, 0x03, 0x01, 0x04, 0x07, 0xF9, 0x08, 0xFA, 0xFD, 0x00, 0x03, 0x06, 0xF8, 0xFB,
    0xF9, 0xFC, 0xFF, 0x02, 0x00, 0x03, 0x06, 0xF8, 0x07, 0xF9, 0xFC, 0xFF, 0xFE, 0x01, 0x04, 0x07, 0x05, 0x08,
    0xFA, 0xFD, 0xFB, 0xFE, 0x01, 0x04, 0x02, 0x05, 0x08, 0xFA]),
  (0x3000, List.replicate 68 0xEE)]

theorem test_packA_PA1 : bytesAfter (exec .packA (presented [0x3000, 0x1000, 32, 0, 8, 0, 8] pa1)) 0x3000 68 = some
    ([0xF8, 0xFB, 0xFE, 0x01, 0xFF, 0x02, 0x05, 0x08, 0x06, 0xF8, 0xFB, 0xFE, 0xFC, 0xFF, 0x02, 0x05, 0x03, 0x06,
     0xF8, 0xFB, 0xF9, 0xFC, 0xFF, 0x02, 0x00, 0x03, 0x06, 0xF8, 0x07, 0xF9, 0xFC, 0xFF, 0x04, 0x07, 0xF9, 0xFC,
     0xFA, 0xFD, 0x00, 0x03, 0x01, 0x04, 0x07, 0xF9, 0x08, 0xFA, 0xFD, 0x00, 0xFE, 0x01, 0x04, 0x07, 0x05, 0x08,
     0xFA, 0xFD, 0xFB, 0xFE, 0x01, 0x04, 0x02, 0x05, 0x08, 0xFA] ++ List.replicate 4 0xEE) := by
  decide +kernel

/-- The source of PA3 at `0x1000` and its buffer at `0x3000`. -/
def pa3 : Memory := memoryOf [(0x1000,
    [0xF8, 0xFB, 0xFE, 0x01, 0xFF, 0x02, 0x05, 0x08, 0x06, 0xF8, 0xFB, 0xFE, 0xFC, 0xFF, 0x02, 0x05, 0x03, 0x06,
    0xF8, 0xFB, 0xF9, 0xFC, 0xFF, 0x02, 0x00, 0x03, 0x06, 0xF8, 0x07, 0xF9, 0xFC, 0xFF, 0xFD, 0x00, 0x03, 0x06,
    0x04, 0x07, 0xF9, 0xFC, 0xFA, 0xFD, 0x00, 0x03, 0x01, 0x04, 0x07, 0xF9]),
  (0x3000, List.replicate 48 0xEE)]

theorem test_packA_PA3 : bytesAfter (exec .packA (presented [0x3000, 0x1000, 16, 0, 12, 0, 4] pa3)) 0x3000 48 = some
    [0xF8, 0xFB, 0xFE, 0x01, 0xFF, 0x02, 0x05, 0x08, 0x06, 0xF8, 0xFB, 0xFE, 0xFC, 0xFF, 0x02, 0x05, 0x03, 0x06,
    0xF8, 0xFB, 0xF9, 0xFC, 0xFF, 0x02, 0x00, 0x03, 0x06, 0xF8, 0x07, 0xF9, 0xFC, 0xFF, 0xFD, 0x00, 0x03, 0x06,
    0x04, 0x07, 0xF9, 0xFC, 0xFA, 0xFD, 0x00, 0x03, 0x01, 0x04, 0x07, 0xF9] := by
  decide +kernel

/-! `PACK_B`: PB2 (a 6-column and a short panel, two steps) and PB5 (ranges that do not start at 0). -/

/-- The source of PB2 at `0x2000` and its buffer at `0x4000`. -/
def pb2 : Memory := memoryOf [(0x2000,
    [0xFA, 0xFF, 0x04, 0xFC, 0xFC, 0x01, 0x06, 0xFE, 0xFE, 0x03, 0xFB, 0x00, 0x00, 0x05, 0xFD, 0x02, 0x02, 0xFA,
    0xFF, 0x04, 0x04, 0xFC, 0x01, 0x06, 0x06, 0xFE, 0x03, 0xFB, 0x01, 0x06, 0xFE, 0x03, 0x03, 0xFB, 0x00, 0x05,
    0x05, 0xFD, 0x02, 0xFA, 0xFA, 0xFF, 0x04, 0xFC, 0xFC, 0x01, 0x06, 0xFE, 0xFE, 0x03, 0xFB, 0x00, 0x00, 0x05,
    0xFD, 0x02]),
  (0x4000, List.replicate 84 0xEE)]

theorem test_packB_PB2 : bytesAfter (exec .packB (presented [0x4000, 0x2000, 28, 0, 7, 0, 8] pb2)) 0x4030 36 = some
    [0x06, 0xFE, 0x03, 0xFB, 0x00, 0x00, 0x00, 0x00, 0x00, 0x00, 0x00, 0x00, 0x00, 0x00, 0x00, 0x00, 0x00, 0x05,
    0xFD, 0x02, 0x00, 0x00, 0x00, 0x00, 0x00, 0x00, 0x00, 0x00, 0x00, 0x00, 0x00, 0x00, 0xEE, 0xEE, 0xEE, 0xEE] := by
  decide +kernel

/-- The source of PB1 at `0x2000` and a buffer at `0x4000`. -/
def pb1 : Memory := memoryOf [(0x2000,
    [0xFA, 0xFF, 0x04, 0xFC, 0xFC, 0x01, 0x06, 0xFE, 0xFE, 0x03, 0xFB, 0x00, 0x00, 0x05, 0xFD, 0x02, 0x02, 0xFA,
    0xFF, 0x04, 0x04, 0xFC, 0x01, 0x06, 0x01, 0x06, 0xFE, 0x03, 0x03, 0xFB, 0x00, 0x05, 0x05, 0xFD, 0x02, 0xFA,
    0xFA, 0xFF, 0x04, 0xFC, 0xFC, 0x01, 0x06, 0xFE, 0xFE, 0x03, 0xFB, 0x00]),
  (0x4000, List.replicate 48 0xEE)]

theorem test_packB_PB5 : bytesAfter (exec .packB (presented [0x4000, 0x2000, 24, 2, 5, 4, 8] pb1)) 0x4000 20 = some
    [0x05, 0xFD, 0x02, 0xFA, 0xFA, 0xFF, 0x04, 0xFC, 0xFC, 0x01, 0x06, 0xFE, 0x00, 0x00, 0x00, 0x00, 0xEE, 0xEE,
    0xEE, 0xEE] := by
  decide +kernel

/-! `KERN_8X6`: the first step of K1 (cold). `A` and `B` are the patterns of 95_test_vectors.md; the sums of four products
are worked by hand from them, and K1 gives the first one, 41. -/

/-- The first step of the panels of K1, and its destination. -/
def k1 : Memory := memoryOf [(0x3000,
    [0xF8, 0xFB, 0xFE, 0x01, 0xFF, 0x02, 0x05, 0x08, 0x06, 0xF8, 0xFB, 0xFE, 0xFC, 0xFF, 0x02, 0x05, 0x03, 0x06, 0xF8,
    0xFB, 0xF9, 0xFC, 0xFF, 0x02, 0x00, 0x03, 0x06, 0xF8, 0x07, 0xF9, 0xFC, 0xFF]),
  (0x4000,
    [0xFA, 0xFF, 0x04, 0xFC, 0xFC, 0x01, 0x06, 0xFE, 0xFE, 0x03, 0xFB, 0x00, 0x00, 0x05, 0xFD, 0x02, 0x02, 0xFA, 0xFF,
    0x04, 0x04, 0xFC, 0x01, 0x06]),
  (0x5000, List.replicate 192 0xCC)]

theorem test_kern8x6_K1 :
    rowsAfter (exec (.kern8x6 true) (presented [0x3000, 0x4000, 4, 0x5000, 6] k1)) [(0x5000, 6), (0x5000 + 24 * 7, 6)] =
      some [[41, 13, 11, -17, 20, -8], [-47, -57, -15, -25, 56, 46]] := by decide +kernel

/-! `KERN_4X6`: K3 (one trip and the odd tail, a destination wider than the tile). -/

/-- The panels of K3 and its destination. -/
def k3 : Memory := memoryOf [(0x3000,
    [0xF8, 0xFB, 0xFE, 0x01, 0xFF, 0x02, 0x05, 0x08, 0x06, 0xF8, 0xFB, 0xFE, 0xFC, 0xFF, 0x02, 0x05, 0x04, 0x07,
    0xF9, 0xFC, 0xFA, 0xFD, 0x00, 0x03, 0x01, 0x04, 0x07, 0xF9, 0x08, 0xFA, 0xFD, 0x00, 0xFF, 0x02, 0x05, 0x08,
    0x06, 0xF8, 0xFB, 0xFE, 0xFC, 0xFF, 0x02, 0x05, 0x03, 0x06, 0xF8, 0xFB]),
  (0x4000,
    [0xFA, 0xFF, 0x04, 0xFC, 0xFC, 0x01, 0x06, 0xFE, 0xFE, 0x03, 0xFB, 0x00, 0x00, 0x05, 0xFD, 0x02, 0x02, 0xFA,
    0xFF, 0x04, 0x04, 0xFC, 0x01, 0x06, 0x01, 0x06, 0xFE, 0x03, 0x03, 0xFB, 0x00, 0x05, 0x05, 0xFD, 0x02, 0xFA,
    0xFA, 0xFF, 0x04, 0xFC, 0xFC, 0x01, 0x06, 0xFE, 0xFE, 0x03, 0xFB, 0x00, 0xFB, 0x00, 0x05, 0xFD, 0xFD, 0x02,
    0xFA, 0xFF, 0xFF, 0x04, 0xFC, 0x01, 0x01, 0x06, 0xFE, 0x03, 0x03, 0xFB, 0x00, 0x05, 0x05, 0xFD, 0x02, 0xFA]),
  (0x5000, List.replicate 128 0xCC)]

theorem test_kern4x6_K3 :
    rowsAfter (exec (.kern4x6 true) (presented [0x3000, 0x4000, 12, 0x5000, 8] k3)) [(0x5000, 7), (0x5000 + 32 * 3, 6)] =
      some [[95, -61, 17, -35, 4, -9, (0xCCCCCCCC : Int) - 2 ^ 32], [-49, 127, 95, -15, -86, 12]] := by
  decide +kernel

/-! `KERN_8X4`: K4 (cold, `NREM = 3`) and K5 (warm and masked). -/

/-- The panels of K4 and K5, and a destination whose element (`i`, `j`) is `1000*(i+1) + j`. -/
def k5 : Memory := memoryOf [(0x3000,
    [0xF8, 0xFB, 0xFE, 0x01, 0xFF, 0x02, 0x05, 0x08, 0x06, 0xF8, 0xFB, 0xFE, 0xFC, 0xFF, 0x02, 0x05, 0x03, 0x06,
    0xF8, 0xFB, 0xF9, 0xFC, 0xFF, 0x02, 0x00, 0x03, 0x06, 0xF8, 0x07, 0xF9, 0xFC, 0xFF]),
  (0x4000, [0xFA, 0xFF, 0x04, 0xFC, 0xFC, 0x01, 0x06, 0xFE, 0xFE, 0x03, 0xFB, 0x00, 0x00, 0x00, 0x00, 0x00]),
  (0x5000, ((List.range 8).flatMap fun i => (List.range 4).map fun j => word32 (1000 * (i + 1) + j)).flatten)]

theorem test_kern8x4_K4 :
    rowsAfter (exec (.kern8x4 true 3) (presented [0x3000, 0x4000, 4, 0x5000, 4] k5)) [(0x5000 + 16 * 7, 4)] =
      some [[-47, -57, -15, 8003]] := by decide +kernel

theorem test_kern8x4_K5 :
    rowsAfter (exec (.kern8x4 false 2) (presented [0x3000, 0x4000, 4, 0x5000, 4] k5)) [(0x5000, 8)] =
      some [[1041, 1014, 1002, 1003, 1992, 2021, 2002, 2003]] := by decide +kernel

/-! `KERN_4X4`: K6 (`NREM = 2`, `LDC = 5`) and K7 (overflow wraps). -/

/-- The panels of K6 and a destination of sentinels `0xDEADBEEF`. -/
def k6 : Memory := memoryOf [(0x3000,
    [0xF8, 0xFB, 0xFE, 0x01, 0xFF, 0x02, 0x05, 0x08, 0x06, 0xF8, 0xFB, 0xFE, 0xFC, 0xFF, 0x02, 0x05, 0x04, 0x07,
    0xF9, 0xFC, 0xFA, 0xFD, 0x00, 0x03, 0x01, 0x04, 0x07, 0xF9, 0x08, 0xFA, 0xFD, 0x00]),
  (0x4000,
    [0xFA, 0xFF, 0x04, 0xFC, 0xFC, 0x01, 0x06, 0xFE, 0x00, 0x00, 0x00, 0x00, 0x00, 0x00, 0x00, 0x00, 0x01, 0x06,
    0xFE, 0x03, 0x03, 0xFB, 0x00, 0x05, 0x00, 0x00, 0x00, 0x00, 0x00, 0x00, 0x00, 0x00]),
  (0x5000, (List.replicate 20 [0xEF, 0xBE, 0xAD, 0xDE]).flatten)]

theorem test_kern4x4_K6 :
    rowsAfter (exec (.kern4x4 true 2) (presented [0x3000, 0x4000, 8, 0x5000, 5] k6)) [(0x5000 + 20 * 2, 7)] =
      some [[-50, -110, -559038737, -559038737, -559038737, -9, 71]] := by decide +kernel

/-- The data of K7. -/
def k7 : Memory := memoryOf [(0x3000, List.replicate 16 0x80), (0x4000, List.replicate 16 0x80),
  (0x5000, (List.replicate 4 ((List.range 4).flatMap fun j => word32 (2147483647 - 65536 + j))).flatten)]

theorem test_kern4x4_K7_wraps :
    rowsAfter (exec (.kern4x4 false 4) (presented [0x3000, 0x4000, 4, 0x5000, 4] k7)) [(0x5000 + 16 * 3, 4)] =
      some [[2147483647, -2147483648, -2147483647, -2147483646]] := by decide +kernel

/-! Refusals beside accepted calls: PA6, PB6, K9. -/

theorem test_refusals_of_packers :
    refusalOf (exec .packA (presented [0x3000, 0x1000, 16, 0, 6, 0, 4] pa3)) = some .v3RowRange ∧
    refusalOf (exec .packA (presented [0x3000, 0x1000, 16, 2, 10, 0, 4] pa3)) = some .v3RowRange ∧
    refusalOf (exec .packA (presented [0x3000, 0x1000, 16, 0, 8, 2, 6] pa3)) = some .v4ReductionRange ∧
    refusalOf (exec .packB (presented [0x4000, 0x2000, 28, 5, 4, 0, 4] pb2)) = some .v5ColumnRange ∧
    refusalOf (exec .packB (presented [0x4000, 0x2000, 28, 0, 7, 0, 2] pb2)) = some .v4ReductionRange := by
  decide +kernel

theorem test_refusals_of_kernels :
    refusalOf (exec (.kern8x6 true) (presented [0x3000, 0x4000, 6, 0x5000, 6] k7)) = some .v2ReductionLength ∧
    refusalOf (exec (.kern8x6 true) (presented [0x3000, 0x4000, 0, 0x5000, 6] k7)) = some .v2ReductionLength ∧
    refusalOf (exec (.kern8x6 true) (presented [0x3000, 0x4000, 8, 0x5000, 5] k7)) = some .v6RowStride ∧
    refusalOf (exec (.kern4x4 true 1) (presented [0x3000, 0x4000, 8, 0x5000, 3] k7)) = some .v6RowStride ∧
    refusalOf (exec (.kern8x6 true) (presented [0x3000, 0x4000, 8, 0x5002, 6] k7)) = some .v9OutputAlignment ∧
    refusalOf (exec (.kern4x4 true 1) (presented [0x3000, 0x4000, 8, 0x5050, 5] k7)) = some .v8Access ∧
    refusalOf (exec (.kern4x4 true 1) (presented [0x3000, 0x5000, 4, 0x500C, 4] k7)) = some .v10Overlap := by
  decide +kernel

/-- The top 64 bytes of the address space and 64 bytes at 0x100. -/
def topBytes : Memory :=
  ((List.range 64).map fun n => (0x100 + n, 2)) ++ (List.range 64).map fun n => (2 ^ 64 - 64 + n, 3)

/-- An address computation that reaches `2^64` is V8 although every byte is accessible: `OPTR` after the last cell, `B4`,
and the step row of an empty column range. One cell, run or step below it completes. -/
theorem test_address_computations_at_the_top :
    refusalOf (exec .packA (presented [2 ^ 64 - 16, 0x100, 16, 0, 4, 0, 4] topBytes)) = some .v8Access ∧
    (bytesAfter (exec .packA (presented [2 ^ 64 - 32, 0x100, 16, 0, 4, 0, 4] topBytes)) (2 ^ 64 - 32) 16).isSome ∧
    refusalOf (exec .packB (presented [2 ^ 64 - 24, 0x100, 24, 0, 6, 0, 4] topBytes)) = some .v8Access ∧
    (bytesAfter (exec .packB (presented [2 ^ 64 - 25, 0x100, 24, 0, 6, 0, 4] topBytes)) (2 ^ 64 - 25) 24).isSome ∧
    refusalOf (exec .packB (presented [0x100, 2 ^ 64 - 16, 16, 3, 3, 4, 8] topBytes)) = some .v8Access ∧
    (bytesAfter (exec .packB (presented [0x100, 2 ^ 64 - 16, 16, 3, 3, 0, 4] topBytes)) 0x100 1).isSome := by
  decide +kernel

/-! Witnesses: for each statement with hypotheses, a state and operands that meet them all. -/

/-- 256 accessible bytes. -/
def room : Memory := (List.range 256).map fun a => (a, 1)

theorem room_wf : Memory.wf room := by
  refine ⟨?_, fun c hc => ?_⟩
  · rw [room, List.pairwise_map]; exact List.pairwise_lt_range
  · obtain ⟨a, ha, rfl⟩ := List.mem_map.1 hc
    have := List.mem_range.1 ha
    rw [Config.addressLimit]
    omega

/-- Engine 0 with operands `l` and command word `w`, latched, in `IDLE`. -/
def latched (w : CmdWord) (l : List Nat) : Engine := { holding (operands l) with cmd := w }

/-- A machine of these engines over `room`. -/
def machine (engines : List Engine) (agenda : List Event) : State :=
  { State.resetWith 1 with engines := engines, mem := room, agenda := agenda }

theorem ready_of {s : State} {e : Engine} {i : Instr} (he : s.engines[s.active]? = some e) (hp : e.phase = .idle)
    (hv : s.violation s.active (jobOf i) e = none) : Ready s (jobOf i) e :=
  ⟨he, hp, ((State.violation_eq_none i s s.active e).1 hv).1, ((State.violation_eq_none i s s.active e).1 hv).2⟩

/-- `PACK_A` of 12 rows and one step: an 8-row and a 4-row panel. -/
def packAEngine : Engine := latched 0x00000001 [128, 0, 16, 0, 12, 0, 4]

theorem ready_packA : Ready (machine [packAEngine] []) .packA packAEngine :=
  ready_of (i := .packA) rfl rfl (by decide +kernel)

/-- `PACK_B` of 11 columns and one step: a 6-column, a 4-column and a short panel. -/
def packBEngine : Engine := latched 0x00000002 [128, 0, 44, 0, 11, 0, 4]

theorem ready_packB : Ready (machine [packBEngine] []) .packB packBEngine ∧ packBEngine.n6 = 1 ∧ packBEngine.n4 = 1 ∧
    packBEngine.rem = 1 :=
  ⟨ready_of (i := .packB) rfl rfl (by decide +kernel), by decide +kernel, by decide +kernel, by decide +kernel⟩

/-- Packers with an empty row or column range and with an empty reduction range. -/
theorem ready_empty_packers :
    (∃ e : Engine, e.hi = e.lo ∧ Ready (machine [e] []) .packA e ∧ Ready (machine [e] []) .packB e) ∧
    (∃ e : Engine, e.kmax = e.k0 ∧ Ready (machine [e] []) .packA e ∧ Ready (machine [e] []) .packB e) :=
  ⟨⟨latched 1 [0, 0, 0, 4, 4, 0, 8], by decide +kernel, ready_of (i := .packA) rfl rfl (by decide +kernel),
      ready_of (i := .packB) rfl rfl (by decide +kernel)⟩,
    ⟨latched 1 [0, 0, 0, 0, 8, 4, 4], by decide +kernel, ready_of (i := .packA) rfl rfl (by decide +kernel),
      ready_of (i := .packB) rfl rfl (by decide +kernel)⟩⟩

/-- A kernel call with `K = 4`: panels at 0 and 32, destination at 64. -/
def kernelEngine (w : CmdWord) (ldc : Nat) : Engine := latched w [0, 32, 4, 64, ldc]

theorem ready_full_tile :
    Ready (machine [kernelEngine 0x14 6] []) (.kernel 8 6 6 true) (kernelEngine 0x14 6) ∧
    Ready (machine [kernelEngine 0x05 6] []) (.kernel 4 6 6 false) (kernelEngine 0x05 6) :=
  ⟨ready_of (i := .kern8x6 true) rfl rfl (by decide +kernel),
    ready_of (i := .kern4x6 false) rfl rfl (by decide +kernel)⟩

theorem ready_remainder :
    Ready (machine [kernelEngine 0x46 5] []) (.kernel 8 4 2 false) (kernelEngine 0x46 5) ∧
    Ready (machine [kernelEngine 0x97 5] []) (.kernel 4 4 4 true) (kernelEngine 0x97 5) :=
  ⟨ready_of (i := .kern8x4 false 2) rfl rfl (by decide +kernel),
    ready_of (i := .kern4x4 true 4) rfl rfl (by decide +kernel)⟩

theorem ready_nrem_zero :
    Ready (machine [kernelEngine 0x06 4] []) (.kernel 8 4 0 false) (kernelEngine 0x06 4) ∧
    Ready (machine [kernelEngine 0x17 4] []) (.kernel 4 4 0 true) (kernelEngine 0x17 4) :=
  ⟨ready_of (i := .kern8x4 false 0) rfl rfl (by decide +kernel),
    ready_of (i := .kern4x4 true 0) rfl rfl (by decide +kernel)⟩

/-- Computed addresses at the top: `OPTR` of `PACK_A` after its one cell, and `B4` and the step row of `PACK_B`. -/
theorem witness_NoComputedAddressReachesTheTop :
    Computes .packA (latched 1 [2 ^ 64 - 16, 0x100, 16, 0, 4, 0, 4]) (2 ^ 64) ∧
    Computes .packB (latched 2 [2 ^ 64 - 24, 0x100, 24, 0, 6, 0, 4]) (2 ^ 64) ∧
    Computes .packB (latched 2 [0x100, 2 ^ 64 - 16, 16, 3, 3, 4, 8]) (2 ^ 64) :=
  ⟨⟨1, by decide +kernel, by decide +kernel⟩, .inl (by decide +kernel),
    .inr (.inr ⟨0, by decide +kernel, by decide +kernel⟩)⟩

/-- With `NREM = 0`, an A panel that is not in `Valid`. -/
theorem witness_NremZero_inaccessible :
    ∃ a, PanelReads 8 4 (latched 0x06 [300, 32, 4, 64, 4]) a ∧ ¬ Accessible room a :=
  ⟨300, .inl ⟨by decide, by decide⟩, fun h => absurd (accessible_iff.2 h) (by decide +kernel)⟩

theorem witness_OffsetsStayBelow2Pow62 : ∃ e : Engine, e.lds = 2 ^ 31 - 1 ∧ e.lo = 0 ∧ e.hi = 2 ^ 31 - 1 ∧
    e.k0 = 0 ∧ e.kmax = 2 ^ 31 - 4 ∧ (e.kmax - e.k0) % 4 = 0 ∧ e.ldc ≤ 2 ^ 31 - 1 :=
  ⟨holding (operands [0, 0, 2 ^ 31 - 1, 0, 2 ^ 31 - 1, 0, 2 ^ 31 - 4]), by decide +kernel⟩

theorem witness_StepRunsTheDecodedCommand :
    ∃ (s : State) (n : Nat) (cmd : CmdWord) (x : Vector Word 7) (rest : List Event) (e : Engine) (i : Instr),
      s.agenda = .call n cmd x :: rest ∧ s.engines[n]? = some e ∧ e.phase = .idle ∧ decode cmd = .ok i ∧
      decode (BitVec.ofNat 32 0x97) = .ok (.kern4x4 true 4) :=
  ⟨machine [Engine.reset, Engine.reset] [.call 1 0x14 (operands [0, 32, 4, 64, 6])], 1, 0x14, _, [], Engine.reset,
    .kern8x6 true, rfl, rfl, rfl, by decide, by decide⟩

/-- A cold `KERN_4X4` call with `NREM = 1` and `K = 12` (one trip and the correction step), in a phase. -/
def running (phase : Phase) (step trips : Word) : Engine :=
  { latched 0x37 [0, 48, 12, 128, 4] with phase := phase, step := step, trips := trips, odd := true }

theorem inv_of {e : Engine} {i : Instr} {agenda : List Event} (hd : decode e.cmd = .ok i)
    (hs : InSequence (jobOf i) e) (hv : (jobOf i).violation e room = none) : Inv (machine [e] agenda) := by
  refine ⟨room_wf, List.cons_ne_nil _ _, fun n f hf _ => ?_⟩
  have hf : [e][n]? = some f := hf
  rcases n with _ | n
  · obtain rfl : e = f := Option.some.inj hf
    refine ⟨i, hd, hs, Job.violation_eq_none.1 hv, fun k g j hg hk => ?_⟩
    have hg : [e][k]? = some g := hg
    rcases k with _ | k
    · exact absurd rfl hk
    · simp at hg
  · simp at hf

/-- The machine keeps its invariant in every phase of a call. -/
theorem inv_running (agenda : List Event) :
    Inv (machine [running .init 0 1] agenda) ∧ Inv (machine [running .loop 0 1] agenda) ∧
    Inv (machine [running .tail 2 0] agenda) ∧ Inv (machine [running .store 3 0] agenda) ∧
    Inv (machine [Job.packA.begin packAEngine] agenda) :=
  ⟨inv_of (i := .kern4x4 true 1) rfl ⟨by decide +kernel, by decide +kernel, by decide +kernel⟩ (by decide +kernel),
    inv_of (i := .kern4x4 true 1) rfl ⟨by decide +kernel, by decide +kernel, by decide +kernel⟩ (by decide +kernel),
    inv_of (i := .kern4x4 true 1) rfl ⟨by decide +kernel, by decide +kernel, rfl, by decide +kernel⟩ (by decide +kernel),
    inv_of (i := .kern4x4 true 1) rfl ⟨by decide +kernel, by decide +kernel, by decide +kernel⟩ (by decide +kernel),
    inv_of (i := .packA) rfl ⟨rfl, rfl⟩ (by decide +kernel)⟩

/-- Each of these machines takes the next step of its call. -/
theorem witness_PhasesFollowEachOther :
    (memoryAfter (advance 0 (machine [running .init 0 1] []))).isSome ∧
    (memoryAfter (advance 0 (machine [running .loop 0 1] []))).isSome ∧
    (memoryAfter (advance 0 (machine [running .tail 2 0] []))).isSome ∧
    (memoryAfter (advance 0 (machine [running .store 3 0] []))).isSome ∧
    (memoryAfter (advance 0 (machine [Job.packA.begin packAEngine] []))).isSome := by decide +kernel

/-- Steps the invariant is kept by: the next step of a call, a driver's store to a new address, a reset, a new call. -/
theorem witness_StepKeepsTheInvariant :
    (memoryAfter (step (machine [running .init 0 1] []))).isSome ∧
    (memoryAfter (step (machine [running .init 0 1] [.driverWrite 300 7]))).isSome ∧
    (memoryAfter (step (machine [running .store 3 0] [.reset]))).isSome ∧
    (memoryAfter (step (machine [packAEngine] [.start 0 1 packAEngine.x]))).isSome := by decide +kernel

theorem witness_BusyEngineAndReservedWordRefused :
    refusalOf (step (machine [running .init 0 1] [.call 0 0xA6 (operands [])])) = some .v12Busy ∧
    refusalOf (step (machine [packAEngine] [.start 0 0xA6 (operands [])])) = some .v1InvalidCommand := by
  decide +kernel

/-- A packer that writes what a running kernel call reads: V11, after everything else. -/
theorem witness_RefusedForTheFirstViolation_race :
    refusalOf (exec .packA (machine [latched 1 [0, 200, 16, 0, 4, 0, 4], running .init 0 1] [])) = some .v11Race ∧
    refusalOf (exec .packA (machine [latched 1 [112, 200, 16, 0, 4, 0, 4], running .init 0 1] [])) = none := by
  decide +kernel

/-- The clauses on a driver's accesses beside a running call: 128 is written by the call, 0 is read by it, 255 is
neither, 300 is not in `Valid`. -/
theorem witness_DriverAccessesRace :
    refusalOf (step (machine [running .init 0 1] [.driverWrite 128 7])) = some .v11Race ∧
    refusalOf (step (machine [running .init 0 1] [.driverWrite 0 7])) = some .v11Race ∧
    (memoryAfter (step (machine [running .init 0 1] [.driverWrite 255 7]))).isSome ∧
    refusalOf (step (machine [running .init 0 1] [.driverRead 128])) = some .v11Race ∧
    (memoryAfter (step (machine [running .init 0 1] [.driverRead 0]))).isSome ∧
    memoryAfter (step (machine [running .init 0 1] [.driverRead 300])) = none := by decide +kernel

theorem witness_SteppedCallEqualsWholeCall : decode packAEngine.cmd = .ok .packA ∧
    decode (kernelEngine 0x14 6).cmd = .ok (.kern8x6 true) := by decide

theorem witness_NoOverflowInsideTheBound : ∃ e : Engine, e.klen = 131068 ∧
    (-2 ^ 31 : Int) ≤ 0 - 16256 * e.klen ∧ (0 : Int) + 16384 * e.klen ≤ 2 ^ 31 - 1 ∧ e.klen % 4 = 0 :=
  ⟨latched 0x14 [0, 0, 131068, 0, 6], by decide +kernel⟩

theorem witness_InitAndStep : (4 ≤ 8 ∧ 6 ≤ 6) ∧ ((3 < 4 ∧ 5 < 6) ∧ 4 ≤ 7) ∧ (4 * 4 ≤ 31 ∧ 31 < 32) := by decide

/-- One call over `K = 8` and its two halves. -/
theorem witness_SplitKEqualsOneCall : ∃ e e₁ e₂ : Engine, KernelContract 4 4 1 e room ∧ e.klen = 4 + 4 ∧
    e₁.aptr = e.aptr ∧ e₁.bptr = e.bptr ∧ e₁.klen = 4 ∧ e₁.outp = e.outp ∧ e₁.ldc = e.ldc ∧
    e₂.aptr = e.aptr + 4 * 4 ∧ e₂.bptr = e.bptr + 4 * 4 ∧ e₂.klen = 4 ∧ e₂.outp = e.outp ∧ e₂.ldc = e.ldc :=
  ⟨latched 0x37 [0, 32, 8, 64, 4], latched 0x37 [0, 32, 4, 64, 4], latched 0x27 [16, 48, 4, 64, 4],
    Job.violation_eq_none (i := .kern4x4 true 1).1 (by decide +kernel), by decide +kernel⟩

/-- A B panel whose columns are all zero. -/
theorem witness_ZeroColumnAddsNothing :
    (memoryAfter (exec (.kern4x4 false 1) (presented [0, 16, 4, 32, 4] (memoryOf [(0, List.replicate 96 0)])))).isSome ∧
    ∀ st, st < 1 → ∀ kk, kk < 4 →
      Memory.read (memoryOf [(0, List.replicate 96 0)]) (16 + 4 * 4 * st + 4 * 0 + kk) = 0 := by decide +kernel

/-- Two memories that differ in a byte a cold call does not read. -/
theorem witness_NothingElseIsRead : ∃ m' : Memory, Contract (jobOf (.kern4x4 true 1)) (kernelEngine 0x37 4) room ∧
    Contract (jobOf (.kern4x4 true 1)) (kernelEngine 0x37 4) m' ∧ Memory.get? m' 64 ≠ Memory.get? room 64 ∧
    ∀ a, Reads (jobOf (.kern4x4 true 1)) (kernelEngine 0x37 4) a → Memory.get? room a = Memory.get? m' a := by
  refine ⟨Memory.set room 64 7, Job.violation_eq_none.1 (by decide +kernel), Job.violation_eq_none.1 (by decide +kernel),
    by decide +kernel, fun a ha => ?_⟩
  rw [Memory.get?_set, if_neg]
  rintro rfl
  rcases ha with (⟨h, h'⟩ | ⟨h, h'⟩) | ⟨h, -⟩
  · exact absurd h' (by decide +kernel)
  · exact absurd h' (by decide +kernel)
  · exact absurd h (by decide)

/-- A packer of each kind, in one memory, that do not disturb each other. -/
theorem witness_IndependentCallsCommute : ∃ e f : Engine, Memory.wf room ∧ Contract (jobOf .packA) e room ∧
    Contract (jobOf .packB) f room ∧ Independent (jobOf .packA) e (jobOf .packB) f :=
  ⟨latched 1 [128, 0, 16, 0, 4, 0, 4], latched 2 [160, 0, 16, 0, 4, 0, 4], room_wf,
    Job.violation_eq_none.1 (by decide +kernel), Job.violation_eq_none.1 (by decide +kernel),
    (conflict_eq_false _ _ _ _).1 (by decide +kernel)⟩

/-! The packed product: `A` 4 by 4 at 0, `B` 4 by 4 at 16, panels at 32 and 48, destination at 64. -/

/-- The three calls on one engine. -/
def productRun : State := machine [Engine.reset]
  [.call 0 0x00000001 (operands [32, 0, 16, 0, 4, 0, 4]), .call 0 0x00000002 (operands [48, 16, 16, 0, 4, 0, 4]),
    .call 0 0x00000097 (operands [32, 48, 4, 64, 4])]

theorem witness_PackedProduct_runs : (memoryAfter (Host.Core.run core 3 productRun)).isSome := by decide +kernel

theorem witness_PackedProduct_panels :
    IsPanelA (holding (operands [32, 0, 16, 0, 4, 0, 4])) 4 (holding (operands [32, 48, 4, 64, 4])).aptr 0 ∧
    IsPanelB (holding (operands [48, 16, 16, 0, 4, 0, 4])) 4 4 (holding (operands [32, 48, 4, 64, 4])).bptr 0 :=
  ⟨.inr ⟨rfl, by decide +kernel⟩, .inr (.inl ⟨rfl, by decide +kernel⟩)⟩

theorem witness_PackedProduct_apart : ∀ a,
    (PackAWrites (holding (operands [32, 0, 16, 0, 4, 0, 4])) a →
      ¬ PackBReads (holding (operands [48, 16, 16, 0, 4, 0, 4])) a ∧
      ¬ PackBWrites (holding (operands [48, 16, 16, 0, 4, 0, 4])) a) ∧
    (TileBytes 4 4 (holding (operands [32, 48, 4, 64, 4])) a →
      ¬ PackAWrites (holding (operands [32, 0, 16, 0, 4, 0, 4])) a ∧
      ¬ PackBWrites (holding (operands [48, 16, 16, 0, 4, 0, 4])) a) := by
  intro a
  rw [← mem_packAPacked, ← mem_packBSource, ← mem_packBPacked, ← mem_tile]
  have h : (∀ a ∈ (holding (operands [32, 0, 16, 0, 4, 0, 4])).packAPacked,
        a ∉ (holding (operands [48, 16, 16, 0, 4, 0, 4])).packBSource ∧
        a ∉ (holding (operands [48, 16, 16, 0, 4, 0, 4])).packBPacked) ∧
      (∀ a ∈ (holding (operands [32, 48, 4, 64, 4])).tile 4 4,
        a ∉ (holding (operands [32, 0, 16, 0, 4, 0, 4])).packAPacked ∧
        a ∉ (holding (operands [48, 16, 16, 0, 4, 0, 4])).packBPacked) := by decide +kernel
  exact ⟨h.1 a, h.2 a⟩

/-! How a program comes to run (log 8): with a command word in front, the step after reset runs it. -/

theorem test_withFetchWord_runs_a_command :
    (memoryAfter (step (State.reset.withFetchWord 32 0x00000037))).isSome := by decide +kernel

end Sys2Proof.Tests
end

/-! SUPPORT. What a call's footprint and contract depend on, and what its writes leave of memory (20_memory.md R54, R80;
10_state.md R31). -/

namespace Sys2Proof.Machine

open Sys2Proof.Safety

/-! The footprint and the contract of a call depend on its operands alone (R21, R31). -/

theorem reads_holding (j : Job) (e : Engine) : Reads j (holding e.x) = Reads j e := by cases j <;> rfl

theorem writes_holding (j : Job) (e : Engine) : Writes j (holding e.x) = Writes j e := by cases j <;> rfl

theorem contract_holding (j : Job) (e : Engine) (m : Memory) : Contract j (holding e.x) m ↔ Contract j e m := by
  cases j with
  | packA => exact ⟨fun ⟨a, b, c, d, f, g⟩ => ⟨a, b, c, d, f, g⟩, fun ⟨a, b, c, d, f, g⟩ => ⟨a, b, c, d, f, g⟩⟩
  | packB => exact ⟨fun ⟨a, b, c, d, f, g⟩ => ⟨a, b, c, d, f, g⟩, fun ⟨a, b, c, d, f, g⟩ => ⟨a, b, c, d, f, g⟩⟩
  | kernel mr nr nv first =>
    exact ⟨fun ⟨a, b, c, d, f, g⟩ => ⟨a, b, c, d, f, g⟩, fun ⟨a, b, c, d, f, g⟩ => ⟨a, b, c, d, f, g⟩⟩

section
variable {e f : Engine} (h : e.x = f.x)
include h

theorem reads_of_x (j : Job) : Reads j e = Reads j f := by rw [← reads_holding, h, reads_holding]

theorem writes_of_x (j : Job) : Writes j e = Writes j f := by rw [← writes_holding, h, writes_holding]

theorem contract_of_x (j : Job) (m : Memory) : Contract j e m ↔ Contract j f m := by
  rw [← contract_holding, h, contract_holding]

theorem noRace_of_x (s : State) (n : Nat) (j : Job) : NoRace s n j e ↔ NoRace s n j f := by
  simp only [NoRace, Independent, reads_of_x h, writes_of_x h]

end

theorem independent_symm {j k : Job} {e f : Engine} (h : Independent j e k f) : Independent k f j e :=
  fun a => ⟨fun hk => ⟨(h a).2 hk, fun hj => ((h a).1 hj).2 hk⟩, fun hj => ((h a).1 hj).1⟩

/-- The contract needs no more of memory than that the bytes of the call are accessible (V8). -/
theorem contract_mono {j : Job} {e : Engine} {m m' : Memory} (hm : ∀ a, Accessible m a → Accessible m' a)
    (h : Contract j e m) : Contract j e m' := by
  cases j with
  | packA => exact { (h : PackAContract e m) with v8 := fun a ha => hm a (PackAContract.v8 h a ha) }
  | packB => exact { (h : PackBContract e m) with v8 := fun a ha => hm a (PackBContract.v8 h a ha) }
  | kernel mr nr nv first =>
    exact { (h : KernelContract mr nr nv e m) with v8 := fun a ha => hm a (KernelContract.v8 h a ha) }

/-- Inside the contract every byte a call writes is accessible (V8). -/
theorem accessible_of_writes {j : Job} {e : Engine} {m : Memory} {a : Nat} (h : Contract j e m)
    (ha : Writes j e a) : Accessible m a := by
  cases j with
  | packA => exact PackAContract.v8 h a (.inr ha)
  | packB => exact PackBContract.v8 h a (.inr ha)
  | kernel mr nr nv first => exact KernelContract.v8 h a (.inr ha)

/-! What the writes of a call leave of memory. -/

/-- `m'` is `m` after writes of the call `j` on `e`: bytes outside its output region are as before, listed addresses
stay listed, and addresses still rise (R54, R126, R147, R177). -/
structure Leaves (j : Job) (e : Engine) (m m' : Memory) : Prop where
  outside : ∀ a, ¬ Writes j e a → Memory.get? m' a = Memory.get? m a
  listed : ∀ a, Memory.get? m a ≠ none → Memory.get? m' a ≠ none
  rising : Memory.Rising m → Memory.Rising m'

theorem Leaves.refl (j : Job) (e : Engine) (m : Memory) : Leaves j e m m := ⟨fun _ _ => rfl, fun _ h => h, id⟩

section
variable {j : Job} {e : Engine} {m m' : Memory} (h : Leaves j e m m')
include h

/-- `Valid` is as before (R54). -/
theorem Leaves.valid (hc : Contract j e m) (a : Nat) : Memory.get? m' a = none ↔ Memory.get? m a = none := by
  refine ⟨fun ha => by_contra fun hn => h.listed a hn ha, fun ha => ?_⟩
  rw [h.outside a fun hw => ?_, ha]
  obtain ⟨-, b, hb⟩ := accessible_of_writes hc hw
  simp [ha] at hb

theorem Leaves.accessible (a : Nat) (ha : Accessible m a) : Accessible m' a := by
  obtain ⟨hlt, b, hb⟩ := ha
  exact ⟨hlt, Option.ne_none_iff_exists'.1 (h.listed a (by simp [hb]))⟩

theorem Leaves.wf (hc : Contract j e m) (hm : Memory.wf m) : Memory.wf m' :=
  Memory.wf_of_same_addresses hm (h.rising hm.1) (h.valid hc)

end

/-- The stores of a tile write that tile (R169, R177); only the operands of the engine that stores matter. -/
theorem get?_storeTile_of_not_tileBytes {e f : Engine} (hx : f.x = e.x) {mr nv : Nat} (m : Memory) {a : Nat}
    (ha : ¬ TileBytes mr nv e a) : Memory.get? (f.storeTile mr nv m) a = Memory.get? m a := by
  refine f.get?_storeTile_outside mr nv m fun i j hi hj ⟨hlo, hhi⟩ => ha ?_
  rw [f.addrC_eq, Engine.outp, Engine.ldc, Engine.operand_of_x hx] at hlo hhi
  exact ⟨i, j, a - (e.outp + 4 * (i * e.ldc + j)), hi, hj, by simp only [Engine.outp, Engine.ldc]; omega,
    by simp only [Engine.outp, Engine.ldc]; omega⟩

/-- Cells copied to addresses that do not wrap stay in their `16*n` bytes (R122). -/
theorem get?_copyCells_outside {src : Nat → Nat} {optr : Word} {n : Nat} (m : Memory) {a : Nat}
    (hn : optr.toNat + 16 * n < 2 ^ 64) (ha : ¬ (optr.toNat ≤ a ∧ a < optr.toNat + 16 * n)) :
    Memory.get? (copyCells src optr n m) a = Memory.get? m a := by
  refine get?_writeSeq_outside (len := fun _ => 16) (by simp) _ m fun k hk => ?_
  have hk := List.mem_range.1 hk
  have : (optr + BitVec.ofNat 64 (16 * k)).toNat = optr.toNat + 16 * k := by
    rw [BitVec.toNat_add, BitVec.toNat_ofNat]; omega
  omega

/-- The cells of the two kinds of panel of `PACK_A` fill the packed region (R60, R123). -/
theorem packA_cells {e : Engine} {m : Memory} (h : PackAContract e m) :
    16 * (2 * e.packSteps * ((e.hi - e.lo) / 8)) +
      16 * (1 * e.packSteps * ((e.hi - (e.lo + 8 * ((e.hi - e.lo) / 8))) / 4)) = (e.hi - e.lo) * (e.kmax - e.k0) := by
  obtain ⟨-, hle, hrows⟩ := h.v3
  obtain ⟨-, -, hk⟩ := h.v4
  have hsteps : e.kmax - e.k0 = 4 * e.packSteps := by unfold Engine.packSteps Engine.packK; omega
  have hspan : e.hi - e.lo =
      8 * ((e.hi - e.lo) / 8) + 4 * ((e.hi - (e.lo + 8 * ((e.hi - e.lo) / 8))) / 4) := by omega
  rw [hsteps]
  conv_rhs => rw [hspan]
  ring

/-- The copy of `PACK_A` writes its packed region (R126). -/
theorem get?_copyA_of_not_writes {e : Engine} (m : Memory) (hp : e.pack = e.packStart) (hc : PackAContract e m) {a : Nat}
    (ha : ¬ PackAWrites e a) : Memory.get? (e.copyA m).2 a = Memory.get? m a := by
  have hcells := packA_cells hc
  have hcur : e.pack.cursor = e.lo := by rw [hp]; rfl
  have hdst : e.pack.optr.toNat = e.dst := by rw [hp]; simp [Engine.packStart, Engine.dst, Engine.operand]
  have htop := hc.v8Computed (e.dst + 16 * ((e.hi - e.lo) * (e.kmax - e.k0) / 16)) ⟨_, by omega, rfl⟩
  unfold PackAWrites at ha
  rw [e.copyA_mem, hcur]
  set n := 2 * e.packSteps * ((e.hi - e.lo) / 8)
  set k := 1 * e.packSteps * ((e.hi - (e.lo + 8 * ((e.hi - e.lo) / 8))) / 4)
  have hmid : (e.pack.optr + BitVec.ofNat 64 (16 * n)).toNat = e.dst + 16 * n := by
    rw [BitVec.toNat_add, BitVec.toNat_ofNat, hdst]; omega
  rw [get?_copyCells_outside _ (by omega) (by omega), get?_copyCells_outside _ (by omega) (by omega)]

/-- Every run of `PACK_B` lies in the packed region (R64, R144). -/
theorem Engine.allRuns_within {e : Engine} (hk : e.packK = 4 * e.packSteps) {r : Run} (hr : r ∈ e.allRuns) :
    e.dst ≤ r.target ∧ r.target + (4 * r.cols + 4 * (r.width - r.cols)) ≤ e.dst + packBSize e := by
  have hsize : packBSize e = e.n6 * 6 * e.packK + e.n4 * 4 * e.packK + (if 0 < e.rem then 4 * e.packK else 0) := rfl
  simp only [Engine.allRuns, Engine.stepRuns, List.mem_flatMap, List.mem_append, List.mem_map, List.mem_range] at hr
  obtain ⟨s, hs, (⟨q, hq, rfl⟩ | ⟨q, hq, rfl⟩) | hshort⟩ := hr
  · have : (q + 1) * 6 * e.packK ≤ e.n6 * 6 * e.packK := by gcongr; omega
    have : (q + 1) * 6 * e.packK = q * 6 * e.packK + 6 * e.packK := by ring
    dsimp only
    omega
  · have : (q + 1) * 4 * e.packK ≤ e.n4 * 4 * e.packK := by gcongr; omega
    have : (q + 1) * 4 * e.packK = q * 4 * e.packK + 4 * e.packK := by ring
    dsimp only [Engine.b4]
    omega
  · split at hshort
    · next hrem =>
      obtain rfl := List.mem_singleton.1 hshort
      have : e.rem < 4 := Nat.mod_lt _ (by omega)
      rw [if_pos hrem] at hsize
      dsimp only [Engine.bs, Engine.b4]
      omega
    · simp at hshort

/-- The copy of `PACK_B` writes its packed region (R147). -/
theorem get?_copyB_of_not_writes {e : Engine} (m : Memory) (hc : PackBContract e m) {a : Nat}
    (ha : ¬ PackBWrites e a) : Memory.get? (e.copyB m).2 a = Memory.get? m a := by
  have hk : e.packK = 4 * e.packSteps := by
    have := hc.v4
    unfold Engine.packSteps Engine.packK
    omega
  rw [e.copyB_mem]
  refine get?_writeSeq_outside (len := fun r => 4 * r.cols + 4 * (r.width - r.cols)) (fun m r => ?_) _ m
    fun r hr hin => ha ?_
  · simp [runBytes]
  · have := Engine.allRuns_within hk hr
    exact ⟨by omega, by omega⟩

/-- One step of a call in sequence and inside the contract writes its output region only (R126, R147, R177). -/
theorem leaves_tick {j : Job} {e : Engine} {m : Memory} (d : Nat) (hs : InSequence j e) (hc : Contract j e m) :
    Leaves j e m (j.tick d (e, m)).2 := by
  refine ⟨fun a ha => ?_, fun a => j.listed_tick d e m a, j.rising_tick d e m⟩
  cases j with
  | packA => rw [Job.tick_packA hs.1]; exact get?_copyA_of_not_writes m hs.2 hc ha
  | packB => rw [Job.tick_packB hs.1]; exact get?_copyB_of_not_writes m hc ha
  | kernel mr nr nv first =>
    rcases hp : e.phase with _ | _ | _ | _ | _ | _ <;> simp only [Job.tick, hp]
    case store => exact get?_storeTile_of_not_tileBytes rfl m ha

/-- A whole call inside the contract writes its output region only (R126, R147, R177). -/
theorem leaves_run {j : Job} {e : Engine} {m : Memory} (d : Nat) (hc : Contract j e m) :
    Leaves j e m (j.run d e m).2 := by
  have hb := Job.begin_x j e
  have packer (hs : InSequence j (j.begin e)) : Leaves j e m (j.tick d (j.begin e, m)).2 := by
    have hl := leaves_tick d hs ((contract_of_x hb _ m).2 hc)
    exact ⟨fun a ha => hl.outside a (writes_of_x hb j ▸ ha), hl.listed, hl.rising⟩
  cases j with
  | packA => exact packer ⟨rfl, rfl⟩
  | packB => exact packer ⟨rfl, rfl⟩
  | kernel mr nr nv first =>
    rw [Job.run_kernel]
    exact ⟨fun a ha => get?_storeTile_of_not_tileBytes (by simp) m ha, fun a => Engine.listed_storeTile _ mr nv m a,
      Engine.rising_storeTile _ mr nv m⟩

end Sys2Proof.Machine

/-! SUPPORT. The invariant of the machine: every operation keeps it (10_state.md R23, R31; 20_memory.md R54, R80;
60_exceptions.md R211, R214). -/

namespace Sys2Proof.Machine

open Sys2Proof.Safety

/-! The invariant and the state. -/

/-- An idle engine runs nothing, so it runs well. -/
theorem runningWell_of_idle {s : State} {n : Nat} {e : Engine} (h : e.phase = .idle) : RunningWell s n e :=
  fun hp => absurd h hp

/-- What the own engine of a call holds plays no part in its races (R80). -/
theorem noRace_set {s t : State} {n : Nat} {f : Engine} (h : t.engines = s.engines.set n f) (j : Job) (e : Engine) :
    NoRace t n j e ↔ NoRace s n j e := by
  have others : ∀ k, k ≠ n → t.engines[k]? = s.engines[k]? := fun k hk => by
    rw [h, List.getElem?_set_ne (Ne.symm hk)]
  constructor
  · exact fun hr k g i hg hk => hr k g i (by rw [others k hk, hg]) hk
  · exact fun hr k g i hg hk => hr k g i (by rw [← others k hk, hg]) hk

/-- The engine found in the place just written is the one written there. -/
theorem eq_of_getElem?_set {l : List Engine} {n : Nat} {f g : Engine} (h : (l.set n f)[n]? = some g) : f = g := by
  rw [List.getElem?_set_self'] at h
  exact (Option.map_eq_some_iff.1 h).elim fun _ hg => hg.2

/-- A change of memory that keeps the canonical form and the accessible bytes keeps the invariant. -/
theorem inv_of_engines_eq {s t : State} (hs : Inv s) (he : t.engines = s.engines) (hm : Memory.wf t.mem)
    (ha : ∀ a, Accessible s.mem a → Accessible t.mem a) : Inv t := by
  refine ⟨hm, by rw [he]; exact hs.engines, fun n e hn hp => ?_⟩
  rw [he] at hn
  obtain ⟨i, hd, hseq, hc, hr⟩ := hs.running n e hn hp
  exact ⟨i, hd, hseq, contract_mono ha hc, fun k f i' hk => hr k f i' (he ▸ hk)⟩

/-- An engine that runs well can take the place of another one: the races of the rest with it are its own with the
rest (R80). -/
theorem inv_of_set {s t : State} {n : Nat} {f : Engine} (hs : Inv s) (he : t.engines = s.engines.set n f)
    (hm : Memory.wf t.mem) (ha : ∀ a, Accessible s.mem a → Accessible t.mem a) (hf : RunningWell t n f) : Inv t := by
  refine ⟨hm, by rw [he, ne_eq, List.set_eq_nil_iff]; exact hs.engines, fun k g hk => ?_⟩
  by_cases hkn : k = n
  · subst hkn
    obtain rfl := eq_of_getElem?_set (he ▸ hk)
    exact hf
  · rw [he, List.getElem?_set_ne (Ne.symm hkn)] at hk
    intro hp
    obtain ⟨i, hd, hseq, hc, hr⟩ := hs.running k g hk hp
    refine ⟨i, hd, hseq, contract_mono ha hc, fun l g' i' hl hlk hp' hd' => ?_⟩
    by_cases hln : l = n
    · subst hln
      obtain rfl := eq_of_getElem?_set (he ▸ hl)
      obtain ⟨i₂, hd₂, -, -, hr₂⟩ := hf hp'
      obtain rfl : i₂ = i' := Except.ok.inj (hd₂.symm.trans hd')
      refine independent_symm (hr₂ k g i ?_ hkn hp hd)
      rw [he, List.getElem?_set_ne (Ne.symm hkn), hk]
    · rw [he, List.getElem?_set_ne (Ne.symm hln)] at hl
      exact hr l g' i' hl hlk hp' hd'

/-! Running calls. -/

/-- A call in sequence is not in `IDLE` (R23). -/
theorem inSequence_busy {j : Job} {e : Engine} (h : InSequence j e) : e.phase ≠ .idle := by
  intro hp
  cases j with
  | packA => cases hp.symm.trans h.1
  | packB => cases hp.symm.trans h.1
  | kernel mr nr nv first => simpa only [hp] using h.2

/-- Engine `n` holds `e` and runs the command `i` well (R23, R80, R211). -/
structure Runs (s : State) (n : Nat) (i : Instr) (e : Engine) : Prop where
  engine : s.engines[n]? = some e
  decodes : decode e.cmd = .ok i
  inSequence : InSequence (jobOf i) e
  contract : Contract (jobOf i) e s.mem
  noRace : NoRace s n (jobOf i) e

theorem Runs.runningWell {s : State} {n : Nat} {i : Instr} {e : Engine} (h : Runs s n i e) : RunningWell s n e :=
  fun _ => ⟨i, h.decodes, h.inSequence, h.contract, h.noRace⟩

/-- The engine that a step of the sequencer leaves (R23). -/
theorem State.ticked_getElem? {s : State} {n : Nat} {e : Engine} (hn : s.engines[n]? = some e) (j : Job) :
    (s.ticked n j e).engines[n]? = some (j.tick s.draws (e, s.mem)).1 :=
  List.getElem?_set_self (List.getElem?_eq_some_iff.1 hn).1

theorem State.ticked_getElem?_ne (s : State) {n k : Nat} (e : Engine) (j : Job) (h : k ≠ n) :
    (s.ticked n j e).engines[k]? = s.engines[k]? := List.getElem?_set_ne (Ne.symm h)

/-- A running call takes its last step, which ends it, or a step that leaves memory and keeps it running (R23, R31). -/
theorem Runs.tick {s : State} {n : Nat} {i : Instr} {e : Engine} (h : Runs s n i e) :
    ((e.phase = .store ∨ e.phase = .copy) ∧ ((jobOf i).tick s.draws (e, s.mem)).1 = Engine.afterCall s.draws) ∨
    ((e.phase ≠ .store ∧ e.phase ≠ .copy) ∧ ∃ f, (jobOf i).tick s.draws (e, s.mem) = (f, s.mem) ∧ f.x = e.x ∧
      f.cmd = e.cmd ∧ f.odd = e.odd ∧ Runs (s.ticked n (jobOf i) e) n i f) := by
  rcases tickDoes i s.draws e s.mem h.inSequence with hend | ⟨hp, f, htick, hx, hcmd, hodd, -, hseq⟩
  · exact .inl hend
  have hengine := State.ticked_getElem? h.engine (jobOf i)
  rw [htick] at hengine
  refine .inr ⟨hp, f, htick, hx, hcmd, hodd, hengine, hcmd ▸ h.decodes, hseq, ?_, ?_⟩
  · simpa only [State.ticked, htick, contract_of_x hx] using h.contract
  · rw [noRace_of_x hx]
    exact (noRace_set rfl _ _).2 h.noRace

/-- A call that begins inside the contract runs well (R80, R211). -/
theorem runs_begin {s : State} {n : Nat} {i : Instr} {e : Engine} (hn : s.engines[n]? = some e)
    (hd : decode e.cmd = .ok i) (hc : Contract (jobOf i) e s.mem) (hr : NoRace s n (jobOf i) e) :
    Runs (s.setEngine n ((jobOf i).begin e)) n i ((jobOf i).begin e) := by
  have hx := Job.begin_x (jobOf i) e
  refine ⟨List.getElem?_set_self (List.getElem?_eq_some_iff.1 hn).1, by rw [Job.begin_cmd, hd], inSequence_begin i e,
    (contract_of_x hx _ _).2 hc, ?_⟩
  rw [noRace_of_x hx]
  exact (noRace_set rfl _ _).2 hr

/-- A step of an engine in a machine that meets the invariant: nothing if it is idle, else one of a call that runs well
(R219, R250). -/
theorem advance_next_of_inv {n : Nat} {s t : State} (hs : Inv s) (h : advance n s = .next t) :
    ∃ e, s.engines[n]? = some e ∧
      ((e.phase = .idle ∧ t = s) ∨ ∃ i, Runs s n i e ∧ t = s.ticked n (jobOf i) e) := by
  obtain ⟨e, hn, hidle | ⟨hp, j, hj, -, rfl⟩⟩ := advance_next.1 h
  · exact ⟨e, hn, .inl hidle⟩
  obtain ⟨i, hd, hseq, hc, hr⟩ := hs.running n e hn hp
  obtain rfl : jobOf i = j := Option.some.inj ((Engine.job?_busy hp hd).symm.trans hj)
  exact ⟨e, hn, .inr ⟨i, ⟨hn, hd, hseq, hc, hr⟩, rfl⟩⟩

/-! The operations. -/

/-- A step of the sequencer keeps the invariant (R23, R31). -/
theorem inv_advance {n : Nat} {s t : State} (hs : Inv s) (h : advance n s = .next t) : Inv t := by
  obtain ⟨e, hn, ⟨-, rfl⟩ | ⟨i, hrun, rfl⟩⟩ := advance_next_of_inv hs h
  · exact hs
  have hl := leaves_tick s.draws hrun.inSequence hrun.contract
  refine inv_of_set hs rfl (hl.wf hrun.contract hs.memory) hl.accessible ?_
  rcases hrun.tick with ⟨-, hend⟩ | ⟨-, f, htick, -, -, -, hrun'⟩
  · exact runningWell_of_idle (by rw [hend]; rfl)
  · rw [htick]
    exact hrun'.runningWell

/-- Latching a call on an idle engine replaces that engine (R21, R22). -/
theorem State.latch_getElem? {s : State} {n : Nat} {e : Engine} (hn : s.engines[n]? = some e) (cmd : CmdWord)
    (x : Vector Word 7) : (s.latch n e cmd x).engines[n]? = some { e with cmd := cmd, x := x } :=
  List.getElem?_set_self (List.getElem?_eq_some_iff.1 hn).1

/-- A latched call has not begun: the invariant stays (R90). -/
theorem inv_latch {s : State} {n : Nat} {e : Engine} (hs : Inv s) (hp : e.phase = .idle) (cmd : CmdWord)
    (x : Vector Word 7) : Inv (s.latch n e cmd x) :=
  inv_of_set hs rfl hs.memory (fun _ => id) (runningWell_of_idle hp)

/-- A call that starts inside the contract keeps the invariant (R80, R211). -/
theorem inv_startJob {i : Instr} {s t : State} (hs : Inv s)
    (hd : ∀ e, s.engines[s.active]? = some e → decode e.cmd = .ok i) (h : startJob (jobOf i) s = .next t) : Inv t := by
  obtain ⟨e, hn, -, hv, rfl⟩ := startJob_next.1 h
  obtain ⟨hc, hr⟩ := (State.violation_eq_none i s s.active e).1 hv
  exact inv_of_set hs rfl hs.memory (fun _ => id) (runs_begin hn (hd e hn) hc hr).runningWell

/-- `exec` completes only as the whole call of its work; an ill-formed command is refused (R98). -/
theorem runJob_of_exec {i : Instr} {s t : State} (h : exec i s = .next t) : runJob (jobOf i) s = .next t := by
  cases i with
  | packA => exact h
  | packB => exact h
  | kern8x6 first => exact h
  | kern4x6 first => exact h
  | kern8x4 first nrem =>
    simp only [exec, execKern8x4] at h
    split at h
    · exact h
    · cases h
  | kern4x4 first nrem =>
    simp only [exec, execKern4x4] at h
    split at h
    · exact h
    · cases h

/-- A whole call keeps the invariant (R31, R54). -/
theorem inv_exec {i : Instr} {s t : State} (hs : Inv s) (h : exec i s = .next t) : Inv t := by
  obtain ⟨e, hn, -, hv, rfl⟩ := runJob_next.1 (runJob_of_exec h)
  obtain ⟨hc, -⟩ := (State.violation_eq_none i s s.active e).1 hv
  have hl := leaves_run s.draws hc
  exact inv_of_set hs rfl (hl.wf hc hs.memory) hl.accessible (runningWell_of_idle (by rw [Job.run_fst]; rfl))

/-- A driver's store keeps the invariant (R28, R54). -/
theorem inv_driverWrite {a : Word} {b : Byte} {s t : State} (hs : Inv s) (h : driverWrite a b s = .next t) : Inv t := by
  unfold driverWrite at h
  split at h
  · cases h
  · cases h
    refine inv_of_engines_eq hs rfl (Memory.wf_set b hs.memory a.isLt) fun x ⟨hlt, c, hx⟩ => ⟨hlt, ?_⟩
    simp only [Memory.get?_set]
    split
    · exact ⟨b, rfl⟩
    · exact ⟨c, hx⟩

/-- A driver's load changes nothing (R28). -/
theorem driverRead_next {a : Word} {s t : State} (h : driverRead a s = .next t) : t = s := by
  unfold driverRead at h
  split at h
  · cases h
  · split at h <;> cases h
    rfl

/-- The bytes an abandoned call leaves keep the canonical form (R214). -/
theorem wf_abandon {e : Engine} {m : Memory} (d n : Nat) (hm : Memory.wf m)
    (h : ∀ j, e.job? = some j → ∀ a ∈ j.outputs e, a < Config.addressLimit) : Memory.wf (abandon d n e m) := by
  have mixed : ∀ j, e.job? = some j → Memory.wf (abandon.mixed d n e m j) := by
    intro j hj
    refine List.foldlRecOn (j.outputs e) _ hm fun acc hacc a ha => ?_
    split
    · exact Memory.wf_set _ hacc (h j hj a ha)
    · exact hacc
  unfold abandon
  split
  · exact mixed _ ‹_›
  · exact mixed _ ‹_›
  · exact hm

/-- Reset keeps the invariant: every engine is idle, and memory stays canonical (R214, R240). -/
theorem inv_platformReset {s t : State} (hs : Inv s) (h : platformReset s = .next t) : Inv t := by
  unfold platformReset at h
  split at h
  · cases h
  · cases h
    refine ⟨?_, by simpa using hs.engines, fun n e hn => runningWell_of_idle ?_⟩
    · refine List.foldlRecOn s.engines.zipIdx _ hs.memory fun m hm p hp => wf_abandon _ _ hm fun j hj a ha => ?_
      obtain ⟨hbusy, i, hd, rfl⟩ := Engine.job?_some hj
      obtain ⟨i', hd', -, hc, -⟩ := hs.running p.2 p.1 (List.mem_zipIdx_iff_getElem?.1 hp) hbusy
      obtain rfl : i = i' := Except.ok.inj (hd.symm.trans hd')
      exact (accessible_of_writes hc ((mem_outputs i p.1 a).1 ha)).1
    · obtain ⟨e', -, rfl⟩ := List.mem_map.1 (List.mem_of_getElem? hn)
      rfl

/-- Every action of the outside world keeps the invariant (R90, R250). -/
theorem inv_handle {ev : Event} {s t : State} (hs : Inv s) (h : handle ev s = .next t) : Inv t := by
  cases ev with
  | call n cmd x =>
    obtain ⟨e, i, -, hp, -, hx⟩ := present_next.1 h
    exact inv_exec (inv_latch hs hp cmd x) hx
  | start n cmd x =>
    obtain ⟨e, i, hn, hp, hd, hx⟩ := present_next.1 h
    refine inv_startJob (inv_latch hs hp cmd x) (fun f hf => ?_) hx
    obtain rfl := Option.some.inj ((State.latch_getElem? hn cmd x).symm.trans hf)
    exact hd
  | advance n => exact inv_advance hs h
  | driverWrite a b => exact inv_driverWrite hs h
  | driverRead a => exact driverRead_next h ▸ hs
  | reset => exact inv_platformReset hs h

/-- When the outside world does nothing, the invariant stays (R250, R251). -/
theorem inv_goOn {s t : State} (hs : Inv s) (h : goOn s = .next t) : Inv t := by
  unfold goOn at h
  split at h
  · exact inv_advance hs h
  · cases h
    exact hs

/-- The plans of the outside world are no part of the invariant (log 7). -/
theorem inv_withAgenda {s : State} (hs : Inv s) (l : List Event) : Inv { s with agenda := l } :=
  inv_of_engines_eq hs rfl hs.memory fun _ => id

/-- Settles O34: each action of the outside world and each step of a running call keeps the invariant. -/
theorem stepKeepsTheInvariant : Obligations.StepKeepsTheInvariant := by
  intro s t hs h
  unfold step at h
  split at h
  · exact inv_goOn hs h
  · exact inv_handle (inv_withAgenda hs _) h

/-! Reset (R32, R240). -/

/-- The machine right after reset meets the invariant, however many engines it has. -/
theorem inv_resetWith {n : Nat} (hn : 0 < n) : Inv (State.resetWith n) := by
  refine ⟨Memory.wf_nil, by simpa using Nat.ne_of_gt hn, fun k e hk => runningWell_of_idle ?_⟩
  obtain rfl := List.eq_of_mem_replicate (List.mem_of_getElem? hk)
  rfl

/-- Settles O35: nothing runs right after reset, and nothing moves until the driver acts. -/
theorem resetIsIdleAndInvariant : Obligations.ResetIsIdleAndInvariant := by
  refine ⟨fun n hn => inv_resetWith hn, inv_resetWith (by decide), fun n e he => ?_, rfl⟩
  obtain rfl := List.eq_of_mem_replicate he
  rfl

/-! Whole calls and calls that start (R31, R90). -/

/-- Settles O30: the completed call wrote inside its contract, and only its own engine was replaced. -/
theorem completedCallFrame : Obligations.CompletedCallFrame := by
  intro i s t e _ he h
  obtain ⟨e', hn, -, hv, rfl⟩ := runJob_next.1 (runJob_of_exec h)
  obtain rfl := Option.some.inj (he.symm.trans hn)
  obtain ⟨hc, -⟩ := (State.violation_eq_none i s s.active e).1 hv
  have hl := leaves_run s.draws hc
  refine ⟨hl.outside, hl.valid hc, ⟨_, List.getElem?_set_self (List.getElem?_eq_some_iff.1 hn).1, ?_⟩,
    fun n hn => List.getElem?_set_ne (Ne.symm hn), List.length_set, rfl, rfl⟩
  rw [Job.run_fst]
  rfl

/-- Settles O31: what `Job.begin` sets, packer by packer and for the kernels at once. -/
theorem startSetsTheSequencer : Obligations.StartSetsTheSequencer := by
  intro i s e _ ⟨hn, hp, hc, hr⟩
  refine ⟨(jobOf i).begin e, startJob_next.2 ⟨e, hn, hp, (State.violation_eq_none i s s.active e).2 ⟨hc, hr⟩, rfl⟩,
    Job.begin_x _ e, Job.begin_cmd _ e, ?_, ?_⟩
  · have hoptr : (BitVec.ofNat 64 e.dst).toNat = e.dst := by simp [Engine.dst, Engine.operand]
    rintro (rfl | rfl) <;> exact ⟨rfl, hoptr, rfl⟩
  · intro hA hB
    have kernel : ∀ mr nr nv first, ((Job.kernel mr nr nv first).begin e).phase = .init ∧
        ((Job.kernel mr nr nv first).begin e).step.toNat = 0 ∧
        ((Job.kernel mr nr nv first).begin e).trips.toNat = e.klen / 4 / 2 ∧
        ((Job.kernel mr nr nv first).begin e).odd.toNat = e.klen / 4 % 2 :=
      fun _ _ _ _ => ⟨rfl, rfl, toNat_tripCount e, toNat_odd (e := Job.begin _ e) rfl⟩
    cases i with
    | packA => exact absurd rfl hA
    | packB => exact absurd rfl hB
    | kern8x6 first => exact kernel _ _ _ _
    | kern4x6 first => exact kernel _ _ _ _
    | kern8x4 first nrem => exact kernel _ _ _ _
    | kern4x4 first nrem => exact kernel _ _ _ _

end Sys2Proof.Machine

/-! SUPPORT. The memory a call leaves depends on its operands and on memory alone (10_state.md R31,
44_kernels_remainder.md R203). -/

namespace Sys2Proof.Machine

open Sys2Proof.Safety

/-! Packers. -/

theorem copyA_begin_holding (e : Engine) (m : Memory) :
    (Job.packA.begin (holding e.x)).copyA m = (Job.packA.begin e).copyA m := rfl

theorem copyB_begin_holding (e : Engine) (m : Memory) :
    (Job.packB.begin (holding e.x)).copyB m = (Job.packB.begin e).copyB m := rfl

/-- A packer's copy depends on the operands alone: its working registers are set from them when the call starts (R27,
R122, R143). -/
theorem run_packer_of_x {j : Job} (hj : j = .packA ∨ j = .packB) {d d' : Nat} {e e' : Engine} (m : Memory)
    (h : e.x = e'.x) : (j.run d e m).2 = (j.run d' e' m).2 := by
  rcases hj with rfl | rfl
  · show ((Job.packA.begin e).copyA m).2 = ((Job.packA.begin e').copyA m).2
    rw [← copyA_begin_holding, h, copyA_begin_holding]
  · show ((Job.packB.begin e).copyB m).2 = ((Job.packB.begin e').copyB m).2
    rw [← copyB_begin_holding, h, copyB_begin_holding]

/-! Kernels. -/

section
variable {mr nr nv : Nat} {e e' : Engine} (h : e.x = e'.x)
include h

theorem addrC_of_x (i j : Nat) : e.addrC i j = e'.addrC i j := by
  simp only [Engine.addrC_eq, Engine.outp, Engine.ldc, Engine.operand_of_x h]

/-- A lane of the tile after a reduction step depends on the operands, on memory and on that lane before it (R166). -/
theorem accAt_rstep_congr (hmr : mr ≤ 8) (hnr : nr ≤ 6) {i j : Nat} (hi : i < mr) (hj : j < nr)
    (hl : e.accAt i j = e'.accAt i j) (s : Nat) (m : Memory) :
    (e.rstep mr nr s m).accAt i j = (e'.rstep mr nr s m).accAt i j := by
  simp only [Engine.accAt_rstep _ s m hmr hnr hi hj, hl, Engine.aptr, Engine.bptr, Engine.operand_of_x h]

/-- So does a lane after any number of reduction steps (R168). -/
theorem accAt_rsteps_congr (hmr : mr ≤ 8) (hnr : nr ≤ 6) {i j : Nat} (hi : i < mr) (hj : j < nr)
    (hl : e.accAt i j = e'.accAt i j) (a n : Nat) (m : Memory) :
    (e.rsteps mr nr a n m).accAt i j = (e'.rsteps mr nr a n m).accAt i j := by
  induction n generalizing e e' a with
  | zero => exact hl
  | succ n ih =>
    rw [Engine.rsteps_succ, Engine.rsteps_succ]
    exact ih (by simpa using h) (accAt_rstep_congr h hmr hnr hi hj hl a m) (a + 1)

/-- A lane of a valid column after `INIT` holds zero or the destination element, whatever the free values (R164). -/
theorem accAt_initTile_congr (hmr : mr ≤ 8) (hnr : nr ≤ 6) (hnv : nv ≤ nr) (first : Bool) (d d' : Nat) (m : Memory)
    {i j : Nat} (hi : i < mr) (hj : j < nv) :
    (e.initTile mr nr nv first d m).accAt i j = (e'.initTile mr nr nv first d' m).accAt i j := by
  have lane : ∀ (g : Engine) k, (g.initTile mr nr nv first k m).accAt i j = g.initLane nv first k m i j := fun g k => by
    rw [accAt_accFile (g.initTile mr nr nv first k m) _ (by omega : i < 8) (by omega : j < 6) rfl,
      if_pos ⟨hi, by omega⟩]
  simp only [lane, Engine.initLane, if_pos hj, addrC_of_x h]

/-- The stores depend on the operands and on the lanes of the valid elements (R169). -/
theorem storeTile_congr (hl : ∀ i j, i < mr → j < nv → e.accAt i j = e'.accAt i j) (m : Memory) :
    e.storeTile mr nv m = e'.storeTile mr nv m := by
  rw [Engine.storeTile_eq, Engine.storeTile_eq]
  refine writeSeq_congr (fun k _ => addrC_of_x h k.1 k.2) (fun m k hk => ?_) m
  obtain ⟨hi, hj⟩ := mem_tileItems.1 hk
  rw [hl _ _ hi hj]

/-- Masked lanes never reach memory, so a kernel call depends on its operands alone (R203). -/
theorem run_kernel_of_x (hmr : mr ≤ 8) (hnr : nr ≤ 6) (hnv : nv ≤ nr) (first : Bool) (d d' : Nat) (m : Memory) :
    ((Job.kernel mr nr nv first).run d e m).2 = ((Job.kernel mr nr nv first).run d' e' m).2 := by
  have hk : e.klen = e'.klen := congrFun (Engine.operand_of_x h) 2
  rw [Job.run_kernel, Job.run_kernel, hk]
  refine storeTile_congr (by simpa using h) (fun i j hi hj => ?_) m
  exact accAt_rsteps_congr (by simpa using h) hmr hnr hi (lt_of_lt_of_le hj hnv)
    (accAt_initTile_congr h hmr hnr hnv first d d' m hi hj) _ _ m

end

/-- Settles O28: packer by packer and, for a kernel, lane by lane of its valid columns. -/
theorem onlyOperandsAndMemoryMatter : Obligations.OnlyOperandsAndMemoryMatter := by
  intro i d d' e e' m hwf h
  cases i with
  | packA => exact run_packer_of_x (.inl rfl) m h
  | packB => exact run_packer_of_x (.inr rfl) m h
  | kern8x6 first => exact run_kernel_of_x h (by omega) (by omega) (by omega) first d d' m
  | kern4x6 first => exact run_kernel_of_x h (by omega) (by omega) (by omega) first d d' m
  | kern8x4 first nrem =>
    have hn : nrem ≤ 4 := of_decide_eq_true hwf
    exact run_kernel_of_x h (by omega) (by omega) hn first d d' m
  | kern4x4 first nrem =>
    have hn : nrem ≤ 4 := of_decide_eq_true hwf
    exact run_kernel_of_x h (by omega) (by omega) hn first d d' m

end Sys2Proof.Machine

/-! SUPPORT. The phases of a running call, one step at a time and to its end (10_state.md R23, R24, R29;
42_kernel_common.md R167). -/

namespace Sys2Proof.Machine

open Sys2Proof.Safety

/-! One step. -/

/-- How the phases of a kernel follow each other, and how its loop control counts (R23, R167). -/
structure PhaseStep (e f : Engine) : Prop where
  init : e.phase = .init → f.phase = (if e.trips ≠ 0 then .loop else if e.odd then .tail else .store) ∧
    f.step = e.step ∧ f.trips = e.trips
  loop : e.phase = .loop → f.phase = (if e.trips ≠ 1 then .loop else if e.odd then .tail else .store) ∧
    f.step.toNat = e.step.toNat + 2 ∧ f.trips.toNat + 1 = e.trips.toNat
  tail : e.phase = .tail → f.phase = .store ∧ f.step.toNat = e.step.toNat + 1 ∧ f.step.toNat = e.klen / 4

section
variable {mr nr nv d : Nat} {first : Bool} {e : Engine} {m : Memory}

/-- A trip of `LOOP` adds 2 to `STEP` and takes 1 from `TRIPS` (R167). -/
theorem Engine.loopTrip_counts (h : InSequence (.kernel mr nr nv first) e) (hp : e.phase = .loop) :
    (e.loopTrip mr nr m).step.toNat = e.step.toNat + 2 ∧ (e.loopTrip mr nr m).trips.toNat + 1 = e.trips.toNat := by
  have hs := h.2
  rw [hp] at hs
  obtain ⟨hpos, hsum⟩ : 0 < e.trips.toNat ∧ e.step.toNat + 2 * e.trips.toNat + e.odd.toNat = e.ksteps := hs
  have hk := e.klen_lt
  unfold Engine.ksteps at hsum
  have := e.trips.isLt
  have one : (1 : Word).toNat = 1 := rfl
  have two : (2 : Word).toNat = 2 := rfl
  rw [Engine.loopTrip_step, Engine.loopTrip_trips, BitVec.toNat_add, BitVec.toNat_sub]
  omega

/-- `TAIL` does the last reduction step (R167). -/
theorem Engine.tailStep_count (h : InSequence (.kernel mr nr nv first) e) (hp : e.phase = .tail) :
    (e.tailStep mr nr m).step.toNat = e.step.toNat + 1 ∧ (e.tailStep mr nr m).step.toNat = e.klen / 4 := by
  have hs := h.2
  rw [hp] at hs
  obtain ⟨-, -, hstep⟩ : e.trips.toNat = 0 ∧ e.odd = true ∧ e.step.toNat + 1 = e.ksteps := hs
  have hlast : (e.tailStep mr nr m).step.toNat = e.ksteps := (Engine.inSequence_tailStep h hp).2.2
  exact ⟨hlast.trans hstep.symm, hlast⟩

theorem phaseStep_kernel (h : InSequence (.kernel mr nr nv first) e) :
    PhaseStep e ((Job.kernel mr nr nv first).tick d (e, m)).1 where
  init hp := by
    rw [Job.tick_init hp, e.initTile_next, ite_not]
    exact ⟨rfl, rfl, rfl⟩
  loop hp := by
    rw [Job.tick_loop hp, e.loopTrip_next, ite_not]
    simp only [sub_eq_zero]
    exact ⟨trivial, Engine.loopTrip_counts h hp⟩
  tail hp := by
    rw [Job.tick_tail hp]
    exact ⟨rfl, Engine.tailStep_count h hp⟩

end

/-- One step of a call in sequence; a packer has no phase but `COPY` (R23). -/
theorem phaseStep_tick {j : Job} {e : Engine} (d : Nat) (m : Memory) (h : InSequence j e) :
    PhaseStep e (j.tick d (e, m)).1 := by
  have packer : ∀ f, e.phase = .copy → PhaseStep e f := fun f hp => by constructor <;> simp [hp]
  cases j with
  | packA => exact packer _ h.1
  | packB => exact packer _ h.1
  | kernel mr nr nv first => exact phaseStep_kernel h

/-- Settles O32: the invariant puts the running call in sequence, and a step of a call in sequence is known. -/
theorem phasesFollowEachOther : Obligations.PhasesFollowEachOther := by
  intro s t n e hs hn hp h
  obtain ⟨e', hn', hcase⟩ := advance_next_of_inv hs h
  obtain rfl := Option.some.inj (hn.symm.trans hn')
  obtain ⟨hidle, -⟩ | ⟨i, hrun, rfl⟩ := hcase
  · exact absurd hidle hp
  obtain ⟨hinit, hloop, htail⟩ := phaseStep_tick s.draws s.mem hrun.inSequence
  refine ⟨_, State.ticked_getElem? hn _, ?_, hinit, hloop, htail, ?_, fun k hk => s.ticked_getElem?_ne e _ hk⟩
  · intro hbusy
    rcases hrun.tick with ⟨-, hend⟩ | ⟨-, f, htick, hx, hcmd, hodd, -⟩
    · exact absurd (by rw [hend]; rfl) hbusy
    · rw [htick]
      exact ⟨hx, hcmd, hodd, by simp only [State.ticked, htick]⟩
  · intro hlast
    rcases hrun.tick with ⟨-, hend⟩ | ⟨⟨hstore, hcopy⟩, -⟩
    · rw [hend]
      rfl
    · exact absurd hlast (by simp [hstore, hcopy])

/-! To the end of the call. -/

/-- How many steps a running call still takes (R23, R167). -/
def Job.left (j : Job) (e : Engine) : Nat :=
  match j with
  | .packA => 1
  | .packB => 1
  | .kernel _ _ _ _ => match e.phase with
    | .init => e.trips.toNat + e.odd.toNat + 2
    | .loop => e.trips.toNat + e.odd.toNat + 1
    | .tail => 2
    | .store => 1
    | .idle => 0
    | .copy => 0

/-- A call that has just started takes the steps `Job.ticks` counts (R167). -/
theorem left_begin (j : Job) (e : Engine) : j.left (j.begin e) = j.ticks e := by
  cases j with
  | packA => rfl
  | packB => rfl
  | kernel mr nr nv first =>
    have htrips : (tripCount e.ksteps).toNat = e.ksteps / 2 := toNat_tripCount e
    have hodd : (oddFlag e.ksteps).toNat = e.ksteps % 2 := toNat_odd (e := Job.begin (.kernel mr nr nv first) e) rfl
    show (tripCount e.ksteps).toNat + (oddFlag e.ksteps).toNat + 2 = _
    rw [htrips, hodd]
    rfl

section
variable {j : Job} {e f : Engine}

/-- A call in sequence has a step to go. -/
theorem left_pos (h : InSequence j e) : 0 < j.left e := by
  cases j with
  | packA => exact Nat.one_pos
  | packB => exact Nat.one_pos
  | kernel mr nr nv first =>
    have hs := h.2
    rcases hp : e.phase with _ | _ | _ | _ | _ | _ <;> rw [hp] at hs <;> simp only [Job.left, hp]
    case idle | copy => exact hs.elim
    all_goals omega

/-- `STORE` and `COPY` are the last step of a call (R23). -/
theorem left_last (h : InSequence j e) (hp : e.phase = .store ∨ e.phase = .copy) : j.left e = 1 := by
  cases j with
  | packA => rfl
  | packB => rfl
  | kernel mr nr nv first =>
    rcases hp with hp | hp
    · simp only [Job.left, hp]
    · exact (by simpa only [hp] using h.2 : False).elim

/-- Past `INIT`, the trips, the correction step and `STORE` are to go (R23, R167). -/
theorem left_kernel {mr nr nv : Nat} {first : Bool}
    (hf : f.phase = if f.trips ≠ 0 then .loop else if f.odd then .tail else .store) :
    (Job.kernel mr nr nv first).left f = f.trips.toNat + f.odd.toNat + 1 ∧ f.phase ≠ .init := by
  split at hf
  · simp [Job.left, hf]
  · split at hf <;> simp_all [Job.left]

/-- Every other step of a call leaves one fewer to go, and `INIT` is behind it (R23, R167). -/
theorem left_tick (h : InSequence j e) (hf : PhaseStep e f) (hodd : f.odd = e.odd)
    (hp : e.phase ≠ .store ∧ e.phase ≠ .copy) : j.left f + 1 = j.left e ∧ f.phase ≠ .init := by
  cases j with
  | packA => exact absurd h.1 hp.2
  | packB => exact absurd h.1 hp.2
  | kernel mr nr nv first =>
    rcases hp' : e.phase with _ | _ | _ | _ | _ | _
    case idle => exact absurd hp' (inSequence_busy h)
    case init =>
      obtain ⟨hfp, -, htrips⟩ := hf.init hp'
      rw [← htrips, ← hodd] at hfp
      obtain ⟨hl, hi⟩ := left_kernel (mr := mr) (nr := nr) (nv := nv) (first := first) hfp
      refine ⟨?_, hi⟩
      rw [hl]
      simp only [Job.left, hp', htrips, hodd]
    case loop =>
      obtain ⟨hfp, -, htrips⟩ := hf.loop hp'
      have hone : e.trips = 1 ↔ f.trips = 0 := by
        rw [← BitVec.toNat_inj, ← BitVec.toNat_inj, ← htrips]
        exact Nat.add_right_cancel_iff (k := 0) (n := 1)
      simp only [ne_eq, hone, ← hodd] at hfp
      obtain ⟨hl, hi⟩ := left_kernel (mr := mr) (nr := nr) (nv := nv) (first := first) hfp
      refine ⟨?_, hi⟩
      rw [hl]
      simp only [Job.left, hp', ← htrips, hodd]
      omega
    case tail =>
      obtain ⟨hfp, -⟩ := hf.tail hp'
      simp [Job.left, hp', hfp]
    case store => exact absurd hp' hp.1
    case copy => exact absurd hp' hp.2

/-- The free values drawn in a step matter to the engine in `INIT` and at the end of the call, to memory never (R31,
R164). -/
theorem tick_mem_draw (d d' : Nat) (m : Memory) : (j.tick d (e, m)).2 = (j.tick d' (e, m)).2 := by
  cases j <;> rcases hp : e.phase with _ | _ | _ | _ | _ | _ <;> simp only [Job.tick, hp]

/-- Between `INIT` and the last step the engine draws none that matter. -/
theorem tick_draw (d d' : Nat) (m : Memory) (hi : e.phase = .init → d = d')
    (hp : e.phase ≠ .store ∧ e.phase ≠ .copy) : j.tick d (e, m) = j.tick d' (e, m) := by
  rcases hp' : e.phase with _ | _ | _ | _ | _ | _
  case init => rw [hi hp']
  case store => exact absurd hp' hp.1
  case copy => exact absurd hp' hp.2
  all_goals cases j <;> simp only [Job.tick, hp']

end

/-- `k` steps of engine `n` from `s`, and no fewer, end its call with memory `m`, the rest of the machine as it was. -/
def EndsAfter (s : State) (n k : Nat) (m : Memory) : Prop :=
  ∃ v, advances n k s = .next v ∧ v.mem = m ∧ (∃ f, v.engines[n]? = some f ∧ f.phase = .idle) ∧
    (∀ l, l ≠ n → v.engines[l]? = s.engines[l]?) ∧ v.agenda = s.agenda ∧
    ∀ k', k' < k → ∃ w f, advances n k' s = .next w ∧ w.engines[n]? = some f ∧ f.phase ≠ .idle

section
variable {s : State} {n : Nat} {i : Instr} {e : Engine}

/-- A running call inside the contract takes its next step (R23, R250). -/
theorem Runs.advance (h : Runs s n i e) : advance n s = .next (s.ticked n (jobOf i) e) :=
  advance_next.2 ⟨e, h.engine, .inr ⟨inSequence_busy h.inSequence, jobOf i,
    Engine.job?_busy (inSequence_busy h.inSequence) h.decodes,
    (State.violation_eq_none i s n e).2 ⟨h.contract, h.noRace⟩, rfl⟩⟩

/-- One step of a running call, then the rest of it. -/
theorem EndsAfter.cons {k : Nat} {m : Memory} (h : Runs s n i e) (ht : EndsAfter (s.ticked n (jobOf i) e) n k m) :
    EndsAfter s n (k + 1) m := by
  have hstep : ∀ k, advances n (k + 1) s = advances n k (s.ticked n (jobOf i) e) := fun k => by
    rw [advances, h.advance]
  obtain ⟨v, hv, hmem, hidle, hothers, hagenda, hbefore⟩ := ht
  refine ⟨v, by rw [hstep, hv], hmem, hidle, fun l hl => ?_, hagenda, ?_⟩
  · rw [hothers l hl, s.ticked_getElem?_ne e _ hl]
  · intro k' hk'
    cases k' with
    | zero => exact ⟨s, e, rfl, h.engine, inSequence_busy h.inSequence⟩
    | succ k' => simpa only [hstep] using hbefore k' (by omega)

/-- A running call ends after the steps it has left, with the memory its steps leave when they are taken one after
another (R23, R167). The free values it drew in `INIT` are those of its own step. -/
theorem Runs.endsAfter {d : Nat} (h : Runs s n i e) (hd : e.phase = .init → d = s.draws) :
    EndsAfter s n ((jobOf i).left e) (((jobOf i).tick d)^[(jobOf i).left e] (e, s.mem)).2 := by
  induction hk : (jobOf i).left e generalizing s e with
  | zero => exact absurd hk (Nat.ne_of_gt (left_pos h.inSequence))
  | succ k ih =>
    refine EndsAfter.cons h ?_
    rcases h.tick with ⟨hp, hend⟩ | ⟨hp, f, htick, -, -, hodd, hf⟩
    · obtain rfl : k = 0 := by have := left_last h.inSequence hp; omega
      exact ⟨_, rfl, tick_mem_draw _ _ _, ⟨_, State.ticked_getElem? h.engine _, by rw [hend]; rfl⟩, fun _ _ => rfl,
        rfl, fun k' hk' => absurd hk' (Nat.not_lt_zero k')⟩
    · have hphase : PhaseStep e f := by simpa only [htick] using phaseStep_tick s.draws s.mem h.inSequence
      obtain ⟨hleft, hinit⟩ := left_tick h.inSequence hphase hodd hp
      have hmem : (s.ticked n (jobOf i) e).mem = s.mem := by simp only [State.ticked, htick]
      have := ih hf (fun hi => absurd hi hinit) (by omega)
      rwa [Function.iterate_succ_apply, tick_draw d s.draws s.mem hd hp, htick, ← hmem]

end

/-- Settles O33: the started call runs well, so it ends after the steps it has left, which are those of the whole
call. -/
theorem steppedCallEqualsWholeCall : Obligations.SteppedCallEqualsWholeCall := by
  intro i s e hwf hd h
  have hv := (State.violation_eq_none i s s.active e).2 ⟨h.contract, h.noRace⟩
  have hexec : exec i s = .next (s.completed (jobOf i) e) := by
    rw [exec_eq_runJob hwf]
    exact runJob_next.2 ⟨e, h.engine, h.idle, hv, rfl⟩
  have hstart := startJob_next.2 ⟨e, h.engine, h.idle, hv, rfl⟩
  have hrun := runs_begin h.engine hd h.contract h.noRace
  obtain ⟨v, hsteps, hmem, hidle, hothers, hagenda, hbefore⟩ := hrun.endsAfter (d := s.draws) fun _ => rfl
  have kernel : 2 + e.klen / 4 / 2 + e.klen / 4 % 2 = e.ksteps / 2 + e.ksteps % 2 + 2 := by
    unfold Engine.ksteps
    omega
  intro k
  have hk : k = (jobOf i).left ((jobOf i).begin e) := by
    rw [left_begin]
    cases i
    exacts [rfl, rfl, kernel, kernel, kernel, kernel]
  rw [hk]
  refine ⟨_, _, v, hexec, hstart, hsteps, ?_, hidle, fun n hn => ?_, hagenda, hbefore⟩
  · rw [hmem, left_begin]
    rfl
  · rw [hothers n hn]
    simp only [State.completed, State.setEngine_engines, List.getElem?_set_ne (Ne.symm hn)]

end Sys2Proof.Machine

/-! SUPPORT. Int32 values in memory, and what a driver's access meets and leaves (20_memory.md R10, R51, R80). -/

namespace Sys2Proof.Machine

open Sys2Proof.Safety

/-- Settles O6: what an int32 write leaves at each address, inside its four bytes and outside them. -/
theorem int32IsLittleEndian : Obligations.Int32IsLittleEndian := by
  refine fun m a v => ⟨fun t ht => ?_, Memory.readI32_writeI32 m a v, fun x hx => ?_⟩
  · rw [Memory.read, Memory.get?_writeI32, if_pos (by omega), Nat.add_sub_cancel_left, Option.getD_some,
      BitVec.toNat_ofNat]
  · rw [Memory.get?_writeI32, if_neg (by omega)]

/-! The running calls of a machine (R80). -/

/-- A running engine of which `P` holds, as the machine searches for it and by its place (R23, R90). -/
theorem any_job?_iff (s : State) (P : Job → Engine → Bool) :
    (s.engines.any fun e => e.job?.any fun j => P j e) = true ↔
      ∃ (n : Nat) (e : Engine) (i : Instr), s.engines[n]? = some e ∧ e.phase ≠ .idle ∧ decode e.cmd = .ok i ∧
        P (jobOf i) e = true := by
  simp only [List.any_eq_true, Option.any_eq_true]
  constructor
  · rintro ⟨e, he, j, hj, hP⟩
    obtain ⟨n, hn⟩ := List.mem_iff_getElem?.1 he
    obtain ⟨hp, i, hd, rfl⟩ := Engine.job?_some hj
    exact ⟨n, e, i, hn, hp, hd, hP⟩
  · rintro ⟨n, e, i, hn, hp, hd, hP⟩
    exact ⟨e, List.mem_of_getElem? hn, _, Engine.job?_busy hp hd, hP⟩

/-- Whether a running call reads or writes a byte (R80). -/
theorem State.touched_iff (s : State) (a : Nat) : s.touched a = true ↔
    ∃ (n : Nat) (e : Engine) (i : Instr), s.engines[n]? = some e ∧ e.phase ≠ .idle ∧ decode e.cmd = .ok i ∧
      (Reads (jobOf i) e a ∨ Writes (jobOf i) e a) := by
  have search : s.touched a = s.engines.any fun e => e.job?.any fun j => (j.inputs e ++ j.outputs e).contains a := by
    unfold State.touched; congr 1; funext e; cases e.job? <;> rfl
  simp only [search, any_job?_iff, List.contains_iff_mem, List.mem_append, mem_inputs_or_outputs]

/-- Whether a running call writes a byte (R80). -/
theorem State.written_iff (s : State) (a : Nat) : s.written a = true ↔
    ∃ (n : Nat) (e : Engine) (i : Instr), s.engines[n]? = some e ∧ e.phase ≠ .idle ∧ decode e.cmd = .ok i ∧
      Writes (jobOf i) e a := by
  have search : s.written a = s.engines.any fun e => e.job?.any fun j => (j.outputs e).contains a := by
    unfold State.written; congr 1; funext e; cases e.job? <;> rfl
  simp only [search, any_job?_iff, List.contains_iff_mem, mem_outputs]

/-- A step takes the next action of the outside world off the agenda and carries it out (R20, R90; log 7). -/
theorem step_cons {s : State} {ev : Event} {rest : List Event} (h : s.agenda = ev :: rest) :
    step s = handle ev { s with agenda := rest } := by
  rw [step, h]

/-- Settles O38: the machine refuses a driver's access exactly where it finds a running call that races with it. -/
theorem driverAccessesRace : Obligations.DriverAccessesRace := by
  refine fun s a b rest _ => ⟨fun hag => ?_, fun hag => ?_⟩
  · rw [step_cons hag, handle, driverWrite]
    refine ⟨fun hrace => if_pos ((State.touched_iff _ _).2 hrace), fun hfree => ?_⟩
    refine ⟨_, if_neg fun ht => ?_, by simp [Memory.get?_set], fun x hx => by simp [Memory.get?_set, hx]⟩
    obtain ⟨n, e, i, hn, hp, hd, hrw⟩ := (State.touched_iff _ _).1 ht
    exact not_or.2 (hfree n e i hn hp hd) hrw
  · rw [step_cons hag, handle, driverRead]
    refine ⟨fun hrace => if_pos ((State.written_iff _ _).2 hrace), fun hfree => ?_⟩
    rw [if_neg fun hw => ?_]
    · exact ⟨fun ha => if_pos (accessible_iff.2 ha), fun ha => if_neg fun h => ha (accessible_iff.1 h)⟩
    · obtain ⟨n, e, i, hn, hp, hd, hwr⟩ := (State.written_iff _ _).1 hw
      exact hfree n e i hn hp hd hwr

end Sys2Proof.Machine

/-! SUPPORT. `Valid` along the steps of the machine (20_memory.md R54, 60_exceptions.md R214). -/

namespace Sys2Proof.Machine

open Sys2Proof.Safety

/-- The accessible addresses of two memories are the same: `Valid` is as it was (R54). -/
def SameValid (m m' : Memory) : Prop := ∀ a, Memory.get? m' a = none ↔ Memory.get? m a = none

theorem SameValid.refl (m : Memory) : SameValid m m := fun _ => Iff.rfl

theorem SameValid.trans {m m₁ m₂ : Memory} (h : SameValid m m₁) (h' : SameValid m₁ m₂) : SameValid m m₂ :=
  fun a => (h' a).trans (h a)

/-! Reset. -/

/-- An abandoned call has written its output region only, and every byte it has written is listed (R214). -/
theorem leaves_abandon {e : Engine} {i : Instr} (d n : Nat) (m : Memory) (hj : e.job? = some (jobOf i)) :
    Leaves (jobOf i) e m (abandon d n e m) := by
  have mixed : Leaves (jobOf i) e m (abandon.mixed d n e m (jobOf i)) := by
    refine List.foldlRecOn _ _ (Leaves.refl _ e m) fun acc hacc a ha => ?_
    have hw := (mem_outputs i e a).1 ha
    split
    · refine ⟨fun x hx => ?_, fun x hx => ?_, fun hr => Memory.rising_set _ _ (hacc.rising hr)⟩
      · rw [Memory.get?_set, if_neg fun (h : x = a) => hx (h ▸ hw), hacc.outside x hx]
      · rw [Memory.get?_set]
        split
        · simp
        · exact hacc.listed x hx
    · exact hacc
  rcases hp : e.phase with _ | _ | _ | _ | _ | _ <;> simp only [abandon, hj, hp]
  case store | copy => exact mixed
  all_goals exact Leaves.refl _ e m

/-- A running call abandoned in a machine that meets the invariant leaves `Valid` as it was, whatever the calls
abandoned before it have written (R54, R214). -/
theorem sameValid_abandon {s : State} {n : Nat} {e : Engine} {m : Memory} (hs : Inv s) (hn : s.engines[n]? = some e)
    (hm : SameValid s.mem m) (d : Nat) : SameValid m (abandon d n e m) := by
  rcases hj : e.job? with _ | j
  · unfold abandon
    simp only [hj]
    exact SameValid.refl m
  · obtain ⟨hp, i, hd, rfl⟩ := Engine.job?_some hj
    obtain ⟨i', hd', -, hc, -⟩ := hs.running n e hn hp
    obtain rfl : i = i' := Except.ok.inj (hd.symm.trans hd')
    exact (leaves_abandon d n m hj).valid (contract_mono (fun a => Accessible.congr (hm a).symm) hc)

/-- Reset leaves `Valid` as it was (R214, R240). -/
theorem sameValid_platformReset {s t : State} (hs : Inv s) (h : platformReset s = .next t) :
    SameValid s.mem t.mem := by
  unfold platformReset at h
  split at h
  · cases h
  · cases h
    exact List.foldlRecOn s.engines.zipIdx _ (SameValid.refl s.mem) fun m hm p hp =>
      hm.trans (sameValid_abandon hs (List.mem_zipIdx_iff_getElem?.1 hp) hm _)

/-! Calls. -/

/-- A step of a running call leaves `Valid` as it was (R54). -/
theorem sameValid_advance {n : Nat} {s t : State} (hs : Inv s) (h : advance n s = .next t) : SameValid s.mem t.mem := by
  obtain ⟨e, -, ⟨-, rfl⟩ | ⟨i, hrun, rfl⟩⟩ := advance_next_of_inv hs h
  · exact SameValid.refl _
  · exact (leaves_tick s.draws hrun.inSequence hrun.contract).valid hrun.contract

/-- A whole call leaves `Valid` as it was (R54). -/
theorem sameValid_exec {i : Instr} {s t : State} (h : exec i s = .next t) : SameValid s.mem t.mem := by
  obtain ⟨e, -, -, hv, rfl⟩ := runJob_next.1 (runJob_of_exec h)
  obtain ⟨hc, -⟩ := (State.violation_eq_none i s s.active e).1 hv
  exact (leaves_run s.draws hc).valid hc

/-- A call that starts has written nothing yet (R90). -/
theorem startJob_mem {j : Job} {s t : State} (h : startJob j s = .next t) : t.mem = s.mem := by
  obtain ⟨e, -, -, -, rfl⟩ := startJob_next.1 h
  rfl

/-! Steps. -/

/-- Of the actions of the outside world, only a driver's store can change `Valid` (R54; log 10). -/
theorem sameValid_handle {ev : Event} {s t : State} (hs : Inv s) (hev : ∀ a b, ev ≠ .driverWrite a b)
    (h : handle ev s = .next t) : SameValid s.mem t.mem := by
  cases ev with
  | call n cmd x =>
    obtain ⟨e, i, -, -, -, hx⟩ := present_next.1 h
    exact show SameValid (s.latch n e cmd x).mem t.mem from sameValid_exec hx
  | start n cmd x =>
    obtain ⟨e, i, -, -, -, hx⟩ := present_next.1 h
    rw [startJob_mem hx]
    exact SameValid.refl _
  | advance n => exact sameValid_advance hs h
  | driverWrite a b => exact absurd rfl (hev a b)
  | driverRead a => rw [driverRead_next h]; exact SameValid.refl _
  | reset => exact sameValid_platformReset hs h

/-- A step that is no driver's store leaves `Valid` as it was (R54). -/
theorem sameValid_step {s t : State} (hs : Inv s) (hag : ∀ a b rest, s.agenda ≠ .driverWrite a b :: rest)
    (h : step s = .next t) : SameValid s.mem t.mem := by
  unfold step at h
  split at h
  · unfold goOn at h
    split at h
    · exact sameValid_advance hs h
    · cases h
      exact SameValid.refl _
  · next ev rest hs' =>
    exact sameValid_handle (s := { s with agenda := rest }) (inv_withAgenda hs rest)
      (fun a b hev => hag a b rest (hev ▸ hs')) h

/-- A driver's store keeps every accessible address accessible (R54; log 10). -/
theorem driverWrite_listed {a : Word} {b : Byte} {s t : State} (h : driverWrite a b s = .next t) (x : Nat)
    (hx : Memory.get? s.mem x ≠ none) : Memory.get? t.mem x ≠ none := by
  unfold driverWrite at h
  split at h
  · cases h
  · cases h
    exact Memory.listed_writeBytes [b] s.mem a.toNat x hx

/-- Settles O36: a step is a driver's store, which takes no address out, or leaves `Valid` as it was. -/
theorem validNeverShrinks : Obligations.ValidNeverShrinks := by
  refine fun s t hs h => ⟨fun x hx => ?_, fun hag => sameValid_step hs hag h⟩
  by_cases hstore : ∃ a b rest, s.agenda = .driverWrite a b :: rest
  · obtain ⟨a, b, rest, hag⟩ := hstore
    rw [step_cons hag, handle] at h
    exact driverWrite_listed h x hx
  · have hag : ∀ a b rest, s.agenda ≠ .driverWrite a b :: rest := fun a b rest h => hstore ⟨a, b, rest, h⟩
    exact mt (sameValid_step hs hag h x).1 hx

end Sys2Proof.Machine

/-! SUPPORT. What a call writes depends on the bytes it reads, so independent calls commute (20_memory.md R80;
40_pack_a.md R126, 41_pack_b.md R147, 42_kernel_common.md R177). -/

namespace Sys2Proof.Machine

open Sys2Proof.Safety

/-- Two memories have the same contents at the addresses of `R`. -/
def AgreeOn (R : Nat → Prop) (m m' : Memory) : Prop := ∀ a, R a → Memory.get? m a = Memory.get? m' a

theorem AgreeOn.readBytes {R : Nat → Prop} {m m' : Memory} (h : AgreeOn R m m') {a n : Nat}
    (ha : ∀ t, t < n → R (a + t)) : Memory.readBytes m a n = Memory.readBytes m' a n :=
  List.map_congr_left fun t ht => Memory.read_congr (h _ (ha t (List.mem_range.1 ht)))

/-- The same block write keeps two memories in agreement. -/
theorem AgreeOn.writeBytes {R : Nat → Prop} {m m' : Memory} (h : AgreeOn R m m') (a : Nat) (bs : List Byte) :
    AgreeOn R (Memory.writeBytes m a bs) (Memory.writeBytes m' a bs) := fun x hx => by
  rw [Memory.get?_writeBytes, Memory.get?_writeBytes, h x hx]

/-- A sequence of block writes whose bytes depend on the contents of `R` alone keeps two memories in agreement on
`R`. -/
theorem AgreeOn.writeSeq {ι : Type} {addr : ι → Nat} {data : Memory → ι → List Byte} {R : Nat → Prop} {l : List ι}
    (hdata : ∀ k ∈ l, ∀ m m', AgreeOn R m m' → data m k = data m' k) {m m' : Memory} (h : AgreeOn R m m') :
    AgreeOn R (writeSeq addr data l m) (writeSeq addr data l m') := by
  induction l generalizing m m' with
  | nil => exact h
  | cons k l ih =>
    rw [writeSeq_cons, writeSeq_cons, hdata k (by simp) m m' h]
    exact ih (fun k hk => hdata k (by simp [hk])) (h.writeBytes _ _)

/-! `PACK_A` (R122, R126). -/

/-- The cells of a sequence of panels that starts at row `y` come from the row groups of those panels (R122). -/
theorem panelsSource_reads {e : Engine} {groups y count n t : Nat} (hg : 0 < groups) (hy : y % 4 = 0) (hlo : e.lo ≤ y)
    (hhi : y + 4 * groups * count ≤ e.hi) (hn : n < groups * e.packSteps * count) (ht : t < 16) :
    PackAReads e (e.panelsSource groups y n + t) := by
  set size := groups * e.packSteps with hsize
  have hpos : 0 < size := Nat.pos_of_ne_zero fun h => by rw [h, Nat.zero_mul] at hn; omega
  have hpanel : n / size < count := Nat.div_lt_of_lt_mul hn
  have hstep : n % size / groups < e.packSteps := Nat.div_lt_of_lt_mul (Nat.mod_lt _ hpos)
  have hgroup : n % size % groups < groups := Nat.mod_lt _ hg
  have hrows : 4 * groups * (n / size) + 4 * groups ≤ 4 * groups * count := by
    rw [← Nat.mul_succ]
    exact Nat.mul_le_mul_left _ hpanel
  have hassoc : 4 * groups * (n / size) = 4 * (groups * (n / size)) := Nat.mul_assoc ..
  refine ⟨(y + 4 * groups * (n / size)) / 4 + n % size % groups, n % size / groups * 16 + t, by omega, by omega, ?_, ?_⟩
  · have : e.packSteps = (e.kmax - e.k0) / 4 := rfl
    omega
  · have : e.packFirst = e.k0 / 4 := rfl
    rw [Engine.panelsSource, Engine.cellSource, ← hsize, this]
    ring

/-- A sequence of panel copies depends on the source bytes of `PACK_A` alone (R126). -/
theorem AgreeOn.copyPanels {e : Engine} {R : Nat → Prop} {m m' : Memory} {groups y count : Nat} (optr : Word)
    (hR : ∀ a, PackAReads e a → R a) (hg : 0 < groups) (hy : y % 4 = 0) (hlo : e.lo ≤ y)
    (hhi : y + 4 * groups * count ≤ e.hi) (h : AgreeOn R m m') :
    AgreeOn R (copyCells (e.panelsSource groups y) optr (groups * e.packSteps * count) m)
      (copyCells (e.panelsSource groups y) optr (groups * e.packSteps * count) m') := by
  unfold copyCells
  refine h.writeSeq fun n hn m m' h => ?_
  exact h.readBytes fun t ht => hR _ (panelsSource_reads hg hy hlo hhi (List.mem_range.1 hn) ht)

/-- The copy of `PACK_A` depends on its source bytes alone (R126). -/
theorem AgreeOn.copyA {e : Engine} {R : Nat → Prop} {m m' : Memory} (hp : e.pack = e.packStart) (hlo : e.lo % 4 = 0)
    (hle : e.lo ≤ e.hi) (hR : ∀ a, PackAReads e a → R a) (h : AgreeOn R m m') :
    AgreeOn R (e.copyA m).2 (e.copyA m').2 := by
  have hcur : e.pack.cursor = e.lo := by rw [hp]; rfl
  rw [e.copyA_mem, e.copyA_mem, hcur]
  exact AgreeOn.copyPanels _ hR Nat.one_pos (by omega) (by omega) (by omega)
    (AgreeOn.copyPanels _ hR Nat.two_pos hlo le_rfl (by omega) h)

/-! `PACK_B` (R143, R147). -/

/-- Every run of `PACK_B` comes from the source bytes of its step (R143). -/
theorem allRuns_reads {e : Engine} (hle : e.lo ≤ e.hi) {r : Run} (hr : r ∈ e.allRuns) {t : Nat} (ht : t < 4 * r.cols) :
    PackBReads e (r.row + 4 * r.col + t) := by
  have hspan : e.hi = e.lo + (6 * e.n6 + 4 * e.n4 + e.rem) := by
    unfold Engine.rem Engine.n4 Engine.n6 Engine.span
    omega
  simp only [Engine.allRuns, Engine.stepRuns, List.mem_flatMap, List.mem_append, List.mem_map, List.mem_range] at hr
  obtain ⟨s, hs, hr⟩ := hr
  have inStep : r.row = e.src + (e.k0 / 4 + s) * e.lds → e.lo ≤ r.col → r.col + r.cols ≤ e.hi →
      PackBReads e (r.row + 4 * r.col + t) := fun hrow hlo hhi => ⟨s, hs, by omega, by omega⟩
  obtain (⟨q, hq, rfl⟩ | ⟨q, hq, rfl⟩) | hshort := hr
  · exact inStep rfl (by dsimp only; omega) (by dsimp only; omega)
  · exact inStep rfl (by dsimp only; omega) (by dsimp only; omega)
  · split at hshort
    · obtain rfl := List.mem_singleton.1 hshort
      exact inStep rfl (by dsimp only; omega) (by dsimp only; omega)
    · simp at hshort

/-- The copy of `PACK_B` depends on its source bytes alone (R147). -/
theorem AgreeOn.copyB {e : Engine} {R : Nat → Prop} {m m' : Memory} (hle : e.lo ≤ e.hi)
    (hR : ∀ a, PackBReads e a → R a) (h : AgreeOn R m m') : AgreeOn R (e.copyB m).2 (e.copyB m').2 := by
  rw [e.copyB_mem, e.copyB_mem]
  refine h.writeSeq fun r hr m m' h => ?_
  rw [runBytes, runBytes, h.readBytes fun t ht => hR _ (allRuns_reads hle hr ht)]

/-! Kernels (R164 to R169, R177). -/

section
variable {mr nr nv : Nat} {first : Bool} {e f g : Engine} {m m' : Memory}

/-- A lane of the tile after a reduction step depends on the operands, on that lane before it and on the bytes of the
panels (R166). -/
theorem AgreeOn.accAt_rstep (h : AgreeOn (PanelReads mr nr e) m m') (hf : f.x = e.x) (hg : g.x = e.x) (hmr : mr ≤ 8)
    (hnr : nr ≤ 6) {s i j : Nat} (hs : s < e.klen / 4) (hi : i < mr) (hj : j < nr)
    (hl : f.accAt i j = g.accAt i j) : (f.rstep mr nr s m).accAt i j = (g.rstep mr nr s m').accAt i j := by
  have inPanel : ∀ {rows r kk : Nat}, r < rows → kk < 4 → 4 * rows * s + (4 * r + kk) < rows * e.klen := by
    intro rows r kk hr hk
    have hsteps : rows * (4 * (s + 1)) ≤ rows * e.klen := Nat.mul_le_mul_left _ (by omega)
    have : rows * (4 * (s + 1)) = 4 * rows * s + 4 * rows := by ring
    omega
  have ha : ∀ kk, kk < 4 → Memory.read m (e.aptr + 4 * mr * s + (4 * i + kk)) =
      Memory.read m' (e.aptr + 4 * mr * s + (4 * i + kk)) := fun kk hk =>
    Memory.read_congr (h _ (.inl ⟨by omega, by have := inPanel hi hk; omega⟩))
  have hb : ∀ kk, kk < 4 → Memory.read m (e.bptr + 4 * nr * s + (4 * j + kk)) =
      Memory.read m' (e.bptr + 4 * nr * s + (4 * j + kk)) := fun kk hk =>
    Memory.read_congr (h _ (.inr ⟨by omega, by have := inPanel hj hk; omega⟩))
  have hptr : ∀ e' : Engine, e'.x = e.x → e'.aptr = e.aptr ∧ e'.bptr = e.bptr := fun e' hx =>
    ⟨congrFun (Engine.operand_of_x hx) 0, congrFun (Engine.operand_of_x hx) 1⟩
  rw [f.accAt_rstep s m hmr hnr hi hj, g.accAt_rstep s m' hmr hnr hi hj, hl]
  simp only [hptr f hf, hptr g hg]
  congr 1 <;> funext kk <;> split
  · exact ha kk ‹_›
  · rfl
  · exact hb kk ‹_›
  · rfl

/-- So does a lane after the reduction steps `a`, `a+1`, …, as far as the panels go (R168). -/
theorem AgreeOn.accAt_rsteps (h : AgreeOn (PanelReads mr nr e) m m') (hf : f.x = e.x) (hg : g.x = e.x) (hmr : mr ≤ 8)
    (hnr : nr ≤ 6) {a n i j : Nat} (hn : a + n ≤ e.klen / 4) (hi : i < mr) (hj : j < nr)
    (hl : f.accAt i j = g.accAt i j) : (f.rsteps mr nr a n m).accAt i j = (g.rsteps mr nr a n m').accAt i j := by
  induction n generalizing f g a with
  | zero => exact hl
  | succ n ih =>
    rw [Engine.rsteps_succ, Engine.rsteps_succ]
    exact ih (by simpa using hf) (by simpa using hg) (by omega)
      (h.accAt_rstep hf hg hmr hnr (by omega) hi hj hl)

/-- A lane of a valid column after `INIT` depends on memory on a warm start only, and then on the bytes of its element
(R164). -/
theorem AgreeOn.accAt_initTile (h : AgreeOn (Reads (.kernel mr nr nv first) e) m m') (d : Nat) (hmr : mr ≤ 8)
    (hnr : nr ≤ 6) (hnv : nv ≤ nr) {i j : Nat} (hi : i < mr) (hj : j < nv) :
    (e.initTile mr nr nv first d m).accAt i j = (e.initTile mr nr nv first d m').accAt i j := by
  have lane : ∀ m, (e.initTile mr nr nv first d m).accAt i j = e.initLane nv first d m i j := fun m => by
    rw [accAt_accFile (e.initTile mr nr nv first d m) _ (by omega : i < 8) (by omega : j < 6) rfl,
      if_pos ⟨hi, by omega⟩]
  simp only [lane, Engine.initLane, if_pos hj]
  cases first with
  | true => rfl
  | false =>
    refine Memory.readI32_congr fun t ht => Memory.read_congr (h _ (.inr ⟨rfl, i, j, t, hi, hj, ht, ?_⟩))
    rw [e.addrC_eq]

/-- What a kernel call stores depends on the bytes it reads alone (R177). -/
theorem AgreeOn.run_kernel {R : Nat → Prop} (hR : ∀ a, Reads (.kernel mr nr nv first) e a → R a) (h : AgreeOn R m m')
    (d : Nat) (hmr : mr ≤ 8) (hnr : nr ≤ 6) (hnv : nv ≤ nr) :
    AgreeOn R ((Job.kernel mr nr nv first).run d e m).2 ((Job.kernel mr nr nv first).run d e m').2 := by
  have hreads : AgreeOn (Reads (.kernel mr nr nv first) e) m m' := fun a ha => h a (hR a ha)
  have hpanels : AgreeOn (PanelReads mr nr e) m m' := fun a ha => hreads a (.inl ha)
  rw [Job.run_kernel, Job.run_kernel]
  have hlanes : ∀ i j, i < mr → j < nv →
      ((e.initTile mr nr nv first d m).rsteps mr nr 0 (e.klen / 4) m).accAt i j =
      ((e.initTile mr nr nv first d m').rsteps mr nr 0 (e.klen / 4) m').accAt i j := fun i j hi hj =>
    hpanels.accAt_rsteps (by rfl) (by rfl) hmr hnr (by omega) hi (by omega) (hreads.accAt_initTile d hmr hnr hnv hi hj)
  rw [storeTile_congr (by simp) hlanes, Engine.storeTile_eq, Engine.storeTile_eq]
  exact h.writeSeq fun _ _ _ _ _ => rfl

end

/-! Whole calls. -/

/-- A call inside the contract keeps two memories that agree on the bytes it reads in agreement (R126, R147, R177). -/
theorem AgreeOn.run {i : Instr} {e : Engine} {R : Nat → Prop} {m m' : Memory} (hwf : i.wf = true)
    (hc : Contract (jobOf i) e m) (hR : ∀ a, Reads (jobOf i) e a → R a) (h : AgreeOn R m m') (d : Nat) :
    AgreeOn R ((jobOf i).run d e m).2 ((jobOf i).run d e m').2 := by
  cases i with
  | packA =>
    obtain ⟨hlo, hle, -⟩ := PackAContract.v3 hc
    exact AgreeOn.copyA (e := Job.packA.begin e) rfl hlo hle hR h
  | packB => exact AgreeOn.copyB (e := Job.packB.begin e) (PackBContract.v5 (e := e) hc) hR h
  | kern8x6 first => exact h.run_kernel hR d (by omega) (by omega) (by omega)
  | kern4x6 first => exact h.run_kernel hR d (by omega) (by omega) (by omega)
  | kern8x4 first nrem => exact h.run_kernel hR d (by omega) (by omega) (of_decide_eq_true hwf)
  | kern4x4 first nrem => exact h.run_kernel hR d (by omega) (by omega) (of_decide_eq_true hwf)

/-- After a call that writes neither what `i` reads nor the byte `x`, the call `i` leaves the same byte at `x` as
before it, whatever the free values (R80). -/
theorem get?_run_after_independent {i k : Instr} {e f : Engine} {m : Memory} (hwf : i.wf = true)
    (hi : Contract (jobOf i) e m) (hk : Contract (jobOf k) f m)
    (hreads : ∀ a, Writes (jobOf k) f a → ¬ Reads (jobOf i) e a) (d d' dk : Nat) {x : Nat}
    (hx : ¬ Writes (jobOf k) f x) :
    Memory.get? ((jobOf i).run d e ((jobOf k).run dk f m).2).2 x = Memory.get? ((jobOf i).run d' e m).2 x := by
  have hl := leaves_run dk hk
  rw [onlyOperandsAndMemoryMatter i d' d e e m hwf rfl]
  have hagree : AgreeOn (fun a => ¬ Writes (jobOf k) f a) ((jobOf k).run dk f m).2 m := hl.outside
  exact hagree.run hwf (contract_mono hl.accessible hi) (fun a ha hw => hreads a hw ha) d x hx

/-- Settles O37: a byte that one of the calls writes is not written by the other, and what the call writes there is
what it writes without the other; both orders leave memory in canonical form. -/
theorem independentCallsCommute : Obligations.IndependentCallsCommute := by
  intro i k d₁ d₂ d₃ d₄ e f m hwfi hwfk hm hi hk hind
  have hli := leaves_run d₁ hi
  have hlk := leaves_run d₄ hk
  have hk' := contract_mono hli.accessible hk
  have hi' := contract_mono hlk.accessible hi
  have hlki := leaves_run d₂ hk'
  have hlik := leaves_run d₃ hi'
  refine Memory.ext (hlki.wf hk' (hli.wf hi hm)) (hlik.wf hi' (hlk.wf hk hm)) fun x => ?_
  by_cases hx : Writes (jobOf k) f x
  · have hxi : ¬ Writes (jobOf i) e x := fun hw => ((hind x).1 hw).2 hx
    rw [hlik.outside x hxi]
    exact get?_run_after_independent hwfk hk hi (fun a hw => ((hind a).1 hw).1) d₂ d₄ d₁ hxi
  · rw [hlki.outside x hx]
    exact (get?_run_after_independent hwfi hi hk (fun a hw => (hind a).2 hw) d₃ d₁ d₄ hx).symm

end Sys2Proof.Machine

/-! SUPPORT. The command word and its fields, and that decode and encode are the command table (30_encoding.md R91 to
R102). -/

namespace Sys2Proof

/-! The fields of a word as digits of its value (R91). -/

theorem fieldOpc_eq (w : CmdWord) : fieldOpc w = w.toNat % 16 := by
  simp [fieldOpc, BitVec.extractLsb'_toNat]

theorem fieldFirst_toNat (w : CmdWord) : (fieldFirst w).toNat = w.toNat / 16 % 2 := by
  rw [fieldFirst, ← BitVec.testBit_toNat, Nat.toNat_testBit]

theorem fieldNrem_eq (w : CmdWord) : fieldNrem w = w.toNat / 32 % 8 := by
  simp [fieldNrem, BitVec.extractLsb'_toNat, Nat.shiftRight_eq_div_pow]

theorem fieldZero_eq (w : CmdWord) : fieldZero w = w.toNat / 256 := by
  have := w.isLt
  rw [fieldZero, BitVec.extractLsb'_toNat, Nat.shiftRight_eq_div_pow]
  omega

/-- The four fields make up the word (R91). -/
theorem toNat_eq_fields (w : CmdWord) :
    w.toNat = fieldOpc w + 16 * (fieldFirst w).toNat + 32 * fieldNrem w + 256 * fieldZero w := by
  rw [fieldOpc_eq, fieldFirst_toNat, fieldNrem_eq, fieldZero_eq]
  omega

/-! The encoder (R102). -/

theorem Instr.opc_le (i : Instr) : i.opc ≤ 7 := by cases i <;> simp [Instr.opc]

/-- A command is well-formed exactly when its `NREM` is; the commands without one have 0 in that field (R94, R98). -/
theorem Instr.wf_iff {i : Instr} : i.wf = true ↔ i.nremField ≤ 4 := by
  cases i with
  | packA | packB | kern8x6 | kern4x6 => exact iff_of_true rfl (Nat.zero_le 4)
  | kern8x4 | kern4x4 => exact decide_eq_true_iff

/-- The word of a well-formed command as a number: nothing of `opc + 16*first + 32*nrem` is cut off (R102). -/
theorem encode_toNat {i : Instr} (h : i.wf = true) :
    (encode i).toNat = i.opc + 16 * i.firstBit.toNat + 32 * i.nremField := by
  have := i.opc_le
  have := i.firstBit.toNat_le
  have := Instr.wf_iff.1 h
  exact Nat.mod_eq_of_lt (by omega)

/-- The fields of the word of a well-formed command (R91, R102). -/
theorem encode_fields {i : Instr} : Laws.EncodedFields.Statement i := by
  cases i with
  | packA => exact Laws.EncodedFields.packA
  | packB => exact Laws.EncodedFields.packB
  | kern8x6 first => exact Laws.EncodedFields.kern8x6 first
  | kern4x6 first => exact Laws.EncodedFields.kern4x6 first
  | kern8x4 first nrem => exact Laws.EncodedFields.kern8x4 first nrem
  | kern4x4 first nrem => exact Laws.EncodedFields.kern4x4 first nrem

/-! The decoder (R98, R102). -/

section
variable {i k : Instr} {first : Bool} {nrem : Nat}

theorem decodePacker_eq_ok : decodePacker k first nrem = .ok i ↔ (first = false ∧ nrem = 0) ∧ k = i := by
  unfold decodePacker; split <;> simp [*]

theorem decodeFullTile_eq_ok : decodeFullTile k nrem = .ok i ↔ nrem = 0 ∧ k = i := by
  unfold decodeFullTile; split <;> simp [*]

theorem decodeRemainder_eq_ok : decodeRemainder k nrem = .ok i ↔ nrem ≤ 4 ∧ k = i := by
  unfold decodeRemainder; split <;> simp_all [Config.nremMax]

end

/-- The fields of `w` are those of the command `i` (R91 to R94). -/
structure HasFields (w : CmdWord) (i : Instr) : Prop where
  opc : fieldOpc w = i.opc
  first : fieldFirst w = i.firstBit
  nrem : fieldNrem w = i.nremField
  zero : fieldZero w = 0

/-- A word decodes to the well-formed command whose fields it holds, and to nothing else (R98, R102). -/
theorem decode_eq_ok_iff {w : CmdWord} {i : Instr} : decode w = .ok i ↔ i.wf = true ∧ HasFields w i := by
  constructor
  · intro h
    unfold decode at h
    split_ifs at h with hz h1 h2 h4 h5 h6 h7
    · obtain ⟨⟨hf, hn⟩, rfl⟩ := decodePacker_eq_ok.1 h
      exact ⟨rfl, h1, hf, hn, not_not.1 hz⟩
    · obtain ⟨⟨hf, hn⟩, rfl⟩ := decodePacker_eq_ok.1 h
      exact ⟨rfl, h2, hf, hn, not_not.1 hz⟩
    · obtain ⟨hn, rfl⟩ := decodeFullTile_eq_ok.1 h
      exact ⟨rfl, h4, rfl, hn, not_not.1 hz⟩
    · obtain ⟨hn, rfl⟩ := decodeFullTile_eq_ok.1 h
      exact ⟨rfl, h5, rfl, hn, not_not.1 hz⟩
    · obtain ⟨hn, rfl⟩ := decodeRemainder_eq_ok.1 h
      exact ⟨decide_eq_true hn, h6, rfl, rfl, not_not.1 hz⟩
    · obtain ⟨hn, rfl⟩ := decodeRemainder_eq_ok.1 h
      exact ⟨decide_eq_true hn, h7, rfl, rfl, not_not.1 hz⟩
  · rintro ⟨hwf, ho, hf, hn, hz⟩
    rw [decode, ho, hf, hn, hz]
    cases i with
    | packA | packB => exact decodePacker_eq_ok.2 ⟨⟨rfl, rfl⟩, rfl⟩
    | kern8x6 | kern4x6 => exact decodeFullTile_eq_ok.2 ⟨rfl, rfl⟩
    | kern8x4 | kern4x4 => exact decodeRemainder_eq_ok.2 ⟨of_decide_eq_true hwf, rfl⟩

/-- Settles O2: the word of a command holds its fields, and the fields of a word make it up. -/
theorem decodeAndEncodeAgree : Obligations.DecodeAndEncodeAgree := by
  constructor
  · intro i hwf
    obtain ⟨ho, hf, hn, hz⟩ := encode_fields hwf
    exact decode_eq_ok_iff.2 ⟨hwf, ho, hf, hn, hz⟩
  · intro w i h
    obtain ⟨hwf, ho, hf, hn, hz⟩ := decode_eq_ok_iff.1 h
    refine ⟨hwf, BitVec.eq_of_toNat_eq ?_⟩
    rw [encode_toNat hwf, toNat_eq_fields w, ho, hf, hn, hz, Nat.mul_zero, Nat.add_zero]

/-- The decoder inverts the encoder on the well-formed commands (R102). -/
theorem decode_eq_ok_iff_encode {w : CmdWord} {i : Instr} : decode w = .ok i ↔ i.wf = true ∧ encode i = w := by
  obtain ⟨hde, hed⟩ := decodeAndEncodeAgree
  refine ⟨hed w i, ?_⟩
  rintro ⟨hwf, rfl⟩
  exact hde i hwf

/-- The decoder by the value of the word (R94, R102). -/
theorem decode_eq_ok_iff_toNat (w : CmdWord) (i : Instr) :
    decode w = .ok i ↔ i.nremField ≤ 4 ∧ w.toNat = i.opc + 16 * i.firstBit.toNat + 32 * i.nremField := by
  rw [decode_eq_ok_iff_encode, ← Instr.wf_iff]
  refine and_congr_right fun hwf => ?_
  rw [← encode_toNat hwf, ← BitVec.toNat_inj, eq_comm]

/-- Settles O1: each row of the table gives the value of the word of its command; a row without `NREM` has 0 in that
field, which is no condition. -/
theorem decodeIsTheCommandTable : Obligations.DecodeIsTheCommandTable := by
  have noNrem (w : CmdWord) (i : Instr) (h : i.nremField = 0) :
      decode w = .ok i ↔ w.toNat = i.opc + 16 * i.firstBit.toNat + 32 * i.nremField :=
    (decode_eq_ok_iff_toNat w i).trans (and_iff_right (by omega))
  refine ⟨fun w => ⟨noNrem w .packA rfl, noNrem w .packB rfl, fun first => ⟨noNrem w (.kern8x6 first) rfl,
    noNrem w (.kern4x6 first) rfl, fun nrem => ⟨decode_eq_ok_iff_toNat w (.kern8x4 first nrem),
      decode_eq_ok_iff_toNat w (.kern4x4 first nrem)⟩⟩⟩, ?_⟩
  have word (i : Instr) (h : i.nremField ≤ 4) := encode_toNat (Instr.wf_iff.2 h)
  exact ⟨word .packA (by decide), word .packB (by decide), fun first => ⟨word (.kern8x6 first) (Nat.zero_le 4),
    word (.kern4x6 first) (Nat.zero_le 4), fun nrem hn => ⟨word (.kern8x4 first nrem) hn,
      word (.kern4x4 first nrem) hn⟩⟩⟩

/-! Reserved words (R98). -/

/-- The decoder answers a command or a reason (R102). -/
theorem decode_reserved_iff {w : CmdWord} : (∃ r, decode w = .error r) ↔ ¬ ∃ i, decode w = .ok i := by
  rcases decode w with r | i <;> simp

/-- The words that decode, by their fields (R93, R94, R98). -/
theorem decodes_iff {w : CmdWord} : (∃ i, decode w = .ok i) ↔ fieldZero w = 0 ∧
    ((fieldOpc w = 1 ∨ fieldOpc w = 2) ∧ (fieldFirst w).toNat = 0 ∧ fieldNrem w = 0 ∨
      (fieldOpc w = 4 ∨ fieldOpc w = 5) ∧ fieldNrem w = 0 ∨
      (fieldOpc w = 6 ∨ fieldOpc w = 7) ∧ fieldNrem w ≤ 4) := by
  simp only [decode_eq_ok_iff]
  constructor
  · rintro ⟨i, hwf, ho, hf, hn, hz⟩
    rw [ho, hf, hn]
    refine ⟨hz, ?_⟩
    cases i with
    | packA => exact .inl ⟨.inl rfl, rfl, rfl⟩
    | packB => exact .inl ⟨.inr rfl, rfl, rfl⟩
    | kern8x6 first => exact .inr (.inl ⟨.inl rfl, rfl⟩)
    | kern4x6 first => exact .inr (.inl ⟨.inr rfl, rfl⟩)
    | kern8x4 first nrem => exact .inr (.inr ⟨.inl rfl, Instr.wf_iff.1 hwf⟩)
    | kern4x4 first nrem => exact .inr (.inr ⟨.inr rfl, Instr.wf_iff.1 hwf⟩)
  · rintro ⟨hz, ⟨ho, hf, hn⟩ | ⟨ho, hn⟩ | ⟨ho, hn⟩⟩
    · have hf : fieldFirst w = false := Bool.toNat_eq_zero.1 hf
      rcases ho with ho | ho
      · exact ⟨.packA, rfl, ho, hf, hn, hz⟩
      · exact ⟨.packB, rfl, ho, hf, hn, hz⟩
    · rcases ho with ho | ho
      · exact ⟨.kern8x6 (fieldFirst w), rfl, ho, rfl, hn, hz⟩
      · exact ⟨.kern4x6 (fieldFirst w), rfl, ho, rfl, hn, hz⟩
    · rcases ho with ho | ho
      · exact ⟨.kern8x4 (fieldFirst w) (fieldNrem w), decide_eq_true hn, ho, rfl, rfl, hz⟩
      · exact ⟨.kern4x4 (fieldFirst w) (fieldNrem w), decide_eq_true hn, ho, rfl, rfl, hz⟩

/-- The well-formed commands (R98). -/
def wellFormedCommands : List Instr :=
  [.packA, .packB] ++ [false, true].flatMap fun first =>
    [.kern8x6 first, .kern4x6 first] ++ (List.range 5).flatMap fun nrem => [.kern8x4 first nrem, .kern4x4 first nrem]

theorem mem_wellFormedCommands {i : Instr} : i ∈ wellFormedCommands ↔ i.wf = true := by
  rw [Instr.wf_iff]
  cases i with
  | packA | packB => decide
  | kern8x6 first | kern4x6 first => cases first <;> decide
  | kern8x4 first nrem | kern4x4 first nrem =>
    cases first <;> simp [wellFormedCommands, Instr.nremField, Nat.lt_succ_iff]

/-- Two well-formed commands have different words (R102). -/
theorem encode_inj {i k : Instr} (hi : i.wf = true) (hk : k.wf = true) (h : encode i = encode k) : i = k :=
  Except.ok.inj ((decode_eq_ok_iff_encode.2 ⟨hi, h⟩).symm.trans (decode_eq_ok_iff_encode.2 ⟨hk, rfl⟩))

/-- Settles O3: the words that decode by their fields, and the 26 words of the well-formed commands. -/
theorem reservedCommandWords : Obligations.ReservedCommandWords := by
  refine ⟨fun w => ?_, wellFormedCommands.map encode, ?_, rfl, fun w => ?_⟩
  · rw [decode_reserved_iff, decodes_iff, fieldZero_eq, fieldOpc_eq, fieldFirst_toNat, fieldNrem_eq]
    omega
  · exact List.Nodup.map_on
      (fun i hi k hk => encode_inj (mem_wellFormedCommands.1 hi) (mem_wellFormedCommands.1 hk)) (by decide)
  · simp only [List.mem_map, mem_wellFormedCommands, decode_eq_ok_iff_encode]

/-- Settles O4: eleven words evaluated. -/
theorem writtenOutWordsDecode : Obligations.WrittenOutWordsDecode := by
  unfold Obligations.WrittenOutWordsDecode
  decide

end Sys2Proof

/-! SUPPORT. A call transaction that is presented, and the engine the launch frees (30_encoding.md R90, R98). -/

namespace Sys2Proof.Machine

section
variable {go : Instr → State → Host.Outcome State Fault Refusal} {s : State} {n : Nat} {e : Engine} {cmd : CmdWord}
  {x : Vector Word 7} (hn : s.engines[n]? = some e)
include hn

/-- An idle engine latches the call and hands the decoded command over (R90). -/
theorem present_of_decode {i : Instr} (hp : e.phase = .idle) (hd : decode cmd = .ok i) :
    present go n cmd x s = go i (s.latch n e cmd x) := by
  simp only [present, hn, hp, hd, if_true]

/-- A busy engine refuses the call (R90, V12). -/
theorem present_of_busy (hp : e.phase ≠ .idle) : present go n cmd x s = .refused .v12Busy := by
  simp only [present, hn, hp, if_false]

/-- An idle engine refuses a reserved word (R98, V1). -/
theorem present_of_reserved {r : Reserved} (hp : e.phase = .idle) (hd : decode cmd = .error r) :
    present go n cmd x s = .refused .v1InvalidCommand := by
  simp only [present, hn, hp, hd, if_true]

end

/-- The launch leaves engine 0 free to take a call (log 8). -/
theorem State.withFetchWord_engine (s : State) (nbits w : Nat) :
    ∃ e, (s.withFetchWord nbits w).engines[0]? = some e ∧ e.phase = .idle := by
  change ∃ e, (freeFirst s.engines)[0]? = some e ∧ e.phase = .idle
  cases s.engines with
  | nil => exact ⟨_, rfl, rfl⟩
  | cons e rest => exact ⟨_, rfl, rfl⟩

/-- The launch puts a call of its command word in front of what the outside world does (log 8). -/
theorem State.withFetchWord_agenda (s : State) (nbits w : Nat) : (s.withFetchWord nbits w).agenda =
    .call 0 (BitVec.ofNat 32 (w % 2 ^ nbits)) launchOperands :: s.agenda := rfl

/-- A step whose next action is a call of a valid word on an idle engine runs the command (R90). -/
theorem step_call {s : State} {n : Nat} {cmd : CmdWord} {x : Vector Word 7} {rest : List Event} {e : Engine}
    {i : Instr} (hag : s.agenda = .call n cmd x :: rest) (hn : s.engines[n]? = some e) (hp : e.phase = .idle)
    (hd : decode cmd = .ok i) : step s = exec i (State.latch { s with agenda := rest } n e cmd x) :=
  (step_cons hag).trans (present_of_decode (s := { s with agenda := rest }) hn hp hd)

/-- Settles O8: a call event is presented and latched, and the launch puts a call of its word in front, with engine 0
free. -/
theorem stepRunsTheDecodedCommand : Obligations.StepRunsTheDecodedCommand := by
  refine ⟨fun s n cmd x rest e i hag hn hp hd => step_call hag hn hp hd, fun s w i hw hd => ?_⟩
  obtain ⟨e, hn, hp⟩ := s.withFetchWord_engine 32 w
  have hag : (s.withFetchWord 32 w).agenda = .call 0 (BitVec.ofNat 32 w) launchOperands :: s.agenda := by
    rw [State.withFetchWord_agenda, Nat.mod_eq_of_lt hw]
  generalize s.withFetchWord 32 w = launched at hn hag ⊢
  exact ⟨e, hn, hp, step_call hag hn hp hd⟩

/-- Settles O9: both kinds of call event present the call, and `present` tests the phase and then the word. -/
theorem busyEngineAndReservedWordRefused : Obligations.BusyEngineAndReservedWordRefused := by
  intro s n cmd x rest e hag hn
  obtain ⟨go, hstep⟩ : ∃ go, step s = present go n cmd x { s with agenda := rest } := by
    rcases hag with hag | hag <;> exact ⟨_, step_cons hag⟩
  rw [hstep]
  exact ⟨fun hp => present_of_busy hn hp, fun hp ⟨r, hd⟩ => present_of_reserved hn hp hd⟩

end Sys2Proof.Machine

/-! SUPPORT. The addresses a call computes (20_memory.md R58, R59, R69; 30_encoding.md R97; 40_pack_a.md R122;
41_pack_b.md R143). -/

namespace Sys2Proof.Machine

open Sys2Proof.Safety

/-! Offsets (R97). -/

/-- A packed B buffer has at most three padding columns (R64, R145). -/
theorem packBSize_le (e : Engine) : packBSize e ≤ (e.hi - e.lo + 3) * (e.kmax - e.k0) := by
  set span := e.hi - e.lo
  set depth := e.kmax - e.k0
  have pad : (if 0 < span % 6 % 4 then 4 * depth else 0) ≤ (span % 6 % 4 + 3) * depth := by
    split
    · gcongr; omega
    · exact Nat.zero_le _
  calc packBSize e
      = span / 6 * 6 * depth + span % 6 / 4 * 4 * depth + (if 0 < span % 6 % 4 then 4 * depth else 0) := rfl
    _ ≤ span / 6 * 6 * depth + span % 6 / 4 * 4 * depth + (span % 6 % 4 + 3) * depth := by gcongr
    _ = (span / 6 * 6 + span % 6 / 4 * 4 + (span % 6 % 4 + 3)) * depth := by ring
    _ = (span + 3) * depth := by congr 1; omega

/-- Settles O7: each offset is one product of scalars, bounded factor by factor, and small terms; the packed B buffer
stays below `2^62` because `K` is a multiple of 4. -/
theorem offsetsStayBelow2Pow62 : Obligations.OffsetsStayBelow2Pow62 := by
  intro e hlds hlo hhi hk0 hkmax hk
  have rowOffset {r : Nat} (hr : r < 2 ^ 31 - 1) : r / 4 * e.lds ≤ 2 ^ 29 * (2 ^ 31 - 1) :=
    Nat.mul_le_mul (by omega) hlds
  refine ⟨?_, ?_, fun m k hm hk => ?_, fun k n hk hn => ?_, fun i j hi hj hldc => ?_⟩
  · have : (e.hi - e.lo) * (e.kmax - e.k0) ≤ (2 ^ 31 - 1) * (2 ^ 31 - 1) := Nat.mul_le_mul (by omega) (by omega)
    omega
  · have := packBSize_le e
    have : (e.hi - e.lo + 3) * (e.kmax - e.k0) ≤ (2 ^ 31 + 2) * (2 ^ 31 - 4) := Nat.mul_le_mul (by omega) (by omega)
    omega
  · have := rowOffset (r := m) (by omega)
    unfold Engine.addrA
    omega
  · have := rowOffset (r := k) (by omega)
    unfold Engine.addrB
    omega
  · have : i * e.ldc ≤ 7 * (2 ^ 31 - 1) := Nat.mul_le_mul (by omega) hldc
    rw [e.addrC_eq]
    omega

/-! Computed addresses (R97; log 11). -/

/-- Inside the contract every computed address is below `2^64` (V8). -/
theorem computes_lt {j : Job} {e : Engine} {m : Memory} {a : Nat} (h : Contract j e m) (ha : Computes j e a) :
    a < 2 ^ 64 := by
  cases j with
  | packA => exact PackAContract.v8Computed h a ha
  | packB => exact PackBContract.v8Computed h a ha
  | kernel mr nr nv first => exact ha.elim

/-- What a sequence of panel copies leaves in the registers (R122). -/
theorem Engine.copyRowPanels_regs (e : Engine) {groups : Nat} (hg : 0 < groups) (c : Copy) :
    (e.copyRowPanels groups c).1.optr = c.1.optr +
      BitVec.ofNat 64 (16 * (groups * e.packSteps * ((e.hi - c.1.cursor) / (4 * groups)))) ∧
    (e.copyRowPanels groups c).1.cursor = c.1.cursor + 4 * groups * ((e.hi - c.1.cursor) / (4 * groups)) :=
  have ⟨hoptr, hcursor, _⟩ := e.copyRowPanel_iterate hg ((e.hi - c.1.cursor) / (4 * groups)) c
  ⟨hoptr, hcursor⟩

/-- The registers the copy of `PACK_A` leaves: `OPTR` past the cells of both kinds of panel, the row cursor past their
rows (R122). -/
theorem Engine.copyA_regs (e : Engine) (m : Memory) :
    (e.copyA m).1.optr = e.pack.optr + BitVec.ofNat 64
      (16 * (2 * e.packSteps * ((e.hi - e.pack.cursor) / 8)) +
        16 * (1 * e.packSteps * ((e.hi - (e.pack.cursor + 8 * ((e.hi - e.pack.cursor) / 8))) / 4))) ∧
    (e.copyA m).1.cursor = e.pack.cursor + 8 * ((e.hi - e.pack.cursor) / 8) +
      4 * ((e.hi - (e.pack.cursor + 8 * ((e.hi - e.pack.cursor) / 8))) / 4) := by
  obtain ⟨hoptr₂, hcursor₂⟩ := e.copyRowPanels_regs (groups := 2) (by omega) (e.pack, m)
  obtain ⟨hoptr₁, hcursor₁⟩ := e.copyRowPanels_regs (groups := 1) (by omega) (e.copyRowPanels 2 (e.pack, m))
  rw [Engine.copyA, hoptr₁, hcursor₁, hoptr₂, hcursor₂, optr_add]
  exact ⟨rfl, rfl⟩

/-- A copy of `PACK_A` from its start values inside the contract ends with `OPTR` at the end of the packed region,
without a wrap, and with `y = HI` (R97, R122). -/
theorem Engine.copyA_ends {e : Engine} (m : Memory) (hp : e.pack = e.packStart) (hc : PackAContract e m) :
    (e.copyA m).1.optr.toNat = e.dst + (e.hi - e.lo) * (e.kmax - e.k0) ∧ (e.copyA m).1.cursor = e.hi := by
  have hcells := packA_cells hc
  obtain ⟨-, hle, hrows⟩ := hc.v3
  have hcur : e.pack.cursor = e.lo := by rw [hp]; rfl
  have hdst : e.pack.optr.toNat = e.dst := by rw [hp]; simp [Engine.packStart, Engine.dst, Engine.operand]
  have htop := hc.v8Computed (e.dst + 16 * ((e.hi - e.lo) * (e.kmax - e.k0) / 16)) ⟨_, by omega, rfl⟩
  obtain ⟨hoptr, hcursor⟩ := e.copyA_regs m
  rw [hcur] at hoptr hcursor
  rw [hcells] at hoptr
  refine ⟨?_, by omega⟩
  rw [hoptr, BitVec.toNat_add, BitVec.toNat_ofNat, hdst]
  omega

/-- Settles O41: a call completes only inside the contract, which bounds the addresses it computes, the last `OPTR` of
`PACK_A` among them. -/
theorem noComputedAddressReachesTheTop : Obligations.NoComputedAddressReachesTheTop := by
  constructor
  · rintro i s e a he ha htop ⟨t, ht⟩
    obtain ⟨e', hn, -, hv, -⟩ := runJob_next.1 (runJob_of_exec ht)
    obtain rfl := Option.some.inj (he.symm.trans hn)
    exact Nat.not_lt.2 htop (computes_lt ((State.violation_eq_none i s s.active e).1 hv).1 ha)
  · rintro s e ⟨-, -, hc, -⟩
    have hbegun := (contract_of_x (Job.begin_x .packA e) .packA s.mem).2 hc
    exact Engine.copyA_ends (e := Job.packA.begin e) s.mem rfl hbegun

end Sys2Proof.Machine

/-! SUPPORT. Calls inside the contract complete, and the panels `PACK_A` leaves (40_pack_a.md R122 to R129). -/

namespace Sys2Proof.Machine

open Sys2Proof.Safety

/-! Calls inside the contract (R90, R211). -/

/-- A call inside the contract completes, and only its own engine and memory are replaced (R31, R90). -/
theorem exec_of_ready {i : Instr} {s : State} {e : Engine} (hwf : i.wf = true) (h : Ready s (jobOf i) e) :
    exec i s = .next (s.completed (jobOf i) e) ∧ CallFrame s (s.completed (jobOf i) e) := by
  obtain ⟨hn, hp, hc, hr⟩ := h
  have hexec : exec i s = .next (s.completed (jobOf i) e) := by
    rw [exec_eq_runJob hwf]
    exact runJob_next.2 ⟨e, hn, hp, (State.violation_eq_none i s s.active e).2 ⟨hc, hr⟩, rfl⟩
  exact ⟨hexec, (completedCallFrame i s _ e hwf hn hexec).2.2⟩

/-! Cells copied to addresses that do not wrap (R122). -/

theorem optr_toNat_add {optr : Word} {k : Nat} (h : optr.toNat + 16 * k < 2 ^ 64) :
    (optr + BitVec.ofNat 64 (16 * k)).toNat = optr.toNat + 16 * k := by
  rw [BitVec.toNat_add, BitVec.toNat_ofNat]; omega

/-- A copied cell holds its source cell, when the source lies outside the bytes that are written (R71, R122). -/
theorem read_copyCells {src : Nat → Nat} {optr : Word} {n k t : Nat} (m : Memory) (hn : optr.toNat + 16 * n < 2 ^ 64)
    (hk : k < n) (ht : t < 16)
    (hsrc : ∀ t, t < 16 → ¬ (optr.toNat ≤ src k + t ∧ src k + t < optr.toNat + 16 * n)) :
    Memory.read (copyCells src optr n m) (optr.toNat + 16 * k + t) = Memory.read m (src k + t) := by
  have haddr : ∀ {c}, c ∈ List.range n → (optr + BitVec.ofNat 64 (16 * c)).toNat = optr.toNat + 16 * c := fun {c} hc =>
    optr_toNat_add (by have := List.mem_range.1 hc; omega)
  have hmem := List.mem_range.2 hk
  rw [Memory.read, copyCells, get?_writeSeq_inside (len := fun _ => 16) (by simp) (List.range n) m (k := k)
    (fun m' hm' => ?stable) hmem (by rw [haddr hmem]; omega) (fun c hc hx => ?unique)]
  case stable =>
    refine List.map_congr_left fun t ht => Memory.read_congr (hm' _ fun c hc hx => hsrc t (List.mem_range.1 ht) ?_)
    rw [haddr hc] at hx
    have := List.mem_range.1 hc
    omega
  case unique =>
    rw [haddr hc] at hx
    omega
  rw [haddr hmem, show optr.toNat + 16 * k + t - (optr.toNat + 16 * k) = t by omega]
  exact Memory.getD_readBytes m (src k) ht _

/-! The panels (R60, R123). -/

/-- Row `i` of a panel has its cell of step `s` among the cells of the panel (R124, R125). -/
theorem panelCell_lt {groups steps s i : Nat} (hs : s < steps) (hi : i < 4 * groups) :
    groups * s + i / 4 < groups * steps := by
  have : groups * (s + 1) ≤ groups * steps := Nat.mul_le_mul_left _ hs
  have : groups * (s + 1) = groups * s + groups := Nat.mul_succ ..
  omega

/-- The cell of step `s` of panel `p` that holds row `i` of the panel comes from that row and step of
`A` (R58, R123). -/
theorem Engine.panelsSource_eq_addrA (e : Engine) {groups y p s i kk : Nat} (hy : y % 4 = 0) (hk0 : e.k0 % 4 = 0)
    (hs : s < e.packSteps) (hi : i < 4 * groups) (hkk : kk < 4) :
    e.panelsSource groups y (groups * e.packSteps * p + (groups * s + i / 4)) + (4 * (i % 4) + kk) =
      e.addrA (y + 4 * groups * p + i) (e.k0 + 4 * s + kk) := by
  have hcell := panelCell_lt hs hi
  have hpanel : (groups * e.packSteps * p + (groups * s + i / 4)) / (groups * e.packSteps) = p := by
    rw [Nat.mul_add_div (by omega), Nat.div_eq_of_lt hcell, Nat.add_zero]
  have hin : (groups * e.packSteps * p + (groups * s + i / 4)) % (groups * e.packSteps) = groups * s + i / 4 := by
    rw [Nat.mul_add_mod, Nat.mod_eq_of_lt hcell]
  have hgroup : (groups * s + i / 4) % groups = i / 4 := by rw [Nat.mul_add_mod, Nat.mod_eq_of_lt (by omega)]
  have hstep : (groups * s + i / 4) / groups = s := by
    rw [Nat.mul_add_div (by omega), Nat.div_eq_of_lt (by omega), Nat.add_zero]
  have hrow : (y + 4 * groups * p) / 4 + i / 4 = (y + 4 * groups * p + i) / 4 := by
    have : 4 * groups * p = 4 * (groups * p) := Nat.mul_assoc ..
    omega
  have hmod : (y + 4 * groups * p + i) % 4 = i % 4 := by
    have : 4 * groups * p = 4 * (groups * p) := Nat.mul_assoc ..
    omega
  rw [Engine.panelsSource, Engine.cellSource, hpanel, hin, hgroup, hstep, hrow, Engine.addrA, hmod, Engine.packFirst]
  generalize (y + 4 * groups * p + i) / 4 * e.lds = row
  omega

/-- `K` is four times the number of steps (R122). -/
theorem packA_depth {e : Engine} {m : Memory} (hc : PackAContract e m) : e.kmax - e.k0 = 4 * e.packSteps := by
  obtain ⟨-, -, hk⟩ := hc.v4
  unfold Engine.packSteps Engine.packK
  omega

/-- Where the two kinds of panel lie: the 4-row panel follows the 8-row panels, and both fill the packed region, which
ends below `2^64` (R60, R97). -/
theorem packA_layout {e : Engine} {m : Memory} (hc : PackAContract e m) :
    16 * (2 * e.packSteps * ((e.hi - e.lo) / 8)) = (e.hi - e.lo) / 8 * 8 * (e.kmax - e.k0) ∧
    (e.hi - e.lo) / 8 * 8 * (e.kmax - e.k0) + 16 * (1 * e.packSteps * ((e.hi - e.lo) % 8 / 4)) =
      (e.hi - e.lo) * (e.kmax - e.k0) ∧
    e.dst + (e.hi - e.lo) * (e.kmax - e.k0) < 2 ^ 64 := by
  have hcells := packA_cells hc
  have htop := hc.v8Computed (e.dst + 16 * ((e.hi - e.lo) * (e.kmax - e.k0) / 16)) ⟨_, by omega, rfl⟩
  have h8 : 16 * (2 * e.packSteps * ((e.hi - e.lo) / 8)) = (e.hi - e.lo) / 8 * 8 * (e.kmax - e.k0) := by
    rw [packA_depth hc]; ring
  rw [show (e.hi - (e.lo + 8 * ((e.hi - e.lo) / 8))) / 4 = (e.hi - e.lo) % 8 / 4 by omega] at hcells
  omega

/-- A sequence of panel copies into the packed region leaves the panels of R123: `groups` is 2 for 8-row panels and 1
for the 4-row panel; `m₀` is memory before the call. -/
theorem read_copyPanels {e : Engine} {groups y count p s i kk : Nat} {optr : Word} {m m₀ : Memory}
    (hc : PackAContract e m₀) (hm : AgreeOn (PackAReads e) m m₀) (hg : 0 < groups) (hy : y % 4 = 0) (hlo : e.lo ≤ y)
    (hhi : y + 4 * groups * count ≤ e.hi) (hfrom : e.dst ≤ optr.toNat)
    (hto : optr.toNat + 16 * (groups * e.packSteps * count) ≤ e.dst + (e.hi - e.lo) * (e.kmax - e.k0))
    (hp : p < count) (hs : s < e.packSteps) (hi : i < 4 * groups) (hkk : kk < 4) :
    Memory.read (copyCells (e.panelsSource groups y) optr (groups * e.packSteps * count) m)
        (optr.toNat + p * (4 * groups) * (e.kmax - e.k0) + 16 * groups * s + 4 * i + kk) =
      Memory.read m₀ (e.addrA (y + 4 * groups * p + i) (e.k0 + 4 * s + kk)) := by
  obtain ⟨-, -, htop⟩ := packA_layout hc
  set n := groups * e.packSteps * p + (groups * s + i / 4) with hn
  have hcell : n < groups * e.packSteps * count := by
    have : groups * s + i / 4 < groups * e.packSteps := panelCell_lt hs hi
    have : groups * e.packSteps * (p + 1) ≤ groups * e.packSteps * count := Nat.mul_le_mul_left _ hp
    have : groups * e.packSteps * (p + 1) = groups * e.packSteps * p + groups * e.packSteps := Nat.mul_succ ..
    omega
  have hreads : ∀ t, t < 16 → PackAReads e (e.panelsSource groups y n + t) := fun t ht =>
    panelsSource_reads hg hy hlo hhi hcell ht
  have hplace : optr.toNat + p * (4 * groups) * (e.kmax - e.k0) + 16 * groups * s + 4 * i + kk =
      optr.toNat + 16 * n + (4 * (i % 4) + kk) := by
    have : p * (4 * groups) * (4 * e.packSteps) = 16 * (groups * e.packSteps * p) := by ring
    have : 16 * groups * s = 16 * (groups * s) := Nat.mul_assoc ..
    rw [packA_depth hc]
    omega
  have hbyte : 4 * (i % 4) + kk < 16 := by omega
  rw [hplace, read_copyCells m (by omega) hcell hbyte fun t ht hin => hc.v10 _ (hreads t ht) ⟨by omega, by omega⟩,
    Memory.read_congr (hm _ (hreads _ hbyte)), e.panelsSource_eq_addrA hy hc.v4.1 hs hi hkk]

/-- `OPTR` at the start of the 8-row panels and of the 4-row panel (R122). -/
theorem packA_starts {e : Engine} {m : Memory} (hc : PackAContract e m) :
    (BitVec.ofNat 64 e.dst).toNat = e.dst ∧
    (BitVec.ofNat 64 (e.dst + (e.hi - e.lo) / 8 * 8 * (e.kmax - e.k0))).toNat =
      e.dst + (e.hi - e.lo) / 8 * 8 * (e.kmax - e.k0) := by
  obtain ⟨-, hfill, htop⟩ := packA_layout hc
  rw [BitVec.toNat_ofNat, BitVec.toNat_ofNat]
  omega

/-- The copy of `PACK_A` from its start values: the 8-row panels at `DST`, then the 4-row panel behind them (R122). -/
theorem copyA_eq_panels {e : Engine} {m : Memory} (hp : e.pack = e.packStart) (hc : PackAContract e m) (m' : Memory) :
    (e.copyA m').2 =
      copyCells (e.panelsSource 1 (e.lo + 8 * ((e.hi - e.lo) / 8)))
        (BitVec.ofNat 64 (e.dst + (e.hi - e.lo) / 8 * 8 * (e.kmax - e.k0)))
        (1 * e.packSteps * ((e.hi - e.lo) % 8 / 4))
        (copyCells (e.panelsSource 2 e.lo) (BitVec.ofNat 64 e.dst) (2 * e.packSteps * ((e.hi - e.lo) / 8)) m') := by
  have hcur : e.pack.cursor = e.lo := by rw [hp]; rfl
  have hoptr : e.pack.optr = BitVec.ofNat 64 e.dst := by rw [hp]; rfl
  rw [e.copyA_mem, hcur, hoptr, (packA_layout hc).1, ← BitVec.ofNat_add,
    show (e.hi - (e.lo + 8 * ((e.hi - e.lo) / 8))) / 4 = (e.hi - e.lo) % 8 / 4 by omega]

/-- `PACK_A` inside the contract leaves the packed panels of R123 and no other change. -/
theorem packAResult_copyA {e : Engine} {m : Memory} (hp : e.pack = e.packStart) (hc : PackAContract e m) :
    PackAResult e m (e.copyA m).2 := by
  obtain ⟨h8, hfill, htop⟩ := packA_layout hc
  obtain ⟨hat8, hat4⟩ := packA_starts hc
  obtain ⟨hlo, hle, -⟩ := hc.v3
  have hpanels := copyA_eq_panels hp hc m
  set n8 := (e.hi - e.lo) / 8 with hn8
  set n4 := (e.hi - e.lo) % 8 / 4 with hn4
  set at8 : Word := BitVec.ofNat 64 e.dst
  set at4 : Word := BitVec.ofNat 64 (e.dst + n8 * 8 * (e.kmax - e.k0))
  set m₈ := copyCells (e.panelsSource 2 e.lo) at8 (2 * e.packSteps * n8) m
  refine ⟨fun p s i kk hpn hs hi hkk => ?_, fun hone s i kk hs hi hkk => ?_, fun a => get?_copyA_of_not_writes m hp hc⟩
  · have hbefore : p * 8 * (e.kmax - e.k0) + 32 * s + 4 * i + kk < n8 * 8 * (e.kmax - e.k0) := by
      have : (p + 1) * 8 * (e.kmax - e.k0) ≤ n8 * 8 * (e.kmax - e.k0) := by gcongr; omega
      have : (p + 1) * 8 * (e.kmax - e.k0) = p * 8 * (e.kmax - e.k0) + 8 * (e.kmax - e.k0) := by ring
      omega
    rw [hpanels, Memory.read_congr (get?_copyCells_outside m₈ (by omega) (by omega)), ← hat8]
    exact read_copyPanels hc (fun _ _ => rfl) (by omega) hlo le_rfl (by omega) hat8.ge (by omega) hpn hs hi hkk
  · have hm₈ : AgreeOn (PackAReads e) m₈ m := fun a ha =>
      get?_copyCells_outside m (by omega) fun hin => hc.v10 a ha ⟨by omega, by omega⟩
    have hread := read_copyPanels (groups := 1) (y := e.lo + 8 * n8) (count := n4) (p := 0) (optr := at4) hc hm₈
      (by omega) (by omega) (by omega) (by omega) (by omega) (by omega) (by omega) hs hi hkk
    rw [hpanels]
    simpa [hat4] using hread

/-- Settles O12: the copy of the begun engine, whose operands are those of the engine in hand. -/
theorem packACompletesWithItsPanels : Obligations.PackACompletesWithItsPanels := by
  intro s e hr
  obtain ⟨hexec, hframe⟩ := exec_of_ready (i := .packA) rfl hr
  have hbegun := (contract_of_x (Job.begin_x .packA e) .packA s.mem).2 hr.contract
  obtain ⟨h8, h4, hrest⟩ := packAResult_copyA (e := Job.packA.begin e) rfl hbegun
  exact ⟨_, hexec, ⟨h8, h4, hrest⟩, hframe⟩

end Sys2Proof.Machine

/-! SUPPORT. The places of the source bytes in a packed A buffer (40_pack_a.md R129). -/

namespace Sys2Proof.Machine

open Sys2Proof.Safety

/-! The map of R129 and its inverse. -/

/-- Where the packed buffer of `PACK_A` holds `A[m][k]` (R129). -/
def packAPlace (e : Engine) (m k : Nat) : Nat :=
  if (m - e.lo) / 8 < (e.hi - e.lo) / 8 then
    e.dst + (m - e.lo) / 8 * 8 * (e.kmax - e.k0) + 32 * ((k - e.k0) / 4) + 4 * ((m - e.lo) % 8) + (k - e.k0) % 4
  else e.dst + (e.hi - e.lo) / 8 * 8 * (e.kmax - e.k0) + 16 * ((k - e.k0) / 4) + 4 * ((m - e.lo) % 4) + (k - e.k0) % 4

/-- The row and index of `A` whose place is `a`: the panel first, then the cell and the byte in the cell (R123). -/
def packAOrigin (e : Engine) (a : Nat) : Nat × Nat :=
  let panel := (a - e.dst) / (8 * (e.kmax - e.k0))
  let byte := (a - e.dst) % (8 * (e.kmax - e.k0))
  let byte4 := a - e.dst - (e.hi - e.lo) / 8 * 8 * (e.kmax - e.k0)
  if panel < (e.hi - e.lo) / 8 then (e.lo + 8 * panel + byte % 32 / 4, e.k0 + 4 * (byte / 32) + byte % 4)
  else (e.lo + 8 * ((e.hi - e.lo) / 8) + byte4 % 16 / 4, e.k0 + 4 * (byte4 / 16) + byte4 % 4)

/-- A row and an index of the sub-range that `PACK_A` packs (R129). -/
structure InPackARange (e : Engine) (m k : Nat) : Prop where
  row : e.lo ≤ m ∧ m < e.hi
  index : e.k0 ≤ k ∧ k < e.kmax

section
variable {e : Engine} {mem : Memory} (hc : PackAContract e mem)
include hc

/-- Every place lies in the packed region (R60, R129). -/
theorem packAWrites_place {m k : Nat} (h : InPackARange e m k) : PackAWrites e (packAPlace e m k) := by
  obtain ⟨-, -, hrows⟩ := hc.v3
  obtain ⟨-, -, hK⟩ := hc.v4
  obtain ⟨⟨hm, hm'⟩, hk, hk'⟩ := h
  unfold PackAWrites packAPlace
  set K := e.kmax - e.k0
  split
  · have : ((m - e.lo) / 8 + 1) * 8 * K ≤ (e.hi - e.lo) * K := by gcongr; omega
    have : ((m - e.lo) / 8 + 1) * 8 * K = (m - e.lo) / 8 * 8 * K + 8 * K := by ring
    omega
  · have : ((e.hi - e.lo) / 8 * 8 + 4) * K ≤ (e.hi - e.lo) * K := by gcongr; omega
    have : ((e.hi - e.lo) / 8 * 8 + 4) * K = (e.hi - e.lo) / 8 * 8 * K + 4 * K := by ring
    omega

/-- The origin of a place is the pair it belongs to, so no two pairs share a place (R129). -/
theorem packAOrigin_place {m k : Nat} (h : InPackARange e m k) : packAOrigin e (packAPlace e m k) = (m, k) := by
  obtain ⟨-, -, hrows⟩ := hc.v3
  obtain ⟨-, -, hK⟩ := hc.v4
  obtain ⟨⟨hm, hm'⟩, hk, hk'⟩ := h
  unfold packAOrigin packAPlace
  set K := e.kmax - e.k0
  set n8 := (e.hi - e.lo) / 8
  split
  · next hpanel =>
    set p := (m - e.lo) / 8
    set c := 32 * ((k - e.k0) / 4) + 4 * ((m - e.lo) % 8) + (k - e.k0) % 4 with hcdef
    have hoff : e.dst + p * 8 * K + 32 * ((k - e.k0) / 4) + 4 * ((m - e.lo) % 8) + (k - e.k0) % 4 - e.dst =
        8 * K * p + c := by
      have : p * 8 * K = 8 * K * p := by ring
      omega
    have hc8 : c < 8 * K := by omega
    have hdiv : (8 * K * p + c) / (8 * K) = p := by
      rw [Nat.mul_add_div (by omega), Nat.div_eq_of_lt hc8, Nat.add_zero]
    simp only [hoff, hdiv, Nat.mul_add_mod, Nat.mod_eq_of_lt hc8, if_pos hpanel]
    exact Prod.ext (by dsimp only; omega) (by dsimp only; omega)
  · next hpanel =>
    have hlast : ¬ (e.dst + n8 * 8 * K + 16 * ((k - e.k0) / 4) + 4 * ((m - e.lo) % 4) + (k - e.k0) % 4 - e.dst) /
        (8 * K) < n8 := by
      have : n8 * (8 * K) = n8 * 8 * K := by ring
      rw [Nat.not_lt, Nat.le_div_iff_mul_le (by omega)]
      omega
    simp only [if_neg hlast]
    exact Prod.ext (by dsimp only; omega) (by dsimp only; omega)

/-- Every byte of the packed region is the place of its origin (R129). -/
theorem packAPlace_origin {a : Nat} (ha : PackAWrites e a) :
    InPackARange e (packAOrigin e a).1 (packAOrigin e a).2 ∧
    packAPlace e (packAOrigin e a).1 (packAOrigin e a).2 = a := by
  obtain ⟨-, -, hrows⟩ := hc.v3
  obtain ⟨-, -, hK⟩ := hc.v4
  obtain ⟨hlow, hhigh⟩ := ha
  have hpos : 0 < e.kmax - e.k0 := Nat.pos_of_ne_zero fun h => by rw [h] at hhigh; omega
  unfold packAOrigin
  dsimp only
  split
  · next hpanel =>
    have hsplit := Nat.div_add_mod (a - e.dst) (8 * (e.kmax - e.k0))
    have hbyte := Nat.mod_lt (a - e.dst) (by omega : 8 * (e.kmax - e.k0) > 0)
    set p := (a - e.dst) / (8 * (e.kmax - e.k0))
    set c := (a - e.dst) % (8 * (e.kmax - e.k0))
    have hp : (e.lo + 8 * p + c % 32 / 4 - e.lo) / 8 = p := by omega
    have : p * 8 * (e.kmax - e.k0) = 8 * (e.kmax - e.k0) * p := by ring
    refine ⟨⟨by omega, by omega⟩, ?_⟩
    rw [packAPlace, hp, if_pos hpanel]
    omega
  · next hpanel =>
    have hafter : (e.hi - e.lo) / 8 * 8 * (e.kmax - e.k0) ≤ a - e.dst := by
      rw [Nat.not_lt, Nat.le_div_iff_mul_le (by omega)] at hpanel
      rwa [Nat.mul_assoc]
    have hfour : (e.hi - e.lo) % 8 = 4 ∧
        (e.hi - e.lo) * (e.kmax - e.k0) = (e.hi - e.lo) / 8 * 8 * (e.kmax - e.k0) + 4 * (e.kmax - e.k0) := by
      have hspan : (e.hi - e.lo) * (e.kmax - e.k0) =
          (e.hi - e.lo) / 8 * 8 * (e.kmax - e.k0) + (e.hi - e.lo) % 8 * (e.kmax - e.k0) := by
        rw [← Nat.add_mul]; congr 1; omega
      obtain hnone | hfour : (e.hi - e.lo) % 8 = 0 ∨ (e.hi - e.lo) % 8 = 4 := by omega
      · rw [hnone] at hspan; omega
      · rw [hfour] at hspan; exact ⟨hfour, hspan⟩
    have hrow : ¬ (e.lo + 8 * ((e.hi - e.lo) / 8) + (a - e.dst - (e.hi - e.lo) / 8 * 8 * (e.kmax - e.k0)) % 16 / 4 -
        e.lo) / 8 < (e.hi - e.lo) / 8 := by omega
    refine ⟨⟨by omega, by omega⟩, ?_⟩
    rw [packAPlace, if_neg hrow]
    omega

/-- The packed buffer unpacks: the place of `(m, k)` holds `A[m][k]` (R123, R129). -/
theorem read_packAPlace {mem' : Memory} (hres : PackAResult e mem mem') {m k : Nat} (h : InPackARange e m k) :
    Memory.read mem' (packAPlace e m k) = Memory.read mem (e.addrA m k) := by
  obtain ⟨-, -, hrows⟩ := hc.v3
  obtain ⟨-, -, hK⟩ := hc.v4
  obtain ⟨⟨hm, hm'⟩, hk, hk'⟩ := h
  have hindex : e.k0 + 4 * ((k - e.k0) / 4) + (k - e.k0) % 4 = k := by omega
  unfold packAPlace
  split
  · next hpanel =>
    rw [hres.rows8 _ _ _ _ hpanel (by omega) (by omega) (by omega), hindex,
      show e.lo + 8 * ((m - e.lo) / 8) + (m - e.lo) % 8 = m by omega]
  · next hpanel =>
    rw [hres.rows4 (by omega) _ _ _ (by omega) (by omega) (by omega), hindex,
      show e.lo + 8 * ((e.hi - e.lo) / 8) + (m - e.lo) % 4 = m by omega]

end

/-- Settles O13: the map of R129 has `packAOrigin` as its inverse, and the packed panels read back through it. -/
theorem packARoundTrip : Obligations.PackARoundTrip := by
  intro s e hr
  obtain ⟨t, hexec, hres, -⟩ := packACompletesWithItsPanels s e hr
  have hc : PackAContract e s.mem := hr.contract
  refine ⟨t, hexec, fun m k hm hm' hk hk' => ?_, fun a ha => ?_⟩
  · have hin : InPackARange e m k := ⟨⟨hm, hm'⟩, hk, hk'⟩
    exact ⟨congrArg s8 (read_packAPlace hc hres hin), packAWrites_place hc hin⟩
  · obtain ⟨⟨⟨hm, hm'⟩, hk, hk'⟩, hplace⟩ := packAPlace_origin hc ha
    refine ⟨_, _, hm, hm', hk, hk', hplace, fun m' k' h1 h2 h3 h4 hp => ?_⟩
    have horigin := packAOrigin_place hc ⟨⟨h1, h2⟩, h3, h4⟩
    rw [show packAPlace e m' k' = a from hp] at horigin
    exact ⟨congrArg Prod.fst horigin.symm, congrArg Prod.snd horigin.symm⟩

end Sys2Proof.Machine

/-! SUPPORT. Packers with an empty range (40_pack_a.md R128, 41_pack_b.md R149), and that every byte a call writes
depends on the bytes it reads (40_pack_a.md R126, 41_pack_b.md R147, 42_kernel_common.md R164, R177). -/

namespace Sys2Proof.Machine

open Sys2Proof.Safety

/-! Empty ranges. -/

/-- With an empty range there is no cell to copy (R128). -/
theorem copyA_of_empty {e : Engine} {m : Memory} (hp : e.pack = e.packStart) (hc : PackAContract e m)
    (hempty : e.hi = e.lo ∨ e.kmax = e.k0) : (e.copyA m).2 = m := by
  obtain ⟨h8, hfill, -⟩ := packA_layout hc
  have hnone : (e.hi - e.lo) * (e.kmax - e.k0) = 0 := by
    rcases hempty with h | h <;> simp [h]
  rw [copyA_eq_panels hp hc m, show 2 * e.packSteps * ((e.hi - e.lo) / 8) = 0 by omega,
    show 1 * e.packSteps * ((e.hi - e.lo) % 8 / 4) = 0 by omega]
  rfl

/-- With an empty range there is no run to copy: no step, or no panel (R149). -/
theorem allRuns_of_empty {e : Engine} (hempty : e.hi = e.lo ∨ e.kmax = e.k0) : e.allRuns = [] := by
  rcases hempty with h | h
  · have hruns : ∀ s, e.stepRuns s = [] := fun s => by
      simp [Engine.stepRuns, Engine.n6, Engine.n4, Engine.rem, Engine.span, h]
    simp [Engine.allRuns, hruns]
  · simp [Engine.allRuns, Engine.packSteps, Engine.packK, h]

/-- Settles O16: the copy loops have nothing to copy. -/
theorem emptyPackerRangesDoNothing : Obligations.EmptyPackerRangesDoNothing := by
  intro s e hempty
  constructor
  · intro hr
    obtain ⟨hexec, hframe⟩ := exec_of_ready (i := .packA) rfl hr
    have hbegun := (contract_of_x (Job.begin_x .packA e) .packA s.mem).2 hr.contract
    exact ⟨_, hexec, copyA_of_empty (e := Job.packA.begin e) rfl hbegun hempty, hframe⟩
  · intro hr
    obtain ⟨hexec, hframe⟩ := exec_of_ready (i := .packB) rfl hr
    have hcopy : ((Job.packB.begin e).copyB s.mem).2 = s.mem := by
      rw [Engine.copyB_mem, allRuns_of_empty (e := Job.packB.begin e) hempty]
      rfl
    exact ⟨_, hexec, hcopy, hframe⟩

/-! What is written depends on what is read. -/

/-- After a sequence of block writes whose bytes depend on the contents of `R` alone, two memories that agree on `R`
agree on the blocks too. -/
theorem AgreeOn.writeSeq_blocks {ι : Type} {addr : ι → Nat} {data : Memory → ι → List Byte} {len : ι → Nat}
    {R : Nat → Prop} {l : List ι} (hlen : ∀ m k, (data m k).length = len k)
    (hdata : ∀ k ∈ l, ∀ m m', AgreeOn R m m' → data m k = data m' k) {m m' : Memory} (h : AgreeOn R m m') :
    AgreeOn (fun a => R a ∨ ∃ k ∈ l, addr k ≤ a ∧ a < addr k + len k) (Machine.writeSeq addr data l m)
      (Machine.writeSeq addr data l m') := by
  induction l generalizing m m' R with
  | nil =>
    rintro a (ha | ⟨k, hk, -⟩)
    · exact h a ha
    · simp at hk
  | cons k l ih =>
    have hblock : AgreeOn (fun a => R a ∨ (addr k ≤ a ∧ a < addr k + len k))
        (Memory.writeBytes m (addr k) (data m k)) (Memory.writeBytes m' (addr k) (data m' k)) := by
      intro a ha
      rw [← hdata k (by simp) m m' h, Memory.get?_writeBytes, Memory.get?_writeBytes, hlen]
      split
      · rfl
      · next hout => exact h a (ha.resolve_right hout)
    have hrest := ih (R := fun a => R a ∨ (addr k ≤ a ∧ a < addr k + len k))
      (fun c hc m m' h => hdata c (by simp [hc]) m m' fun a ha => h a (.inl ha)) hblock
    rintro a (ha | ⟨c, hc, hin⟩)
    · exact hrest a (.inl (.inl ha))
    · rcases List.mem_cons.1 hc with rfl | hc
      · exact hrest a (.inl (.inr hin))
      · exact hrest a (.inr ⟨c, hc, hin⟩)

/-- Panels copied to addresses that do not wrap depend on the source bytes of `PACK_A` alone (R126). -/
theorem AgreeOn.copyPanels_cells {e : Engine} {R : Nat → Prop} {m m' : Memory} {groups y count : Nat} {optr : Word}
    (hR : ∀ a, PackAReads e a → R a) (hg : 0 < groups) (hy : y % 4 = 0) (hlo : e.lo ≤ y)
    (hhi : y + 4 * groups * count ≤ e.hi) (hn : optr.toNat + 16 * (groups * e.packSteps * count) < 2 ^ 64)
    (h : AgreeOn R m m') :
    AgreeOn (fun a => R a ∨ (optr.toNat ≤ a ∧ a < optr.toNat + 16 * (groups * e.packSteps * count)))
      (copyCells (e.panelsSource groups y) optr (groups * e.packSteps * count) m)
      (copyCells (e.panelsSource groups y) optr (groups * e.packSteps * count) m') := by
  unfold copyCells
  have hblocks := h.writeSeq_blocks (addr := fun k => (optr + BitVec.ofNat 64 (16 * k)).toNat) (len := fun _ => 16)
    (data := fun m k => Memory.readBytes m (e.panelsSource groups y k) 16)
    (l := List.range (groups * e.packSteps * count)) (by simp) (fun n hn m m' h => h.readBytes fun t ht =>
      hR _ (panelsSource_reads hg hy hlo hhi (List.mem_range.1 hn) ht))
  refine fun a ha => hblocks a (ha.imp_right fun ⟨hle, hlt⟩ => ?_)
  have hcell : (a - optr.toNat) / 16 < groups * e.packSteps * count := by omega
  refine ⟨(a - optr.toNat) / 16, List.mem_range.2 hcell, ?_⟩
  rw [optr_toNat_add (by omega)]
  omega

/-- The packed A buffer depends on the source bytes alone (R126). -/
theorem AgreeOn.copyA_writes {e : Engine} {m m' : Memory} (hp : e.pack = e.packStart) (hc : PackAContract e m)
    (h : AgreeOn (PackAReads e) m m') : AgreeOn (PackAWrites e) (e.copyA m).2 (e.copyA m').2 := by
  obtain ⟨h8, hfill, htop⟩ := packA_layout hc
  obtain ⟨hat8, hat4⟩ := packA_starts hc
  obtain ⟨hlo, hle, -⟩ := hc.v3
  rw [copyA_eq_panels hp hc m, copyA_eq_panels hp hc m']
  have h₈ := AgreeOn.copyPanels_cells (groups := 2) (count := (e.hi - e.lo) / 8) (optr := BitVec.ofNat 64 e.dst)
    (fun _ ha => ha) (by omega) hlo le_rfl (by omega) (by omega) h
  have h₄ := AgreeOn.copyPanels_cells (groups := 1) (y := e.lo + 8 * ((e.hi - e.lo) / 8))
    (count := (e.hi - e.lo) % 8 / 4) (optr := BitVec.ofNat 64 (e.dst + (e.hi - e.lo) / 8 * 8 * (e.kmax - e.k0)))
    (fun _ ha => .inl ha) (by omega) (by omega) (by omega) (by omega) (by omega) h₈
  rintro a ⟨hge, hlt⟩
  refine h₄ a ?_
  dsimp only
  rw [hat8, hat4]
  omega

/-- The runs of `PACK_B` cover its packed region (R64, R144). -/
theorem allRuns_cover {e : Engine} (hk : e.packK = 4 * e.packSteps) {a : Nat} (ha : PackBWrites e a) :
    ∃ r ∈ e.allRuns, r.target ≤ a ∧ a < r.target + (4 * r.cols + 4 * (r.width - r.cols)) := by
  have hsize : packBSize e = e.n6 * 6 * e.packK + e.n4 * 4 * e.packK + (if 0 < e.rem then 4 * e.packK else 0) := rfl
  obtain ⟨hge, hlt⟩ := ha
  have inStep : ∀ {s r}, s < e.packSteps → r ∈ e.stepRuns s → r ∈ e.allRuns := fun hs hr =>
    List.mem_flatMap.2 ⟨_, List.mem_range.2 hs, hr⟩
  simp only [Engine.stepRuns, List.mem_append, List.mem_map, List.mem_range] at inStep
  have hb4 : e.b4 = e.dst + e.n6 * 6 * e.packK := rfl
  have hbs : e.bs = e.b4 + e.n4 * 4 * e.packK := rfl
  by_cases h6 : a < e.b4
  · have hpanel : (a - e.dst) / (6 * e.packK) < e.n6 := Nat.div_lt_of_lt_mul (by
      have : 6 * e.packK * e.n6 = e.n6 * 6 * e.packK := by ring
      omega)
    have hsplit := Nat.div_add_mod (a - e.dst) (6 * e.packK)
    have hmod : (a - e.dst) % (6 * e.packK) < 6 * e.packK := Nat.mod_lt _ (Nat.pos_of_ne_zero fun h => by
      rw [show e.packK = 0 by omega] at hb4; omega)
    set q := (a - e.dst) / (6 * e.packK)
    set byte := (a - e.dst) % (6 * e.packK)
    have : q * 6 * e.packK = 6 * e.packK * q := by ring
    exact ⟨_, inStep (s := byte / 24) (by omega) (.inl (.inl ⟨q, hpanel, rfl⟩)), by dsimp only; omega,
      by dsimp only; omega⟩
  by_cases h4 : a < e.bs
  · have hone : e.n4 = 1 := by
      have : e.n4 ≤ 1 := by unfold Engine.n4; omega
      obtain hnone | hone : e.n4 = 0 ∨ e.n4 = 1 := by omega
      · rw [hnone] at hbs; omega
      · exact hone
    rw [hone] at hbs
    exact ⟨_, inStep (s := (a - e.b4) / 16) (by omega) (.inl (.inr ⟨0, by omega, rfl⟩)), by dsimp only; omega,
      by dsimp only; omega⟩
  · have hrem : 0 < e.rem := Nat.pos_of_ne_zero fun h => by
      rw [h, if_neg (Nat.lt_irrefl 0)] at hsize; omega
    have : e.rem < 4 := Nat.mod_lt _ (by omega)
    rw [if_pos hrem] at hsize
    exact ⟨_, inStep (s := (a - e.bs) / 16) (by omega) (.inr (by rw [if_pos hrem]; exact List.mem_singleton_self _)),
      by dsimp only; omega, by dsimp only; omega⟩

/-- The packed B buffer depends on the source bytes alone (R147). -/
theorem AgreeOn.copyB_writes {e : Engine} {m m' : Memory} (hc : PackBContract e m)
    (h : AgreeOn (PackBReads e) m m') : AgreeOn (PackBWrites e) (e.copyB m).2 (e.copyB m').2 := by
  have hk : e.packK = 4 * e.packSteps := by
    obtain ⟨-, -, hk⟩ := hc.v4
    unfold Engine.packSteps Engine.packK
    omega
  rw [e.copyB_mem, e.copyB_mem]
  have hblocks := h.writeSeq_blocks (addr := Run.target) (data := fun m r => runBytes m r.row r.col r.cols r.width)
    (len := fun r => 4 * r.cols + 4 * (r.width - r.cols)) (l := e.allRuns) (fun m r => by simp [runBytes])
    fun r hr m m' h => by rw [runBytes, runBytes, h.readBytes fun t ht => allRuns_reads hc.v5 hr ht]
  exact fun a ha => hblocks a (.inr (allRuns_cover hk ha))

section
variable {mr nr nv : Nat} {first : Bool} {e : Engine} {m m' : Memory}

/-- A lane of a valid column that `STORE` finds depends on the bytes the call reads alone (R164, R166, R177). -/
theorem AgreeOn.accAt_stored (h : AgreeOn (Reads (.kernel mr nr nv first) e) m m') (d : Nat) (hmr : mr ≤ 8)
    (hnr : nr ≤ 6) (hnv : nv ≤ nr) {i j : Nat} (hi : i < mr) (hj : j < nv) :
    ((e.initTile mr nr nv first d m).rsteps mr nr 0 (e.klen / 4) m).accAt i j =
      ((e.initTile mr nr nv first d m').rsteps mr nr 0 (e.klen / 4) m').accAt i j := by
  have hpanels : AgreeOn (PanelReads mr nr e) m m' := fun a ha => h a (.inl ha)
  exact hpanels.accAt_rsteps (by rfl) (by rfl) hmr hnr (by omega) hi (by omega) (h.accAt_initTile d hmr hnr hnv hi hj)

/-- The tile a kernel stores depends on the bytes the call reads alone: its panels and, on a warm start, its
destination (R164, R177). -/
theorem AgreeOn.run_kernel_writes (h : AgreeOn (Reads (.kernel mr nr nv first) e) m m') (d : Nat) (hmr : mr ≤ 8)
    (hnr : nr ≤ 6) (hnv : nv ≤ nr) :
    AgreeOn (TileBytes mr nv e) ((Job.kernel mr nr nv first).run d e m).2
      ((Job.kernel mr nr nv first).run d e m').2 := by
  rw [Job.run_kernel, Job.run_kernel, storeTile_congr (by simp) fun i j => h.accAt_stored d hmr hnr hnv]
  set f := (e.initTile mr nr nv first d m').rsteps mr nr 0 (e.klen / 4) m' with hf
  have hx : f.x = e.x := by simp [hf]
  rw [f.storeTile_eq, f.storeTile_eq]
  have hblocks := h.writeSeq_blocks (addr := fun k => f.addrC k.1 k.2) (data := fun _ k => i32Bytes (f.accAt k.1 k.2))
    (len := fun _ => 4) (l := tileItems mr nv) (by simp) (by simp)
  rintro a ⟨i, j, t, hi, hj, ht, rfl⟩
  refine hblocks _ (.inr ⟨(i, j), mem_tileItems.2 ⟨hi, hj⟩, ?_⟩)
  dsimp only
  rw [addrC_of_x hx, e.addrC_eq]
  omega

end

/-- Settles O29: the free values do not matter, and block by block what a call writes depends on what it reads. -/
theorem nothingElseIsRead : Obligations.NothingElseIsRead := by
  intro i d d' e m m' hwf hc _ h
  rw [onlyOperandsAndMemoryMatter i d' d e e m' hwf rfl]
  have hagree : AgreeOn (Reads (jobOf i) e) m m' := h
  cases i with
  | packA =>
    have hbegun := (contract_of_x (Job.begin_x .packA e) .packA m).2 hc
    exact AgreeOn.copyA_writes (e := Job.packA.begin e) rfl hbegun h
  | packB =>
    have hbegun := (contract_of_x (Job.begin_x .packB e) .packB m).2 hc
    exact AgreeOn.copyB_writes (e := Job.packB.begin e) hbegun h
  | kern8x6 first => exact hagree.run_kernel_writes d (by omega) (by omega) (by omega)
  | kern4x6 first => exact hagree.run_kernel_writes d (by omega) (by omega) (by omega)
  | kern8x4 first nrem => exact hagree.run_kernel_writes d (by omega) (by omega) (of_decide_eq_true hwf)
  | kern4x4 first nrem => exact hagree.run_kernel_writes d (by omega) (by omega) (of_decide_eq_true hwf)

end Sys2Proof.Machine

/-! SUPPORT. The panels `PACK_B` leaves, and the places of the source bytes in them (41_pack_b.md R142 to R150). -/

namespace Sys2Proof.Machine

open Sys2Proof.Safety

/-! The runs of a call, panel by panel (R142, R143). -/

/-- The run of step `s` of 6-column panel `q`. -/
def Engine.run6 (e : Engine) (q s : Nat) : Run :=
  ⟨e.dst + q * 6 * e.packK + 24 * s, e.src + (e.packFirst + s) * e.lds, e.lo + 6 * q, 6, 6⟩

/-- The run of step `s` of the 4-column panel. -/
def Engine.run4 (e : Engine) (s : Nat) : Run :=
  ⟨e.b4 + 16 * s, e.src + (e.packFirst + s) * e.lds, e.lo + 6 * e.n6, 4, 4⟩

/-- The run of step `s` of the short panel. -/
def Engine.runShort (e : Engine) (s : Nat) : Run :=
  ⟨e.bs + 16 * s, e.src + (e.packFirst + s) * e.lds, e.lo + 6 * e.n6 + 4 * e.n4, e.rem, 4⟩

/-- The packed columns are those of the 6-column panels, of the one 4-column panel, if there is one, and of the short
panel (R64, R142). -/
theorem packB_columns (e : Engine) : e.hi - e.lo = 6 * e.n6 + 4 * e.n4 + e.rem ∧ e.n4 ≤ 1 ∧ e.rem < 4 := by
  unfold Engine.rem Engine.n4 Engine.n6 Engine.span
  omega

/-- The runs of the whole call: in every step one for each panel (R143). -/
theorem mem_allRuns {e : Engine} {r : Run} : r ∈ e.allRuns ↔ ∃ s < e.packSteps,
    (∃ q < e.n6, r = e.run6 q s) ∨ (e.n4 = 1 ∧ r = e.run4 s) ∨ (0 < e.rem ∧ r = e.runShort s) := by
  obtain ⟨-, hone, -⟩ := packB_columns e
  have h4 : ∀ s, (∃ q < e.n4, ⟨e.b4 + q * 4 * e.packK + 16 * s, e.src + (e.packFirst + s) * e.lds,
      e.lo + 6 * e.n6 + 4 * q, 4, 4⟩ = r) ↔ e.n4 = 1 ∧ r = e.run4 s := fun s => by
    constructor
    · rintro ⟨q, hq, rfl⟩
      obtain rfl : q = 0 := by omega
      exact ⟨by omega, by simp [Engine.run4]⟩
    · rintro ⟨h, rfl⟩
      exact ⟨0, by omega, by simp [Engine.run4]⟩
  simp only [Engine.allRuns, Engine.stepRuns, List.mem_flatMap, List.mem_append, List.mem_map, List.mem_range, h4,
    List.mem_ite_nil_right, List.mem_singleton, or_assoc]
  simp only [eq_comm (b := r), Engine.run6, Engine.runShort]

/-- The run that writes address `a` of the packed region: its panel first, then its step (R144). -/
def Engine.runAt (e : Engine) (a : Nat) : Run :=
  if a < e.b4 then e.run6 ((a - e.dst) / (6 * e.packK)) ((a - e.dst) % (6 * e.packK) / 24)
  else if a < e.bs then e.run4 ((a - e.b4) / 16)
  else e.runShort ((a - e.bs) / 16)

section
variable {e : Engine} {m : Memory} (hc : PackBContract e m)
include hc

/-- `K` is four times the number of steps (R143). -/
theorem packB_depth : e.packK = 4 * e.packSteps := by
  obtain ⟨-, -, hk⟩ := hc.v4
  unfold Engine.packSteps Engine.packK
  omega

/-- No two runs write the same address (R144). -/
theorem eq_runAt {r : Run} (hr : r ∈ e.allRuns) {a : Nat}
    (ha : r.target ≤ a ∧ a < r.target + (4 * r.cols + 4 * (r.width - r.cols))) : r = e.runAt a := by
  have hk := packB_depth hc
  have hbs : e.bs = e.b4 + e.n4 * 4 * e.packK := rfl
  obtain ⟨s, hs, ⟨q, hq, rfl⟩ | ⟨h4, rfl⟩ | ⟨hrem, rfl⟩⟩ := mem_allRuns.1 hr
  · dsimp only [Engine.run6] at ha
    have hpanel : (q + 1) * 6 * e.packK ≤ e.n6 * 6 * e.packK := by gcongr; omega
    have hnext : (q + 1) * 6 * e.packK = q * 6 * e.packK + 6 * e.packK := by ring
    have hbelow : a < e.b4 := by unfold Engine.b4; omega
    obtain ⟨byte, hbyte⟩ := Nat.exists_eq_add_of_le ha.1
    have hoff : a - e.dst = 6 * e.packK * q + (24 * s + byte) := by
      have : q * 6 * e.packK = 6 * e.packK * q := by ring
      omega
    have hin : 24 * s + byte < 6 * e.packK := by omega
    have hdiv : (a - e.dst) / (6 * e.packK) = q := by
      rw [hoff, Nat.mul_add_div (by omega), Nat.div_eq_of_lt hin, Nat.add_zero]
    have hmod : (a - e.dst) % (6 * e.packK) = 24 * s + byte := by
      rw [hoff, Nat.mul_add_mod, Nat.mod_eq_of_lt hin]
    rw [Engine.runAt, if_pos hbelow, hdiv, hmod, show (24 * s + byte) / 24 = s by omega]
  · dsimp only [Engine.run4] at ha
    rw [h4] at hbs
    rw [Engine.runAt, if_neg (by omega), if_pos (by omega), show (a - e.b4) / 16 = s by omega]
  · dsimp only [Engine.runShort] at ha
    obtain ⟨-, -, hlt⟩ := packB_columns e
    rw [Engine.runAt, if_neg (by omega), if_neg (by omega), show (a - e.bs) / 16 = s by omega]

/-- What the copy leaves in the block of a run: the bytes of the run, read from memory before the call (R143, R147). -/
theorem read_copyB_run {r : Run} (hr : r ∈ e.allRuns) {t : Nat} (ht : t < 4 * r.cols + 4 * (r.width - r.cols)) :
    Memory.read (e.copyB m).2 (r.target + t) = (runBytes m r.row r.col r.cols r.width).getD t 0 := by
  have hlen : ∀ m (r : Run), (runBytes m r.row r.col r.cols r.width).length = 4 * r.cols + 4 * (r.width - r.cols) :=
    fun m r => by simp [runBytes]
  rw [Memory.read, e.copyB_mem, copyRuns,
    get?_writeSeq_inside (len := fun r => 4 * r.cols + 4 * (r.width - r.cols)) hlen e.allRuns m (k := r)
    (fun m' hm' => ?stable) hr (by omega)
    (fun r' hr' ha => (eq_runAt hc hr' ha).trans (eq_runAt hc hr (by omega)).symm)]
  case stable =>
    have hsource : AgreeOn (PackBReads e) m' m := fun a ha => hm' a fun r' hr' hin => by
      have := Engine.allRuns_within (packB_depth hc) hr'
      exact hc.v10 a ha ⟨by omega, by omega⟩
    rw [runBytes, runBytes, hsource.readBytes fun t ht => allRuns_reads hc.v5 hr ht]
  rw [Nat.add_sub_cancel_left, List.getElem?_eq_getElem (by rw [hlen]; exact ht), List.getD_eq_getElem]
  rfl

/-- The real columns of a run of step `s` hold their elements of `B` (R59, R144). -/
theorem read_copyB_column {r : Run} (hr : r ∈ e.allRuns) {s j kk : Nat}
    (hrow : r.row = e.src + (e.packFirst + s) * e.lds) (hj : j < r.cols) (hkk : kk < 4) :
    Memory.read (e.copyB m).2 (r.target + 4 * j + kk) = Memory.read m (e.addrB (e.k0 + 4 * s + kk) (r.col + j)) := by
  have hbyte : 4 * j + kk < 4 * r.cols := by omega
  have hstep : (e.k0 + 4 * s + kk) / 4 = e.packFirst + s ∧ (e.k0 + 4 * s + kk) % 4 = kk := by
    obtain ⟨hk0, -⟩ := hc.v4
    unfold Engine.packFirst
    omega
  have haddr : r.row + 4 * r.col + (4 * j + kk) = e.addrB (e.k0 + 4 * s + kk) (r.col + j) := by
    rw [Engine.addrB, hstep.1, hstep.2, hrow]
    omega
  rw [Nat.add_assoc, read_copyB_run hc hr (by omega), runBytes, List.getD_append _ _ _ _ (by simpa using hbyte),
    Memory.getD_readBytes m _ hbyte, haddr]

/-- The padded columns of a run hold zero bytes (R145). -/
theorem read_copyB_padding {r : Run} (hr : r ∈ e.allRuns) {j kk : Nat} (hj : r.cols ≤ j) (hjw : j < r.width)
    (hkk : kk < 4) : Memory.read (e.copyB m).2 (r.target + 4 * j + kk) = 0 := by
  rw [Nat.add_assoc, read_copyB_run hc hr (by omega), runBytes, List.getD_append_right _ _ _ _ (by simp; omega)]
  exact List.getD_replicate _ (by simp; omega)

/-- `PACK_B` inside the contract leaves the packed panels of R144 and no other change. -/
theorem packBResult_copyB : PackBResult e m (e.copyB m).2 where
  cols6 q s _ _ hq hs hj hkk :=
    read_copyB_column hc (r := e.run6 q s) (mem_allRuns.2 ⟨s, hs, .inl ⟨q, hq, rfl⟩⟩) rfl hj hkk
  cols4 h4 s _ _ hs hj hkk :=
    read_copyB_column hc (r := e.run4 s) (mem_allRuns.2 ⟨s, hs, .inr (.inl ⟨h4, rfl⟩)⟩) rfl hj hkk
  short hrem s _ hs hkk :=
    have hr : e.runShort s ∈ e.allRuns := mem_allRuns.2 ⟨s, hs, .inr (.inr ⟨hrem, rfl⟩)⟩
    ⟨fun _ hj => read_copyB_column hc hr rfl hj hkk, fun _ hj hjw => read_copyB_padding hc hr hj hjw hkk⟩
  rest _ ha := get?_copyB_of_not_writes m hc ha

end

/-- Settles O14: the copy of the begun engine, whose operands are those of the engine in hand. -/
theorem packBCompletesWithItsPanels : Obligations.PackBCompletesWithItsPanels := by
  intro s e hr
  obtain ⟨hexec, hframe⟩ := exec_of_ready (i := .packB) rfl hr
  have hbegun := (contract_of_x (Job.begin_x .packB e) .packB s.mem).2 hr.contract
  obtain ⟨h6, h4, hshort, hrest⟩ := packBResult_copyB (e := Job.packB.begin e) hbegun
  exact ⟨_, hexec, ⟨h6, h4, hshort, hrest⟩, hframe⟩

/-! Unpacking (R150). -/

/-- Where the packed buffer of `PACK_B` holds `B[k][n]` (R150). -/
def packBPlace (e : Engine) (k n : Nat) : Nat :=
  if n - e.lo < 6 * e.n6 then
    e.dst + (n - e.lo) / 6 * 6 * (e.kmax - e.k0) + 24 * ((k - e.k0) / 4) + 4 * ((n - e.lo) % 6) + (k - e.k0) % 4
  else if n - e.lo < 6 * e.n6 + 4 * e.n4 then
    e.b4 + 16 * ((k - e.k0) / 4) + 4 * (n - e.lo - 6 * e.n6) + (k - e.k0) % 4
  else e.bs + 16 * ((k - e.k0) / 4) + 4 * (n - e.lo - 6 * e.n6 - 4 * e.n4) + (k - e.k0) % 4

/-- An index and a column of the sub-range that `PACK_B` packs (R150). -/
structure InPackBRange (e : Engine) (k n : Nat) : Prop where
  index : e.k0 ≤ k ∧ k < e.kmax
  column : e.lo ≤ n ∧ n < e.hi

section
variable {e : Engine} {m m' : Memory} (hc : PackBContract e m) (hres : PackBResult e m m')
include hc hres

/-- The packed buffer unpacks: the place of `(k, n)` holds `B[k][n]` (R144, R150). -/
theorem read_packBPlace {k n : Nat} (h : InPackBRange e k n) :
    Memory.read m' (packBPlace e k n) = Memory.read m (e.addrB k n) := by
  obtain ⟨-, -, hK⟩ := hc.v4
  obtain ⟨hcols, hone, -⟩ := packB_columns e
  obtain ⟨⟨hk, hk'⟩, hn, hn'⟩ := h
  have hindex : e.k0 + 4 * ((k - e.k0) / 4) + (k - e.k0) % 4 = k := by omega
  have hs : (k - e.k0) / 4 < (e.kmax - e.k0) / 4 := by omega
  have hkk : (k - e.k0) % 4 < 4 := Nat.mod_lt _ (by omega)
  unfold packBPlace
  split
  · rw [hres.cols6 _ _ _ _ (by omega) hs (by omega) hkk, hindex,
      show e.lo + 6 * ((n - e.lo) / 6) + (n - e.lo) % 6 = n by omega]
  split
  · rw [hres.cols4 (by omega) _ _ _ hs (by omega) hkk, hindex,
      show e.lo + 6 * e.n6 + (n - e.lo - 6 * e.n6) = n by omega]
  · rw [(hres.short (by omega) _ _ hs hkk).1 _ (by omega), hindex,
      show e.lo + 6 * e.n6 + 4 * e.n4 + (n - e.lo - 6 * e.n6 - 4 * e.n4) = n by omega]

/-- A byte of the short panel that is no place is zero: it stands in a padded column, since a real column of the short
panel has places (R145, R150). -/
theorem read_short_of_no_place (hrem : 0 < e.rem) {a : Nat} (hle : e.bs ≤ a) (hlt : a < e.bs + 4 * (e.kmax - e.k0))
    (hno : ∀ k n, InPackBRange e k n → packBPlace e k n ≠ a) : Memory.read m' a = 0 := by
  obtain ⟨-, -, hK⟩ := hc.v4
  obtain ⟨hcols, -, hrem4⟩ := packB_columns e
  set s := (a - e.bs) / 16 with hs
  set j := (a - e.bs) % 16 / 4 with hj
  set kk := (a - e.bs) % 4 with hkk
  have ha : e.bs + 16 * s + 4 * j + kk = a := by omega
  have hpad : e.rem ≤ j := by
    by_contra hreal
    have hin : InPackBRange e (e.k0 + 4 * s + kk) (e.lo + (6 * e.n6 + 4 * e.n4 + j)) :=
      ⟨⟨by omega, by omega⟩, by omega, by omega⟩
    refine hno _ _ hin ?_
    rw [packBPlace, Nat.add_sub_cancel_left, if_neg (by omega), if_neg (by omega)]
    omega
  rw [← ha]
  exact (hres.short hrem s kk (by omega) (by omega)).2 j hpad (by omega)

end

/-- Settles O15: the panels of O14 read back through the map of R150, and the short panel's other bytes are padding. -/
theorem packBRoundTrip : Obligations.PackBRoundTrip := by
  intro s e hr
  obtain ⟨t, hexec, hres, -⟩ := packBCompletesWithItsPanels s e hr
  have hc : PackBContract e s.mem := hr.contract
  exact ⟨t, hexec,
    fun k n hk hk' hn hn' => congrArg s8 (read_packBPlace hc hres ⟨⟨hk, hk'⟩, hn, hn'⟩),
    fun hrem a hle hlt hno => read_short_of_no_place hc hres hrem hle hlt
      fun k n ⟨⟨hk, hk'⟩, hn, hn'⟩ => hno k n hk hk' hn hn'⟩

end Sys2Proof.Machine

/-! SUPPORT. The tile a kernel call leaves in closed form (42_kernel_common.md R164, R166, R171), and columns whose
panel bytes are zero (41_pack_b.md R145, 44_kernels_remainder.md R206). -/

namespace Sys2Proof.Machine

open Sys2Proof.Safety

/-- The summand of `P(i, j)` that reduction step `s` adds (R171). -/
def panelStep (mr nr : Nat) (e : Engine) (m : Memory) (i j s : Nat) : Int :=
  ((List.range 4).map fun kk => s8 (Memory.read m (e.aptr + 4 * mr * s + 4 * i + kk)) *
    s8 (Memory.read m (e.bptr + 4 * nr * s + 4 * j + kk))).sum

theorem panelSum_eq_steps (mr nr : Nat) (e : Engine) (m : Memory) (i j : Nat) :
    panelSum mr nr e m i j = ((List.range' 0 (e.klen / 4)).map (panelStep mr nr e m i j)).sum := by
  rw [← List.range_eq_range']
  rfl

theorem panelStep_of_x {e f : Engine} (h : e.x = f.x) (mr nr : Nat) : panelStep mr nr e = panelStep mr nr f := by
  funext m i j s
  simp only [panelStep, Engine.aptr, Engine.bptr, Engine.operand_of_x h]

theorem wrap32_toInt (v : Lane) : wrap32 v.toInt = v := BitVec.ofInt_toInt

/-- The shapes of the kernels: at most 8 rows and 6 columns, the valid columns among them (R94, R160). -/
theorem kernel_shape_le {i : Instr} {mr nr nv : Nat} {first : Bool} (hwf : i.wf = true)
    (hj : jobOf i = .kernel mr nr nv first) : mr ≤ 8 ∧ nr ≤ 6 ∧ nv ≤ nr := by
  cases i with
  | packA => simp [jobOf] at hj
  | packB => simp [jobOf] at hj
  | kern8x6 first => cases hj; omega
  | kern4x6 first => cases hj; omega
  | kern8x4 first nrem => cases hj; exact ⟨by omega, by omega, of_decide_eq_true hwf⟩
  | kern4x4 first nrem => cases hj; exact ⟨by omega, by omega, of_decide_eq_true hwf⟩

section
variable {mr nr nv i j : Nat} {first : Bool} {e f : Engine} (hmr : mr ≤ 8) (hnr : nr ≤ 6) (hi : i < mr)
include hmr hnr hi

/-- A reduction step adds its summand to every lane of the tile (R166, R173). -/
theorem accAt_rstep_eq (hj : j < nr) (s : Nat) (m : Memory) :
    (f.rstep mr nr s m).accAt i j = wrap32 ((f.accAt i j).toInt + panelStep mr nr f m i j s) := by
  rw [f.accAt_rstep s m hmr hnr hi hj]
  simp [dot4, panelStep, List.range_succ, Nat.add_assoc, Int.add_assoc]

/-- The reduction steps `a`, `a+1`, …, `a+n-1` add their summands, and the lane wraps as if once at the end (R171,
R173). -/
theorem accAt_rsteps_eq (hj : j < nr) (a n : Nat) (m : Memory) :
    (f.rsteps mr nr a n m).accAt i j =
      wrap32 ((f.accAt i j).toInt + ((List.range' a n).map (panelStep mr nr f m i j)).sum) := by
  induction n generalizing f a with
  | zero => simp [Engine.rsteps_zero, wrap32_toInt]
  | succ n ih =>
    rw [Engine.rsteps_succ, ih, accAt_rstep_eq hmr hnr hi hj, wrap32_toInt_add, panelStep_of_x (f.rstep_x mr nr a m),
      List.range'_succ, List.map_cons, List.sum_cons, Int.add_assoc]

/-- A lane of a valid column starts at `C0(i, j)` (R164, R171). -/
theorem accAt_initTile_eq (hnv : nv ≤ nr) (hj : j < nv) (d : Nat) (m : Memory) :
    ((e.initTile mr nr nv first d m).accAt i j).toInt = initialElement first e m i j := by
  rw [accAt_accFile (e.initTile mr nr nv first d m) _ (by omega : i < 8) (by omega : j < 6) rfl,
    if_pos ⟨hi, by omega⟩, Engine.initLane, if_pos hj, initialElement, e.addrC_eq]
  cases first <;> rfl

end

/-- What a kernel call leaves: every valid element holds `wrap32(C0(i, j) + P(i, j))`, every other byte is as before
(R169, R171). -/
theorem tileResult_run_kernel {mr nr nv : Nat} {first : Bool} {e : Engine} (hmr : mr ≤ 8) (hnr : nr ≤ 6)
    (hnv : nv ≤ nr) (hldc : nr ≤ e.ldc) (d : Nat) (m : Memory) :
    TileResult mr nr nv first e m ((Job.kernel mr nr nv first).run d e m).2 := by
  rw [Job.run_kernel]
  set f := (e.initTile mr nr nv first d m).rsteps mr nr 0 (e.klen / 4) m with hf
  have hx : f.x = e.x := by simp [hf]
  have hldc' : nv ≤ f.ldc := by rw [Engine.ldc, Engine.operand_of_x hx]; exact hnv.trans hldc
  refine ⟨fun i j hi hj => ?_, fun a ha => get?_storeTile_of_not_tileBytes hx m ha⟩
  rw [← e.addrC_eq, ← addrC_of_x hx, f.readI32_storeTile m hldc' hi hj, hf,
    accAt_rsteps_eq hmr hnr hi (by omega), accAt_initTile_eq hmr hnr hi hnv hj, panelSum_eq_steps]
  rfl

/-- A column whose panel bytes are zero in every step has the exact sum 0 in every row (R145, R206). -/
theorem panelSum_of_zero_column {mr nr j : Nat} {e : Engine} {m : Memory}
    (h : ∀ s kk, s < e.klen / 4 → kk < 4 → Memory.read m (e.bptr + 4 * nr * s + 4 * j + kk) = 0) (i : Nat) :
    panelSum mr nr e m i j = 0 := by
  refine List.sum_eq_zero fun p hp => ?_
  obtain ⟨s, hs, rfl⟩ := List.mem_map.1 hp
  refine List.sum_eq_zero fun q hq => ?_
  obtain ⟨kk, hkk, rfl⟩ := List.mem_map.1 hq
  rw [h s kk (List.mem_range.1 hs) (List.mem_range.1 hkk)]
  exact Int.mul_zero _

/-- `C0(i, j)` is an int32 (R171). -/
theorem wrap32_initialElement (first : Bool) (e : Engine) (m : Memory) (i j : Nat) :
    (wrap32 (initialElement first e m i j)).toInt = initialElement first e m i j := by
  cases first with
  | true => rfl
  | false => exact congrArg BitVec.toInt (wrap32_toInt _)

/-- Settles O26: the exact sum of the column is 0, and its start value is an int32. -/
theorem zeroColumnAddsNothing : Obligations.ZeroColumnAddsNothing := by
  intro s t e i mr nr nv first j hwf hjob he h hj hzero r hr
  obtain ⟨e', hn, -, hv, rfl⟩ := runJob_next.1 (runJob_of_exec h)
  obtain rfl := Option.some.inj (he.symm.trans hn)
  obtain ⟨hc, -⟩ := (State.violation_eq_none i s s.active e).1 hv
  rw [hjob] at hc ⊢
  obtain ⟨hmr, hnr, hnv⟩ := kernel_shape_le hwf hjob
  have htile := tileResult_run_kernel (first := first) hmr hnr hnv (KernelContract.v6 hc) s.draws s.mem
  have helement := htile.element r j hr hj
  rw [panelSum_of_zero_column hzero, Int.add_zero] at helement
  exact (congrArg BitVec.toInt helement).trans (wrap32_initialElement first e s.mem r j)

end Sys2Proof.Machine

/-! SUPPORT. The phases of a kernel lane by lane: `DOT4`, `INIT`, a reduction step and the running sums
(42_kernel_common.md R164 to R168, R171, R173, R174). -/

namespace Sys2Proof.Machine

open Sys2Proof.Safety

/-! `DOT4` (R165). -/

/-- The product of two int8 values; both bounds are reached at corners of the square of operands (R165). -/
theorem toInt_mul_bounds (a b : Byte) : -16256 ≤ a.toInt * b.toInt ∧ a.toInt * b.toInt ≤ 16384 := by
  have ha : -128 ≤ a.toInt := BitVec.le_toInt a
  have ha' : a.toInt ≤ 127 := Int.le_of_lt_add_one a.toInt_lt
  have hb : -128 ≤ b.toInt := BitVec.le_toInt b
  have hb' : b.toInt ≤ 127 := Int.le_of_lt_add_one b.toInt_lt
  constructor
  · nlinarith [mul_nonneg (sub_nonneg.2 ha') (sub_nonneg.2 hb'), mul_nonneg (sub_nonneg.2 ha) (sub_nonneg.2 hb)]
  · nlinarith [mul_nonneg (sub_nonneg.2 ha) (sub_nonneg.2 hb'), mul_nonneg (sub_nonneg.2 ha') (sub_nonneg.2 hb)]

/-- The sum of four products of int8 values (R165). -/
theorem toInt_dot_bounds (a b : Nat → Byte) :
    -65024 ≤ (a 0).toInt * (b 0).toInt + (a 1).toInt * (b 1).toInt + (a 2).toInt * (b 2).toInt
        + (a 3).toInt * (b 3).toInt ∧
      (a 0).toInt * (b 0).toInt + (a 1).toInt * (b 1).toInt + (a 2).toInt * (b 2).toInt
        + (a 3).toInt * (b 3).toInt ≤ 65536 := by
  have h0 := toInt_mul_bounds (a 0) (b 0)
  have h1 := toInt_mul_bounds (a 1) (b 1)
  have h2 := toInt_mul_bounds (a 2) (b 2)
  have h3 := toInt_mul_bounds (a 3) (b 3)
  omega

/-- `wrap32` takes the value modulo `2^32` into the int32 range (R9). -/
theorem toInt_wrap32 (v : Int) : (wrap32 v).toInt = (v + 2 ^ 31) % 2 ^ 32 - 2 ^ 31 := by
  rw [wrap32, BitVec.toInt_ofInt, Int.bmod_def]
  omega

/-- `wrap32` is exact in the int32 range (R173). -/
theorem toInt_wrap32_of_range {v : Int} (hlow : -2 ^ 31 ≤ v) (hhigh : v < 2 ^ 31) : (wrap32 v).toInt = v := by
  rw [toInt_wrap32]
  omega

/-- Settles O5: the four products are bounded one by one, and the only wrap is the one of the accumulation. -/
theorem dot4WrapsOnlyTheLastAddition : Obligations.Dot4WrapsOnlyTheLastAddition := by
  intro acc a b
  refine ⟨fun k => toInt_mul_bounds (a k) (b k), ?_⟩
  rintro sum rfl
  have hdot : dot4 acc a b = wrap32 (acc.toInt + ((a 0).toInt * (b 0).toInt + (a 1).toInt * (b 1).toInt
      + (a 2).toInt * (b 2).toInt + (a 3).toInt * (b 3).toInt)) := by
    simp only [dot4, s8, Int.add_assoc]
  obtain ⟨hlow, hhigh⟩ := toInt_dot_bounds a b
  rw [hdot]
  exact ⟨hlow, hhigh, toInt_wrap32 _, toInt_wrap32_of_range⟩

/-! `INIT` and `RSTEP` (R164, R166). -/

/-- Lane (`i`, `j`) after `INIT`, inside the tile and outside it (R164, R25). -/
theorem Engine.accAt_initTile (e : Engine) (mr nr nv : Nat) (first : Bool) (d : Nat) (m : Memory) {i j : Nat}
    (hi : i < 8) (hj : j < 6) : (e.initTile mr nr nv first d m).accAt i j =
      if i < mr ∧ j < nr then e.initLane nv first d m i j else e.accAt i j :=
  accAt_accFile (e.initTile mr nr nv first d m) _ hi hj rfl

/-- Settles O22: the lanes of the tile by the cases of `INIT`; every other register stands in the engine untouched. -/
theorem initGivesTheLanes : Obligations.InitGivesTheLanes := by
  intro e mr nr nv d first m hmr hnr
  have tile : ∀ i j, i < mr → j < nr → (e.initTile mr nr nv first d m).accAt i j = e.initLane nv first d m i j :=
    fun i j hi hj => by rw [e.accAt_initTile mr nr nv first d m (by omega) (by omega), if_pos ⟨hi, hj⟩]
  refine ⟨fun i j hi hj hcold => ?_, fun i j hi hj hvalid hwarm => ?_, fun i j hi hj hout => ?_, rfl, rfl, rfl, rfl,
    rfl, rfl, rfl, rfl⟩
  · rw [tile i j hi hj, Engine.initLane, if_pos hcold]
  · rw [tile i j hi hj, Engine.initLane, hwarm, if_neg Bool.false_ne_true, if_pos hvalid, e.addrC_eq]
  · rw [e.accAt_initTile mr nr nv first d m hi hj, if_neg (by omega)]

section
variable (e : Engine) (mr nr s : Nat) (m : Memory)

/-- `VA[n]` after the loads of a reduction step (R166, R26). -/
theorem Engine.vaAt_rstep {n : Nat} (hn : n < 32) : (e.rstep mr nr s m).vaAt n =
    if n < 4 * mr then Memory.read m (e.aptr + 4 * mr * s + n) else e.vaAt n :=
  tabulate_getD _ _ hn

/-- `VB[n]` after the loads of a reduction step (R166, R26). -/
theorem Engine.vbAt_rstep {n : Nat} (hn : n < 24) : (e.rstep mr nr s m).vbAt n =
    if n < 4 * nr then Memory.read m (e.bptr + 4 * nr * s + n) else e.vbAt n :=
  tabulate_getD _ _ hn

/-- Lane (`i`, `j`) after a reduction step, inside the tile and outside it, by the operand vectors it loads (R166,
R25). -/
theorem Engine.accAt_rstep_loaded {i j : Nat} (hi : i < 8) (hj : j < 6) : (e.rstep mr nr s m).accAt i j =
    if i < mr ∧ j < nr then
      dot4 (e.accAt i j) (fun kk => (e.rstep mr nr s m).vaAt (4 * i + kk))
        (fun kk => (e.rstep mr nr s m).vbAt (4 * j + kk))
    else e.accAt i j :=
  accAt_accFile (e.rstep mr nr s m) _ hi hj rfl

end

/-- Settles O23: the operand vectors and the lanes, each inside and outside what the shape uses. -/
theorem reductionStepUpdatesEveryLane : Obligations.ReductionStepUpdatesEveryLane := by
  intro e mr nr s m hmr hnr
  refine ⟨fun n hn => ?_, fun n hn hn' => ?_, fun n hn => ?_, fun n hn hn' => ?_, fun i j hi hj => ?_,
    fun i j hi hj hout => ?_, rfl, rfl, rfl, rfl, rfl, rfl, rfl⟩
  · rw [e.vaAt_rstep mr nr s m (by omega), if_pos hn]
  · rw [e.vaAt_rstep mr nr s m hn', if_neg (by omega)]
  · rw [e.vbAt_rstep mr nr s m (by omega), if_pos hn]
  · rw [e.vbAt_rstep mr nr s m hn', if_neg (by omega)]
  · rw [e.accAt_rstep_loaded mr nr s m (by omega) (by omega), if_pos ⟨hi, hj⟩]
  · rw [e.accAt_rstep_loaded mr nr s m hi hj, if_neg (by omega)]

/-! The plain loop (R168) and its running sums (R174). -/

/-- The plain loop over the first `t` reduction steps (R168). -/
theorem Engine.foldl_rstep (e : Engine) (mr nr t : Nat) (m : Memory) :
    (List.range t).foldl (fun f s => f.rstep mr nr s m) e = e.rsteps mr nr 0 t m := by
  rw [List.range_eq_range']
  rfl

/-- Settles O21: a whole kernel call is `INIT`, the reduction steps in order and `STORE`, however they are unrolled. -/
theorem unrollingDoesNotChangeTheResult : Obligations.UnrollingDoesNotChangeTheResult := by
  intro mr nr nv d first e m
  rw [Job.run_kernel, Engine.foldl_rstep]

/-- The summand of one reduction step is four products (R165, R174). -/
theorem panelStep_bounds (mr nr : Nat) (e : Engine) (m : Memory) (i j s : Nat) :
    -65024 ≤ panelStep mr nr e m i j s ∧ panelStep mr nr e m i j s ≤ 65536 := by
  have h := toInt_dot_bounds (fun kk => Memory.read m (e.aptr + 4 * mr * s + 4 * i + kk))
    (fun kk => Memory.read m (e.bptr + 4 * nr * s + 4 * j + kk))
  simpa [panelStep, s8, List.range_succ, Int.add_assoc] using h

/-- The exact partial sum after `t` reduction steps grows by at most four products a step (R174). -/
theorem sum_panelStep_bounds (mr nr : Nat) (e : Engine) (m : Memory) (i j t : Nat) :
    -16256 * (4 * t) ≤ ((List.range' 0 t).map (panelStep mr nr e m i j)).sum ∧
      ((List.range' 0 t).map (panelStep mr nr e m i j)).sum ≤ 16384 * (4 * t) := by
  induction t with
  | zero => simp
  | succ t ih =>
    have hstep := panelStep_bounds mr nr e m i j (0 + 1 * t)
    rw [List.range'_concat, List.map_append, List.sum_append, List.map_singleton, List.sum_singleton]
    push_cast
    omega

/-- Settles O24: the exact partial sums stay in the int32 range, so the one wrap at the end of R171 changes nothing. -/
theorem noOverflowInsideTheBound : Obligations.NoOverflowInsideTheBound := by
  rintro e mr nr nv d first m i j c0 hmr hnr hi hj hnv rfl
  refine ⟨fun hlow hhigh t lane ht hlane => ?_, fun _ => by omega⟩
  obtain ⟨hsum, hsum'⟩ := sum_panelStep_bounds mr nr e m i j t
  rw [Engine.foldl_rstep, accAt_rsteps_eq hmr hnr hi (by omega), accAt_initTile_eq hmr hnr hi hnv hj,
    panelStep_of_x (e.initTile_x mr nr nv first d m), toInt_wrap32_of_range (by omega) (by omega)] at hlane
  refine ⟨by omega, by omega, ?_⟩
  rintro rfl
  rw [hlane, panelSum_eq_steps]

/-! Kernel calls inside the contract (R162, R171). -/

/-- A kernel call inside the contract completes with its tile in closed form and changes no other byte (R169, R171,
R177). -/
theorem exec_kernel_of_ready {i : Instr} {s : State} {e : Engine} {mr nr nv : Nat} {first : Bool} (hwf : i.wf = true)
    (hj : jobOf i = .kernel mr nr nv first) (h : Ready s (.kernel mr nr nv first) e) :
    ∃ t, exec i s = .next t ∧ TileResult mr nr nv first e s.mem t.mem ∧ CallFrame s t := by
  obtain ⟨hmr, hnr, hnv⟩ := kernel_shape_le hwf hj
  have hc : KernelContract mr nr nv e s.mem := h.contract
  obtain ⟨hexec, hframe⟩ := exec_of_ready hwf (hj ▸ h)
  refine ⟨_, hexec, ?_, hframe⟩
  rw [State.completed, hj]
  exact tileResult_run_kernel hmr hnr hnv hc.v6 s.draws s.mem

/-- Settles O17: both full-tile kernels are kernel calls with six valid columns. -/
theorem fullTileKernelsCompleteWithTheTile : Obligations.FullTileKernelsCompleteWithTheTile :=
  fun _ _ first => ⟨exec_kernel_of_ready (i := .kern8x6 first) rfl rfl,
    exec_kernel_of_ready (i := .kern4x6 first) rfl rfl⟩

/-- Settles O18: a count of at most 4 makes a well-formed remainder kernel. -/
theorem remainderKernelsCompleteWithTheirColumns : Obligations.RemainderKernelsCompleteWithTheirColumns :=
  fun _ _ first nrem hn => ⟨exec_kernel_of_ready (i := .kern8x4 first nrem) (decide_eq_true hn) rfl,
    exec_kernel_of_ready (i := .kern4x4 first nrem) (decide_eq_true hn) rfl⟩

end Sys2Proof.Machine

/-! SUPPORT. A reduction in two slices (42_kernel_common.md R176). -/

namespace Sys2Proof.Machine

open Sys2Proof.Safety

/-! Int32 values and their bytes (R51). -/

/-- The bytes of an int32 in memory, least significant first (R51). -/
theorem Memory.read_of_readI32 (m : Memory) (a : Nat) {t : Nat} (ht : t < 4) :
    Memory.read m (a + t) = BitVec.ofNat 8 ((Memory.readI32 m a).toNat / 2 ^ (8 * t)) := by
  have h0 := (Memory.read m a).isLt
  have h1 := (Memory.read m (a + 1)).isLt
  have h2 := (Memory.read m (a + 2)).isLt
  have h3 := (Memory.read m (a + 3)).isLt
  apply BitVec.eq_of_toNat_eq
  rw [BitVec.toNat_ofNat, Memory.readI32, BitVec.toNat_ofNat]
  interval_cases t
  · rw [Nat.add_zero]; omega
  all_goals omega

/-- Two memories with the same accessible addresses and the same int32 at `a` have the same four bytes there. -/
theorem get?_eq_of_readI32_eq {m m' : Memory} {a t : Nat} (hv : SameValid m m')
    (h : Memory.readI32 m a = Memory.readI32 m' a) (ht : t < 4) :
    Memory.get? m (a + t) = Memory.get? m' (a + t) := by
  have hread : Memory.read m (a + t) = Memory.read m' (a + t) := by
    rw [m.read_of_readI32 a ht, h, m'.read_of_readI32 a ht]
  unfold Memory.read at hread
  rcases hm : Memory.get? m (a + t) with _ | b
  · exact ((hv _).2 hm).symm
  · rcases hm' : Memory.get? m' (a + t) with _ | b'
    · simp [(hv _).1 hm'] at hm
    · simpa [hm, hm'] using hread

/-! The panels of a kernel (R70, R166). -/

/-- The bytes of a panel of `rows` rows that step `s` takes for row `r` lie in the panel (R70, R166). -/
theorem panelByte_lt {rows r kk s K : Nat} (hr : r < rows) (hkk : kk < 4) (hs : s < K / 4) :
    4 * rows * s + 4 * r + kk < rows * K := by
  have hsteps : rows * (4 * (s + 1)) ≤ rows * K := Nat.mul_le_mul_left _ (by omega)
  have : rows * (4 * (s + 1)) = 4 * rows * s + 4 * rows := by ring
  omega

/-- The summand of a step depends on the panels alone (R166, R171). -/
theorem AgreeOn.panelStep_eq {mr nr : Nat} {e : Engine} {m m' : Memory} (h : AgreeOn (PanelReads mr nr e) m m')
    {i j s : Nat} (hi : i < mr) (hj : j < nr) (hs : s < e.klen / 4) :
    panelStep mr nr e m i j s = panelStep mr nr e m' i j s := by
  refine congrArg List.sum (List.map_congr_left fun kk hkk => ?_)
  have ha := panelByte_lt hi (List.mem_range.1 hkk) hs
  have hb := panelByte_lt hj (List.mem_range.1 hkk) hs
  rw [Memory.read_congr (h _ (.inl ⟨by omega, by omega⟩)), Memory.read_congr (h _ (.inr ⟨by omega, by omega⟩))]

/-- The destination after a call that another one continues (R164). -/
theorem initialElement_continued {mr nr nv : Nat} {first : Bool} {e f : Engine} {m m' : Memory}
    (h : TileResult mr nr nv first e m m') (hout : f.outp = e.outp) (hldc : f.ldc = e.ldc) {i j : Nat} (hi : i < mr)
    (hj : j < nv) : initialElement false f m' i j =
      (wrap32 (initialElement first e m i j + panelSum mr nr e m i j)).toInt := by
  rw [← h.element i j hi hj, ← hout, ← hldc]
  rfl

/-! The slices (R176). -/

/-- The operands of a slice of the reduction of `e`: `K'` elements from element `K₀` on, the same destination (R176). -/
structure IsSlice (mr nr : Nat) (e f : Engine) (K₀ K' : Nat) : Prop where
  aptr : f.aptr = e.aptr + mr * K₀
  bptr : f.bptr = e.bptr + nr * K₀
  klen : f.klen = K'
  outp : f.outp = e.outp
  ldc : f.ldc = e.ldc

section
variable {mr nr nv K₀ K' : Nat} {e f : Engine} {m : Memory} (h : IsSlice mr nr e f K₀ K')
include h

theorem IsSlice.tileBytes : TileBytes mr nv f = TileBytes mr nv e := by
  funext a
  simp only [TileBytes, h.outp, h.ldc]

/-- A slice reads part of the panels (R176). -/
theorem IsSlice.panelReads (hK : K₀ + K' ≤ e.klen) {a : Nat} (ha : PanelReads mr nr f a) : PanelReads mr nr e a := by
  have within : ∀ rows, rows * K₀ + rows * K' ≤ rows * e.klen := fun rows => by
    rw [← Nat.mul_add]
    exact Nat.mul_le_mul_left _ hK
  have := within mr
  have := within nr
  unfold PanelReads at ha ⊢
  rw [h.aptr, h.bptr, h.klen] at ha
  omega

/-- A slice of a call inside the contract is inside the contract (R162, R176). -/
theorem IsSlice.contract (hc : KernelContract mr nr nv e m) (hK : K₀ + K' ≤ e.klen) (hmod : K' % 4 = 0)
    (hmin : 4 ≤ K') : KernelContract mr nr nv f m where
  v2 := by rw [h.klen]; exact ⟨hmod, hmin⟩
  v6 := by rw [h.ldc]; exact hc.v6
  v7 := by
    obtain ⟨hlen, hldc⟩ := hc.v7
    rw [h.klen, h.ldc]
    omega
  v8 a ha := hc.v8 a (by rw [h.tileBytes] at ha; exact ha.imp_left (h.panelReads hK))
  v9 := by rw [h.outp]; exact hc.v9
  v10 a ha := by rw [h.tileBytes]; exact hc.v10 a (h.panelReads hK ha)

/-- Step `s` of a slice is a step of the whole reduction (R176). -/
theorem IsSlice.panelStep_eq (hmod : K₀ % 4 = 0) (i j s : Nat) :
    panelStep mr nr f m i j s = panelStep mr nr e m i j (K₀ / 4 + s) := by
  have shift : ∀ p rows : Nat, p + rows * K₀ + 4 * rows * s = p + 4 * rows * (K₀ / 4 + s) := fun p rows => by
    have : rows * K₀ = 4 * rows * (K₀ / 4) := by
      conv_lhs => rw [show K₀ = 4 * (K₀ / 4) by omega]
      ring
    rw [this]
    ring
  simp only [panelStep, h.aptr, h.bptr, shift]

end

/-- The exact sum splits at a multiple of 4 (R171, R176). -/
theorem panelSum_split {mr nr K₁ K₂ : Nat} {e e₁ e₂ : Engine} (h₁ : IsSlice mr nr e e₁ 0 K₁)
    (h₂ : IsSlice mr nr e e₂ K₁ K₂) (hK : e.klen = K₁ + K₂) (hmod : K₁ % 4 = 0) (m : Memory) (i j : Nat) :
    panelSum mr nr e m i j = panelSum mr nr e₁ m i j + panelSum mr nr e₂ m i j := by
  have hfirst : panelStep mr nr e₁ m i j = panelStep mr nr e m i j := funext fun s => by
    rw [h₁.panelStep_eq rfl, Nat.zero_div, Nat.zero_add]
  have hsecond : panelStep mr nr e₂ m i j = panelStep mr nr e m i j ∘ (K₁ / 4 + ·) :=
    funext fun s => h₂.panelStep_eq hmod i j s
  rw [panelSum_eq_steps, panelSum_eq_steps, panelSum_eq_steps, h₁.klen, h₂.klen, hK, hfirst, hsecond, ← List.map_map,
    List.map_add_range', show (K₁ + K₂) / 4 = K₁ / 4 + K₂ / 4 by omega, ← List.range'_append_1, List.map_append,
    List.sum_append]
  simp

/-- Two calls over the two slices, the second on what the first leaves and warm, leave the tile of the whole reduction:
the first call leaves the panels alone, and the second adds the rest of the exact sum to what the first left in each
element (R176). -/
theorem tileResult_two_slices {mr nr nv K₁ K₂ : Nat} {first : Bool} {e e₁ e₂ : Engine} {m m₁ m₂ : Memory}
    (h₁ : IsSlice mr nr e e₁ 0 K₁) (h₂ : IsSlice mr nr e e₂ K₁ K₂) (hK : e.klen = K₁ + K₂) (hmod : K₁ % 4 = 0)
    (hnv : nv ≤ nr) (hc : KernelContract mr nr nv e m) (hres₁ : TileResult mr nr nv first e₁ m m₁)
    (hres₂ : TileResult mr nr nv false e₂ m₁ m₂) : TileResult mr nr nv first e m m₂ := by
  refine ⟨fun i j hi hj => ?_, fun a ha => ?_⟩
  · have hpanels : AgreeOn (PanelReads mr nr e₂) m₁ m := fun a ha =>
      hres₁.rest a fun hw => hc.v10 a (h₂.panelReads (by omega) ha) (h₁.tileBytes ▸ hw)
    have hsecond : panelSum mr nr e₂ m₁ i j = panelSum mr nr e₂ m i j :=
      congrArg List.sum (List.map_congr_left fun s hs => hpanels.panelStep_eq hi (by omega) (List.mem_range.1 hs))
    have hstart : initialElement first e₁ m i j = initialElement first e m i j := by
      simp only [initialElement, h₁.outp, h₁.ldc]
    have hbetween := initialElement_continued hres₁ (h₂.outp.trans h₁.outp.symm) (h₂.ldc.trans h₁.ldc.symm) hi hj
    have h := hres₂.element i j hi hj
    rwa [h₂.outp, h₂.ldc, hbetween, wrap32_toInt_add, hsecond, hstart, Int.add_assoc, ← panelSum_split h₁ h₂ hK hmod]
      at h
  · rw [hres₂.rest a (by rwa [h₂.tileBytes]), hres₁.rest a (by rwa [h₁.tileBytes])]

/-- What R171 says of the memory a kernel call leaves determines it, byte by byte, when the accessible addresses are the
same. -/
theorem get?_eq_of_tileResult {mr nr nv : Nat} {first : Bool} {e : Engine} {m m' m'' : Memory}
    (h : TileResult mr nr nv first e m m') (h' : TileResult mr nr nv first e m m'') (hv : SameValid m' m'') (a : Nat) :
    Memory.get? m' a = Memory.get? m'' a := by
  by_cases ha : TileBytes mr nv e a
  · obtain ⟨i, j, t, hi, hj, ht, rfl⟩ := ha
    exact get?_eq_of_readI32_eq hv ((h.element i j hi hj).trans (h'.element i j hi hj).symm) ht
  · rw [h.rest a ha, h'.rest a ha]

/-- A kernel call inside the contract leaves its tile and leaves `Valid` as it was (R54, R171). -/
theorem run_kernel_result {mr nr nv : Nat} {e : Engine} {m : Memory} (hmr : mr ≤ 8) (hnr : nr ≤ 6) (hnv : nv ≤ nr)
    (hc : KernelContract mr nr nv e m) (first : Bool) (d : Nat) :
    TileResult mr nr nv first e m ((Job.kernel mr nr nv first).run d e m).2 ∧
      SameValid m ((Job.kernel mr nr nv first).run d e m).2 :=
  ⟨tileResult_run_kernel hmr hnr hnv hc.v6 d m, (leaves_run (j := .kernel mr nr nv first) d hc).valid hc⟩

/-- Settles O25: the two calls over the slices leave the tile that the one call leaves. -/
theorem splitKEqualsOneCall : Obligations.SplitKEqualsOneCall := by
  intro mr nr nv d d₁ d₂ first e e₁ e₂ m K₁ K₂ hmr hnr hnv hc hmod₁ hmod₂ hmin₁ hmin₂ hK ha₁ hb₁ hk₁ ho₁ hl₁ ha₂ hb₂
    hk₂ ho₂ hl₂
  have hmr : mr ≤ 8 := by omega
  have hnr : nr ≤ 6 := by omega
  have h₁ : IsSlice mr nr e e₁ 0 K₁ := ⟨ha₁, hb₁, hk₁, ho₁, hl₁⟩
  have h₂ : IsSlice mr nr e e₂ K₁ K₂ := ⟨ha₂, hb₂, hk₂, ho₂, hl₂⟩
  have hc₁ := h₁.contract hc (by omega) hmod₁ hmin₁
  obtain ⟨hres₁, hvalid₁⟩ := run_kernel_result hmr hnr hnv hc₁ first d₁
  have hc₂ : KernelContract mr nr nv e₂ ((Job.kernel mr nr nv first).run d₁ e₁ m).2 :=
    contract_mono (j := .kernel mr nr nv false) (fun a => Accessible.congr (hvalid₁ a).symm)
      (h₂.contract hc (by omega) hmod₂ hmin₂)
  obtain ⟨hres₂, hvalid₂⟩ := run_kernel_result hmr hnr hnv hc₂ false d₂
  obtain ⟨hres, hvalid⟩ := run_kernel_result hmr hnr hnv hc first d
  exact ⟨hc₁, hc₂, get?_eq_of_tileResult (tileResult_two_slices h₁ h₂ hK hmod₁ hnv hc hres₁ hres₂) hres
    fun a => (hvalid a).trans ((hvalid₁.trans hvalid₂) a).symm⟩

end Sys2Proof.Machine

/-! SUPPORT. The packed product: two packers and a kernel, one after another (42_kernel_common.md R172). -/

namespace Sys2Proof.Machine

open Sys2Proof.Safety

/-! Call transactions one after another (R90). -/

/-- What a call event that completes leaves: the call was inside the contract, memory is what the call on these operands
leaves, and the event is off the agenda (R31, R90). -/
theorem step_call_next {s t : State} {n : Nat} {cmd : CmdWord} {x : Vector Word 7} {rest : List Event} {i : Instr}
    (hag : s.agenda = .call n cmd x :: rest) (hd : decode cmd = .ok i) (h : step s = .next t) :
    Contract (jobOf i) (holding x) s.mem ∧ t.agenda = rest ∧ t.mem = ((jobOf i).run 0 (holding x) s.mem).2 := by
  rw [step_cons hag, handle] at h
  obtain ⟨e, i', hn, -, hd', hexec⟩ := present_next.1 h
  obtain rfl : i = i' := Except.ok.inj (hd.symm.trans hd')
  obtain ⟨f, hf, -, hv, rfl⟩ := runJob_next.1 (runJob_of_exec hexec)
  obtain rfl := Option.some.inj ((State.latch_getElem? (s := { s with agenda := rest }) hn cmd x).symm.trans hf)
  obtain ⟨hc, -⟩ := (State.violation_eq_none i _ _ _).1 hv
  exact ⟨(contract_holding _ _ _).2 hc, rfl,
    onlyOperandsAndMemoryMatter i s.draws 0 _ (holding x) s.mem (decode_eq_ok_iff.1 hd).1 rfl⟩

/-- A run that completes takes its first step and completes from there. -/
theorem run_succ_next {M : Host.Core} {k : Nat} {s t : M.State} (h : M.run (k + 1) s = .next t) :
    ∃ s', M.step s = .next s' ∧ M.run k s' = .next t := by
  unfold Host.Core.run at h
  split at h
  · exact ⟨_, ‹_›, h⟩
  · cases h
  · cases h

/-- A run whose first step completes goes on from there. -/
theorem run_succ_of_step {M : Host.Core} {s s' : M.State} (h : M.step s = .next s') (k : Nat) :
    M.run (k + 1) s = M.run k s' := by
  simp only [Host.Core.run, h]

/-- Three call events that complete are three calls inside the contract, one on the memory of the other (R90). -/
theorem run_three_calls {s t : State} {n : Nat} {c₁ c₂ c₃ : CmdWord} {x₁ x₂ x₃ : Vector Word 7} {rest : List Event}
    {i₁ i₂ i₃ : Instr} (hag : s.agenda = .call n c₁ x₁ :: .call n c₂ x₂ :: .call n c₃ x₃ :: rest)
    (h₁ : decode c₁ = .ok i₁) (h₂ : decode c₂ = .ok i₂) (h₃ : decode c₃ = .ok i₃)
    (h : Host.Core.run core 3 s = .next t) :
    ∃ m₁ m₂, (Contract (jobOf i₁) (holding x₁) s.mem ∧ m₁ = ((jobOf i₁).run 0 (holding x₁) s.mem).2) ∧
      (Contract (jobOf i₂) (holding x₂) m₁ ∧ m₂ = ((jobOf i₂).run 0 (holding x₂) m₁).2) ∧
      (Contract (jobOf i₃) (holding x₃) m₂ ∧ t.mem = ((jobOf i₃).run 0 (holding x₃) m₂).2) := by
  obtain ⟨s₁, hs₁, h⟩ := run_succ_next h
  obtain ⟨s₂, hs₂, h⟩ := run_succ_next h
  obtain ⟨s₃, hs₃, h⟩ := run_succ_next h
  obtain rfl : s₃ = t := by cases h; rfl
  obtain ⟨hc₁, hag₁, hm₁⟩ := step_call_next hag h₁ hs₁
  obtain ⟨hc₂, hag₂, hm₂⟩ := step_call_next hag₁ h₂ hs₂
  obtain ⟨hc₃, -, hm₃⟩ := step_call_next hag₂ h₃ hs₃
  exact ⟨s₁.mem, s₂.mem, ⟨hc₁, hm₁⟩, ⟨hc₂, hm₂⟩, hc₃, hm₃⟩

/-! The panels a kernel call finds (R123, R144). -/

/-- A whole `PACK_A` call inside the contract leaves its panels (R122, R123). -/
theorem packAResult_run {e : Engine} {m : Memory} (hc : PackAContract e m) (d : Nat) :
    PackAResult e m (Job.packA.run d e m).2 := by
  have hbegun := (contract_of_x (Job.begin_x .packA e) .packA m).2 hc
  obtain ⟨h8, h4, hrest⟩ := packAResult_copyA (e := Job.packA.begin e) rfl hbegun
  exact ⟨h8, h4, hrest⟩

/-- A whole `PACK_B` call inside the contract leaves its panels (R143, R144). -/
theorem packBResult_run {e : Engine} {m : Memory} (hc : PackBContract e m) (d : Nat) :
    PackBResult e m (Job.packB.run d e m).2 := by
  have hbegun := (contract_of_x (Job.begin_x .packB e) .packB m).2 hc
  obtain ⟨h6, h4, hshort, hrest⟩ := packBResult_copyB (e := Job.packB.begin e) hbegun
  exact ⟨h6, h4, hshort, hrest⟩

/-- Row `r` of a packed A panel holds its row of `A` (R60, R123). -/
theorem read_panelA {e : Engine} {mr ptr row : Nat} {m m' : Memory} (h : IsPanelA e mr ptr row)
    (hres : PackAResult e m m') {r s kk : Nat} (hr : r < mr) (hs : s < (e.kmax - e.k0) / 4) (hkk : kk < 4) :
    Memory.read m' (ptr + 4 * mr * s + 4 * r + kk) = Memory.read m (e.addrA (row + r) (e.k0 + 4 * s + kk)) := by
  obtain ⟨rfl, p, hp, rfl, rfl⟩ | ⟨rfl, hone, rfl, rfl⟩ := h
  · exact hres.rows8 p s r kk hp hs hr hkk
  · exact hres.rows4 hone s r kk hs hr hkk

/-- A packed A panel lies in the packed region (R60, R126). -/
theorem packAWrites_panelA {e : Engine} {mr ptr row : Nat} (h : IsPanelA e mr ptr row) {t : Nat}
    (ht : t < mr * (e.kmax - e.k0)) : PackAWrites e (ptr + t) := by
  unfold PackAWrites
  obtain ⟨rfl, p, hp, rfl, rfl⟩ | ⟨rfl, hone, rfl, rfl⟩ := h
  · have : (p + 1) * 8 * (e.kmax - e.k0) ≤ (e.hi - e.lo) * (e.kmax - e.k0) := by gcongr; omega
    have : (p + 1) * 8 * (e.kmax - e.k0) = p * 8 * (e.kmax - e.k0) + 8 * (e.kmax - e.k0) := by ring
    omega
  · have : ((e.hi - e.lo) / 8 * 8 + 4) * (e.kmax - e.k0) ≤ (e.hi - e.lo) * (e.kmax - e.k0) := by gcongr; omega
    have : ((e.hi - e.lo) / 8 * 8 + 4) * (e.kmax - e.k0) =
        (e.hi - e.lo) / 8 * 8 * (e.kmax - e.k0) + 4 * (e.kmax - e.k0) := by ring
    omega

/-- A real column `j` of a packed B panel holds its column of `B`, which is one of those packed (R64, R144). -/
theorem read_panelB {e : Engine} {nr nv ptr col : Nat} {m m' : Memory} (h : IsPanelB e nr nv ptr col)
    (hres : PackBResult e m m') {j s kk : Nat} (hj : j < nv) (hs : s < (e.kmax - e.k0) / 4) (hkk : kk < 4) :
    Memory.read m' (ptr + 4 * nr * s + 4 * j + kk) = Memory.read m (e.addrB (e.k0 + 4 * s + kk) (col + j)) ∧
      e.lo ≤ col + j ∧ col + j < e.hi := by
  obtain ⟨hcols, -⟩ := packB_columns e
  obtain ⟨rfl, hnv, q, hq, rfl, rfl⟩ | ⟨rfl, hnv, hone, rfl, rfl⟩ | ⟨rfl, hrem, hnv, rfl, rfl⟩ := h
  · exact ⟨hres.cols6 q s j kk hq hs (by omega) hkk, by omega, by omega⟩
  · exact ⟨hres.cols4 hone s j kk hs (by omega) hkk, by omega, by omega⟩
  · exact ⟨(hres.short hrem s kk hs hkk).1 j (by omega), by omega, by omega⟩

/-- The source bytes of the packed columns are those `PACK_B` reads (R59, R147). -/
theorem packBReads_addrB {e : Engine} (hk0 : e.k0 % 4 = 0) {s kk c : Nat} (hs : s < (e.kmax - e.k0) / 4) (hkk : kk < 4)
    (hlo : e.lo ≤ c) (hhi : c < e.hi) : PackBReads e (e.addrB (e.k0 + 4 * s + kk) c) := by
  refine ⟨s, hs, ?_⟩
  rw [Engine.addrB, show (e.k0 + 4 * s + kk) / 4 = e.k0 / 4 + s by omega]
  omega

section
variable {ea eb : Engine} {m mA mB : Memory} (hA : PackAResult ea m mA) (hB : PackBResult eb mA mB)
include hA hB

/-- After both packers an A panel still holds its rows of `A`, if `PACK_B` does not write into the A buffer (R172). -/
theorem read_panelA_packed {mr ptr row : Nat} (h : IsPanelA ea mr ptr row)
    (hapart : ∀ a, PackAWrites ea a → ¬ PackBWrites eb a) {r s kk : Nat} (hr : r < mr) (hs : s < (ea.kmax - ea.k0) / 4)
    (hkk : kk < 4) :
    Memory.read mB (ptr + 4 * mr * s + 4 * r + kk) = Memory.read m (ea.addrA (row + r) (ea.k0 + 4 * s + kk)) := by
  have hin := packAWrites_panelA h (panelByte_lt hr hkk hs)
  rw [← read_panelA h hA hr hs hkk, Nat.add_assoc, Nat.add_assoc, ← Nat.add_assoc (4 * mr * s)]
  exact Memory.read_congr (hB.rest _ (hapart _ hin))

/-- After both packers a B panel holds its columns of `B` as they stood before `PACK_A`, if `PACK_A` did not write into
the source of `PACK_B` (R172). -/
theorem read_panelB_packed {nr nv ptr col : Nat} (h : IsPanelB eb nr nv ptr col)
    (hapart : ∀ a, PackAWrites ea a → ¬ PackBReads eb a) (hk0 : eb.k0 % 4 = 0) {j s kk : Nat} (hj : j < nv)
    (hs : s < (eb.kmax - eb.k0) / 4) (hkk : kk < 4) :
    Memory.read mB (ptr + 4 * nr * s + 4 * j + kk) = Memory.read m (eb.addrB (eb.k0 + 4 * s + kk) (col + j)) := by
  obtain ⟨hread, hlo, hhi⟩ := read_panelB h hB hj hs hkk
  exact hread.trans (Memory.read_congr (hA.rest _ fun hw => hapart _ hw (packBReads_addrB hk0 hs hkk hlo hhi)))

/-- After both packers a tile apart from the packed buffers still holds the elements it started with (R164, R172). -/
theorem initialElement_packed {mr nv r j : Nat} {ek : Engine}
    (htile : ∀ a, TileBytes mr nv ek a → ¬ PackAWrites ea a ∧ ¬ PackBWrites eb a) (hr : r < mr) (hj : j < nv)
    (first : Bool) : initialElement first ek mB r j = initialElement first ek m r j := by
  have hbyte : ∀ u, u < 4 → Memory.get? mB (ek.outp + 4 * (r * ek.ldc + j) + u) =
      Memory.get? m (ek.outp + 4 * (r * ek.ldc + j) + u) := fun u hu => by
    obtain ⟨hnA, hnB⟩ := htile _ ⟨r, j, u, hr, hj, hu, rfl⟩
    rw [hB.rest _ hnB, hA.rest _ hnA]
  rw [initialElement, initialElement, Memory.readI32_congr fun u hu => Memory.read_congr (hbyte u hu)]

end

/-- A sum over `4*n` terms, four at a time. -/
theorem sum_range_four_mul (f : Nat → Int) (n : Nat) :
    ((List.range (4 * n)).map f).sum =
      ((List.range n).map fun s => ((List.range 4).map fun kk => f (4 * s + kk)).sum).sum := by
  induction n with
  | zero => rfl
  | succ n ih =>
    rw [Nat.mul_succ, List.range_add, List.map_append, List.sum_append, ih, List.map_map, List.sum_range_succ _ n]
    rfl

/-- Settles O27: the kernel finds in the panels the elements of `A` and `B` as they stood at the start, and in the
destination its first values. -/
theorem packedProductEqualsTheReference : Obligations.PackedProductEqualsTheReference := by
  intro s t n xa xb xk cmd rest i mr nr nv first row col ea eb ek hag hd hjob hrun hk0 hkmax hklen hpa hpb hapart htile
    r j hr hj
  obtain ⟨hmr, hnr, hnv⟩ := kernel_shape_le (decode_eq_ok_iff.1 hd).1 hjob
  obtain ⟨mA, mB, ⟨hcA, hmA⟩, ⟨hcB, hmB⟩, hcK, hmK⟩ :=
    run_three_calls (i₁ := .packA) (i₂ := .packB) hag (by decide) (by decide) hd hrun
  rw [hjob] at hcK hmK
  have hresA : PackAResult ea s.mem mA := hmA ▸ packAResult_run hcA 0
  have hresB : PackBResult eb mA mB := hmB ▸ packBResult_run hcB 0
  have hresK : TileResult mr nr nv first ek mB t.mem :=
    hmK ▸ tileResult_run_kernel hmr hnr hnv (KernelContract.v6 hcK) 0 mB
  obtain ⟨hk0B, -, hmod⟩ : eb.k0 % 4 = 0 ∧ eb.k0 ≤ eb.kmax ∧ (eb.kmax - eb.k0) % 4 = 0 := PackBContract.v4 hcB
  have hdepth : ea.kmax - ea.k0 = 4 * (ek.klen / 4) := by omega
  have hsum : panelSum mr nr ek mB r j = referenceSum ea eb s.mem (row + r) (col + j) := by
    rw [referenceSum, hdepth, sum_range_four_mul]
    refine congrArg List.sum (List.map_congr_left fun st hst =>
      congrArg List.sum (List.map_congr_left fun kk hkk => ?_))
    have hst := List.mem_range.1 hst
    have hkk := List.mem_range.1 hkk
    rw [read_panelA_packed hresA hresB hpa (fun a ha => (hapart a ha).2) hr (by omega) hkk,
      read_panelB_packed hresA hresB hpb (fun a ha => (hapart a ha).1) hk0B hj (by omega) hkk, Nat.add_assoc,
      Nat.add_assoc]
  rw [hresK.element r j hr hj, initialElement_packed hresA hresB htile hr hj, hsum]

end Sys2Proof.Machine

/-! SUPPORT. Every run ends: the steps the running calls still take (42_kernel_common.md R179; 70_reset_and_hazards.md
R250, R251). -/

namespace Sys2Proof.Machine

open Sys2Proof.Safety

/-- How many steps an engine still takes: those its call has left, none when it is idle (R179). -/
def Engine.stepsLeft (e : Engine) : Nat := (e.job?.map fun j => j.left e).getD 0

/-- How many steps the running calls of a machine still take together (R250). -/
def State.stepsLeft (s : State) : Nat := (s.engines.map Engine.stepsLeft).sum

theorem Engine.stepsLeft_of_idle {e : Engine} (h : e.phase = .idle) : e.stepsLeft = 0 := by
  simp [Engine.stepsLeft, Engine.job?, h]

theorem Runs.stepsLeft {s : State} {n : Nat} {i : Instr} {e : Engine} (h : Runs s n i e) :
    e.stepsLeft = (jobOf i).left e := by
  rw [Engine.stepsLeft, Engine.job?_busy (inSequence_busy h.inSequence) h.decodes]
  rfl

/-- A smaller entry makes a smaller sum. -/
theorem sum_stepsLeft_set_lt {l : List Engine} {n : Nat} {e f : Engine} (hn : l[n]? = some e)
    (h : f.stepsLeft < e.stepsLeft) : ((l.set n f).map Engine.stepsLeft).sum < (l.map Engine.stepsLeft).sum := by
  induction l generalizing n with
  | nil => simp at hn
  | cons g l ih =>
    cases n with
    | zero =>
      obtain rfl : g = e := by simpa using hn
      simpa using h
    | succ n => simpa using ih (by simpa using hn)

/-- A step of a running call leaves its engine with fewer steps (R23, R179). -/
theorem Runs.stepsLeft_tick_lt {s : State} {n : Nat} {i : Instr} {e : Engine} (h : Runs s n i e) :
    ((jobOf i).tick s.draws (e, s.mem)).1.stepsLeft < e.stepsLeft := by
  rw [h.stepsLeft]
  rcases h.tick with ⟨-, hend⟩ | ⟨hp, f, htick, -, -, hodd, hf⟩
  · rw [hend, Engine.stepsLeft_of_idle rfl]
    exact left_pos h.inSequence
  · have hphase : PhaseStep e f := by simpa only [htick] using phaseStep_tick s.draws s.mem h.inSequence
    obtain ⟨hleft, -⟩ := left_tick h.inSequence hphase hodd hp
    rw [htick, hf.stepsLeft]
    omega

/-- What the machine does by itself: nothing when every engine is idle, else a step of a running engine (R250, R251). -/
theorem goOn_cases (s : State) : ((∀ e ∈ s.engines, e.phase = .idle) ∧ goOn s = .next s) ∨
    ∃ n e, s.engines[n]? = some e ∧ e.phase ≠ .idle ∧ goOn s = advance n s := by
  unfold goOn
  split
  · next n hfind =>
    obtain ⟨hlt, hbusy, -⟩ := List.findIdx?_eq_some_iff_getElem.1 hfind
    exact .inr ⟨n, _, List.getElem?_eq_getElem hlt, of_decide_eq_true hbusy, rfl⟩
  · next hfind => exact .inl ⟨by simpa using List.findIdx?_eq_none_iff.1 hfind, rfl⟩

/-- With no event left, a machine that meets the invariant is idle and stays as it is, or a running call takes a step
(R250, R251). -/
theorem step_of_no_event {s : State} (hs : Inv s) (hag : s.agenda = []) :
    ((∀ e ∈ s.engines, e.phase = .idle) ∧ step s = .next s) ∨
      ∃ n i e, Runs s n i e ∧ step s = .next (s.ticked n (jobOf i) e) := by
  have hstep : step s = goOn s := by rw [step, hag]
  rw [hstep]
  rcases goOn_cases s with hidle | ⟨n, e, hn, hbusy, hgo⟩
  · exact .inl hidle
  · obtain ⟨i, hd, hseq, hc, hr⟩ := hs.running n e hn hbusy
    have hrun : Runs s n i e := ⟨hn, hd, hseq, hc, hr⟩
    exact .inr ⟨n, i, e, hrun, hgo.trans hrun.advance⟩

/-- Settles O40: by induction on the steps the running calls still take together. -/
theorem everyRunEnds : Obligations.EveryRunEnds := by
  intro s hs hag
  induction hleft : s.stepsLeft using Nat.strong_induction_on generalizing s with
  | _ left ih =>
    rcases step_of_no_event hs hag with ⟨hidle, hstep⟩ | ⟨n, i, e, hrun, hstep⟩
    · exact ⟨0, s, rfl, hidle, hag, hstep⟩
    · have hfewer : (s.ticked n (jobOf i) e).stepsLeft < left := by
        rw [← hleft]
        exact sum_stepsLeft_set_lt hrun.engine hrun.stepsLeft_tick_lt
      obtain ⟨k, t, hk, hend⟩ := ih _ hfewer _ (stepKeepsTheInvariant s _ hs hstep) hag rfl
      exact ⟨k + 1, t, (run_succ_of_step (M := core) hstep k).trans hk, hend⟩

end Sys2Proof.Machine

/-! SUPPORT. The columns a remainder kernel leaves alone, and kernel calls without a valid column
(44_kernels_remainder.md R202, R204, R205). -/

namespace Sys2Proof.Machine

open Sys2Proof.Safety

/-! Columns from `NREM` on (R205). -/

/-- A byte of a row from column `nv` on is in no valid element, of that row or of another (R71, R205). -/
theorem not_tileBytes_of_le_column {mr nv i j u : Nat} {e : Engine} (hj : nv ≤ j) (hldc : j < e.ldc) (hu : u < 4) :
    ¬ TileBytes mr nv e (e.outp + 4 * (i * e.ldc + j) + u) := by
  rintro ⟨i', j', t, -, hj', ht, heq⟩
  have hcolumn : j' = j := by
    refine (e.addrC_inj (i := i) (i' := i') le_rfl hldc (by omega : j' < e.ldc)
      (x := e.outp + 4 * (i * e.ldc + j) + u) ?_ ?_).2 <;> rw [e.addrC_eq] <;> omega
  omega

/-- A row of the tile after a kernel call: results in the valid columns, the columns after them as before (R171,
R205). -/
theorem row_of_tileResult {mr nr nv : Nat} {first : Bool} {e : Engine} {m m' : Memory}
    (h : TileResult mr nr nv first e m m') {i : Nat} (hi : i < mr) :
    (∀ j, j < nv → Memory.readI32 m' (e.outp + 4 * (i * e.ldc + j)) =
      wrap32 (initialElement first e m i j + panelSum mr nr e m i j)) ∧
    (∀ j, nv ≤ j → j < e.ldc → ∀ u, u < 4 →
      Memory.get? m' (e.outp + 4 * (i * e.ldc + j) + u) = Memory.get? m (e.outp + 4 * (i * e.ldc + j) + u)) :=
  ⟨fun j hj => h.element i j hi hj, fun _ hj hldc _ hu => h.rest _ (not_tileBytes_of_le_column hj hldc hu)⟩

/-- Settles O19: both remainder kernels leave the tile of O18, row by row. -/
theorem columnsFromNremOnUnmodified : Obligations.ColumnsFromNremOnUnmodified := by
  intro s e first nrem hn
  obtain ⟨h8, h4⟩ := remainderKernelsCompleteWithTheirColumns s e first nrem hn
  refine ⟨fun hready => ?_, fun hready => ?_⟩
  · obtain ⟨t, hexec, htile, -⟩ := h8 hready
    exact ⟨t, hexec, fun _ => row_of_tileResult htile⟩
  · obtain ⟨t, hexec, htile, -⟩ := h4 hready
    exact ⟨t, hexec, fun _ => row_of_tileResult htile⟩

/-! No valid column (R204). -/

/-- With no valid column `STORE` writes nothing (R169, R204). -/
theorem Engine.storeTile_no_column (e : Engine) (mr : Nat) (m : Memory) : e.storeTile mr 0 m = m := by
  have hitems : tileItems mr 0 = [] := List.eq_nil_iff_forall_not_mem.2 fun _ hk =>
    absurd (mem_tileItems.1 hk).2 (Nat.not_lt_zero _)
  rw [e.storeTile_eq, hitems]
  rfl

/-- A kernel call inside the contract with no valid column completes and leaves memory as it was (R204). -/
theorem exec_kernel_of_no_column {i : Instr} {s : State} {e : Engine} {mr nr : Nat} {first : Bool}
    (hwf : i.wf = true) (hj : jobOf i = .kernel mr nr 0 first) (h : Ready s (.kernel mr nr 0 first) e) :
    ∃ t, exec i s = .next t ∧ t.mem = s.mem := by
  obtain ⟨hexec, -⟩ := exec_of_ready hwf (hj ▸ h)
  refine ⟨_, hexec, ?_⟩
  rw [State.completed, hj, Job.run_kernel]
  exact Engine.storeTile_no_column _ mr s.mem

/-- A call that completes was inside the contract (R211). -/
theorem contract_of_exec {i : Instr} {s t : State} {e : Engine} (he : s.engines[s.active]? = some e)
    (h : exec i s = .next t) : Contract (jobOf i) e s.mem := by
  obtain ⟨e', hn, -, hv, -⟩ := runJob_next.1 (runJob_of_exec h)
  obtain rfl := Option.some.inj (he.symm.trans hn)
  exact ((State.violation_eq_none i s s.active e).1 hv).1

/-- A kernel call does not complete while a byte of its panels is inaccessible, however few columns are valid (R204,
R211). -/
theorem not_exec_of_inaccessible_panel {i : Instr} {s : State} {e : Engine} {mr nr nv : Nat} {first : Bool}
    (hj : jobOf i = .kernel mr nr nv first) (he : s.engines[s.active]? = some e)
    (h : ∃ a, PanelReads mr nr e a ∧ ¬ Accessible s.mem a) : ¬ ∃ t, exec i s = .next t := by
  rintro ⟨t, hexec⟩
  obtain ⟨a, hread, hacc⟩ := h
  have hc := contract_of_exec he hexec
  rw [hj] at hc
  exact hacc (KernelContract.v8 hc a (.inl hread))

/-- Settles O20: `STORE` has no column to write, and a call that completes had accessible panels. -/
theorem nremZeroLeavesMemory : Obligations.NremZeroLeavesMemory :=
  fun _ _ first => ⟨exec_kernel_of_no_column (i := .kern8x4 first 0) rfl rfl,
    exec_kernel_of_no_column (i := .kern4x4 first 0) rfl rfl,
    fun he _ => not_exec_of_inaccessible_panel (i := .kern8x4 first 0) rfl he,
    fun he _ => not_exec_of_inaccessible_panel (i := .kern4x4 first 0) rfl he⟩

end Sys2Proof.Machine

/-! SUPPORT. The machine's checks one by one and the violations of R211, and when a call completes or is refused
(60_exceptions.md R211, R213). -/

namespace Sys2Proof.Machine

open Sys2Proof.Safety

/-! The first check that fails. -/

/-- The first check that fails, found in any order that lists the reasons of the checks as they stand. -/
theorem firstViolation_eq_find? {l : List (Bool × Refusal)} {order : List Refusal}
    (hsub : (l.map Prod.snd).Sublist order) (hnodup : order.Nodup) :
    firstViolation l = order.find? fun q => decide ((true, q) ∈ l) := by
  induction order generalizing l with
  | nil =>
    obtain rfl := List.map_eq_nil_iff.1 (List.sublist_nil.1 hsub)
    rfl
  | cons q order ih =>
    obtain ⟨hq, hrest⟩ := List.nodup_cons.1 hnodup
    have absent : ∀ {l : List (Bool × Refusal)}, (l.map Prod.snd).Sublist order → (true, q) ∉ l :=
      fun hl hmem => hq (hl.subset (List.mem_map_of_mem hmem))
    rcases List.sublist_cons_iff.1 hsub with hl | ⟨reasons, hl, hreasons⟩
    · rw [List.find?_cons_of_neg (by simpa using absent hl)]
      exact ih hl hrest
    · obtain ⟨⟨bad, r⟩, checks, rfl, hr, rfl⟩ := List.map_eq_cons_iff.1 hl
      obtain rfl : r = q := hr
      cases bad with
      | true => simp [firstViolation]
      | false => simpa [firstViolation, absent hreasons] using ih hreasons hrest

/-- The checks of V2 to V10 that a call is put through, in the order of R213. -/
def Job.checks (j : Job) (e : Engine) (m : Memory) : List (Bool × Refusal) :=
  (j.badScalar e, .v7ScalarRange) :: j.operandChecks e
    ++ [(j.badAccess e m, .v8Access), (j.badOverlap e, .v10Overlap)]

/-- The machine's order is that of R213, with the checks of other commands left out. -/
theorem Job.checks_sublist (j : Job) (e : Engine) (m : Memory) : ((j.checks e m).map Prod.snd).Sublist testOrder := by
  cases j with
  | packA =>
    show [Refusal.v7ScalarRange, .v3RowRange, .v4ReductionRange, .v8Access, .v10Overlap].Sublist testOrder
    decide
  | packB =>
    show [Refusal.v7ScalarRange, .v4ReductionRange, .v5ColumnRange, .v8Access, .v10Overlap].Sublist testOrder
    decide
  | kernel mr nr nv first =>
    show [Refusal.v7ScalarRange, .v2ReductionLength, .v6RowStride, .v9OutputAlignment, .v8Access,
      .v10Overlap].Sublist testOrder
    decide

/-- The machine finds the first reason in the order of R213 whose check fails. -/
theorem Job.violation_eq_find? (j : Job) (e : Engine) (m : Memory) :
    j.violation e m = testOrder.find? fun q => decide ((true, q) ∈ j.checks e m) :=
  firstViolation_eq_find? (j.checks_sublist e m) (by decide)

/-! Each check fails exactly when the call violates its condition (R211). -/

/-- V7. -/
theorem badScalar_iff {j : Job} {e : Engine} {m : Memory} : j.badScalar e = true ↔ Violates j e m .v7ScalarRange := by
  rw [← Bool.not_eq_false, badScalar_eq_false]
  cases j <;> simp only [Job.scalars, Violates, not_forall, exists_prop, not_le, List.mem_cons, List.not_mem_nil,
    or_false, exists_eq_or_imp, exists_eq_left]

/-- V8. -/
theorem badAccess_iff (i : Instr) (e : Engine) (m : Memory) :
    (jobOf i).badAccess e m = true ↔ Violates (jobOf i) e m .v8Access := by
  rw [← Bool.not_eq_false, badAccess_eq_false]
  simp only [mem_inputs_or_outputs, Violates, exists_or, not_and_or, not_forall, exists_prop, not_lt]

/-- V10. -/
theorem badOverlap_iff {j : Job} {e : Engine} {m : Memory} : j.badOverlap e = true ↔ Violates j e m .v10Overlap := by
  rw [Job.badOverlap, ← Bool.not_eq_false, overlap_eq_false]
  cases j <;> simp [Job.inputs, Job.outputs, Violates, mem_packASource, mem_packAPacked, mem_packBSource,
    mem_packBPacked, mem_panels, mem_tile]

/-- V2. -/
theorem Engine.badK_iff (e : Engine) : e.badK = true ↔ e.klen % 4 ≠ 0 ∨ e.klen < 4 := by
  rw [Engine.badK, Bool.or_eq_true, decide_eq_true_iff, decide_eq_true_iff, Config.kMin]

/-- V3. -/
theorem Engine.badRows_iff (e : Engine) : e.badRows = true ↔ e.lo % 4 ≠ 0 ∨ e.hi < e.lo ∨ (e.hi - e.lo) % 4 ≠ 0 := by
  simp only [Engine.badRows, Bool.or_eq_true, decide_eq_true_iff, or_assoc]

/-- V4. -/
theorem Engine.badReduction_iff (e : Engine) :
    e.badReduction = true ↔ e.k0 % 4 ≠ 0 ∨ e.kmax < e.k0 ∨ (e.kmax - e.k0) % 4 ≠ 0 := by
  simp only [Engine.badReduction, Bool.or_eq_true, decide_eq_true_iff, or_assoc]

/-- V5. -/
theorem Engine.badColumns_iff (e : Engine) : e.badColumns = true ↔ e.hi < e.lo := decide_eq_true_iff

/-- V6. -/
theorem Engine.badStride_iff (e : Engine) (nr : Nat) : e.badStride nr = true ↔ e.ldc < nr := decide_eq_true_iff

/-- V9. -/
theorem Engine.badAlignment_iff (e : Engine) : e.badAlignment = true ↔ e.outp % 4 ≠ 0 := decide_eq_true_iff

/-- The operand checks of a command are V2 to V6 and V9, each where it concerns the command. -/
theorem mem_operandChecks {j : Job} {e : Engine} {m : Memory} {q : Refusal} :
    (true, q) ∈ j.operandChecks e ↔
      Violates j e m q ∧ q ≠ .v7ScalarRange ∧ q ≠ .v8Access ∧ q ≠ .v10Overlap := by
  cases j with
  | packA => cases q <;> simp [Job.operandChecks, Violates, e.badRows_iff, e.badReduction_iff]
  | packB => cases q <;> simp [Job.operandChecks, Violates, e.badReduction_iff, e.badColumns_iff]
  | kernel mr nr nv first =>
    cases q <;> simp [Job.operandChecks, Violates, e.badK_iff, e.badStride_iff, e.badAlignment_iff]

/-- A call fails the check of exactly the conditions it violates. -/
theorem mem_checks (i : Instr) (e : Engine) (m : Memory) (q : Refusal) :
    (true, q) ∈ (jobOf i).checks e m ↔ Violates (jobOf i) e m q := by
  simp only [Job.checks, List.cons_append, List.mem_cons, List.mem_append, Prod.mk.injEq, List.not_mem_nil, or_false,
    @eq_comm _ true, badScalar_iff (m := m), badAccess_iff, badOverlap_iff (m := m), mem_operandChecks (m := m)]
  by_cases h7 : q = .v7ScalarRange
  · simp [h7]
  by_cases h8 : q = .v8Access
  · simp [h8]
  by_cases h10 : q = .v10Overlap
  · simp [h10]
  simp [h7, h8, h10]

/-- The violation the machine finds is the first in the order of R213. -/
theorem Job.violation_eq_some (i : Instr) (e : Engine) (m : Memory) (r : Refusal) :
    (jobOf i).violation e m = some r ↔ FirstViolated (jobOf i) e m r := by
  simp only [Job.violation_eq_find?, List.find?_eq_some_iff_append, mem_checks, FirstViolated, decide_eq_true_iff,
    Bool.not_eq_true', decide_eq_false_iff_not]
  constructor
  · rintro ⟨hr, before, after, horder, hbefore⟩
    exact ⟨before, after, horder, hr, hbefore⟩
  · rintro ⟨before, after, horder, hr, hbefore⟩
    exact ⟨hr, before, after, horder, hbefore⟩

/-- The machine finds no violation exactly when there is none. -/
theorem Job.violation_eq_none_iff (i : Instr) (e : Engine) (m : Memory) :
    (jobOf i).violation e m = none ↔ ∀ q, ¬ Violates (jobOf i) e m q := by
  have hnone : (jobOf i).violation e m = none ↔ ∀ p ∈ (jobOf i).checks e m, p.1 = false := firstViolation_eq_none
  simp only [hnone, ← mem_checks]
  constructor
  · exact fun h q hq => Bool.noConfusion (h _ hq)
  · rintro h ⟨_ | _, q⟩ hq
    · rfl
    · exact absurd hq (h q)

/-- Whole calls: V2 to V10 in the order of R213, then V11 (log 16). -/
theorem State.violation_eq_some (i : Instr) (s : State) (n : Nat) (e : Engine) (r : Refusal) :
    s.violation n (jobOf i) e = some r ↔ FirstViolated (jobOf i) e s.mem r ∨
      ((∀ q, ¬ Violates (jobOf i) e s.mem q) ∧ ¬ NoRace s n (jobOf i) e ∧ r = .v11Race) := by
  rw [← Job.violation_eq_some, ← Job.violation_eq_none_iff, ← State.races_eq_false, State.violation]
  rcases (jobOf i).violation e s.mem with _ | q
  · rcases s.races n (jobOf i) e <;> simp [@eq_comm _ r]
  · simp

/-! Calls presented to an idle engine (R90, R211). -/

/-- A call presented to an idle engine is refused for the violation it meets. -/
theorem runJob_refused {j : Job} {s : State} {e : Engine} {r : Refusal} (he : s.engines[s.active]? = some e)
    (hp : e.phase = .idle) : runJob j s = .refused r ↔ s.violation s.active j e = some r := by
  rcases hv : s.violation s.active j e with _ | q
  · simp [runJob, he, hp, hv]
  · simp [runJob, he, hp, hv]

/-- Settles O10: a call that completes met no violation, and a count above 4 is no command. -/
theorem completesExactlyInsideTheContract : Obligations.CompletesExactlyInsideTheContract := by
  refine ⟨fun i s e hwf he hp => ⟨fun ⟨t, ht⟩ => ?_, fun hr => ⟨_, (exec_of_ready hwf hr).1⟩⟩,
    fun first nrem s hn => ?_⟩
  · obtain ⟨e', he', -, hv, -⟩ := runJob_next.1 (runJob_of_exec ht)
    obtain rfl := Option.some.inj (he.symm.trans he')
    obtain ⟨hc, hrace⟩ := (State.violation_eq_none i s s.active e).1 hv
    exact ⟨he, hp, hc, hrace⟩
  · have hillegal : ¬ nremLegal nrem = true := fun h => Nat.not_le.2 hn (of_decide_eq_true h)
    exact ⟨if_neg hillegal, if_neg hillegal⟩

/-- Settles O11: the checks in their order are the violations in theirs, and V11 is tested last. -/
theorem refusedForTheFirstViolation : Obligations.RefusedForTheFirstViolation := by
  intro i s e r hwf he hp
  rw [exec_eq_runJob hwf, runJob_refused he hp, State.violation_eq_some]

end Sys2Proof.Machine

/-! SUPPORT. What a reset leaves of memory when it abandons running calls (60_exceptions.md R214; 10_state.md R29). -/

namespace Sys2Proof.Machine

open Sys2Proof.Safety

/-! Running calls of a machine that meets the invariant. -/

/-- Under the invariant an engine that is not idle runs a command well (R23, R211). -/
theorem runs_of_inv {s : State} {n : Nat} {e : Engine} (hs : Inv s) (hn : s.engines[n]? = some e)
    (hp : e.phase ≠ .idle) : ∃ i, Runs s n i e := by
  obtain ⟨i, hd, hseq, hc, hr⟩ := hs.running n e hn hp
  exact ⟨i, hn, hd, hseq, hc, hr⟩

/-- Under the invariant no running call is outside the contract (R211). -/
theorem runningViolation_eq_none {s : State} (hs : Inv s) : s.runningViolation = none := by
  refine List.findSome?_eq_none_iff.2 fun ⟨e, n⟩ hmem => ?_
  by_cases hp : e.phase = .idle
  · exact if_pos hp
  · obtain ⟨i, hrun⟩ := runs_of_inv hs (List.mem_zipIdx_iff_getElem?.1 hmem) hp
    simp only [if_neg hp, Engine.job?_busy hp hrun.decodes]
    exact (State.violation_eq_none i s n e).2 ⟨hrun.contract, hrun.noRace⟩

/-! What a call's last step writes depends on its input region, which no running call writes (R70, R71). -/

/-- A command reads its input region (R70). -/
theorem reads_of_mem_inputs {j : Job} {e : Engine} {a : Nat} (h : a ∈ j.inputs e) : Reads j e a := by
  cases j with
  | packA => exact mem_packASource.1 h
  | packB => exact mem_packBSource.1 h
  | kernel mr nr nv first => exact .inl (mem_panels.1 h)

/-- Inside the contract no command writes its input region (V10). -/
theorem not_writes_of_mem_inputs {j : Job} {e : Engine} {m : Memory} {a : Nat} (hc : Contract j e m)
    (h : a ∈ j.inputs e) : ¬ Writes j e a := by
  cases j with
  | packA => exact PackAContract.v10 hc a (mem_packASource.1 h)
  | packB => exact PackBContract.v10 hc a (mem_packBSource.1 h)
  | kernel mr nr nv first => exact KernelContract.v10 hc a (mem_panels.1 h)

/-- The tile that `STORE` writes depends on the accumulator file alone (R169). -/
theorem agreeOn_storeTile (e : Engine) (mr nv : Nat) (m m' : Memory) :
    AgreeOn (TileBytes mr nv e) (e.storeTile mr nv m) (e.storeTile mr nv m') := by
  have hnone : AgreeOn (fun _ => False) m m' := fun _ h => h.elim
  have hblocks := hnone.writeSeq_blocks (addr := fun k : Nat × Nat => e.addrC k.1 k.2)
    (data := fun _ k => i32Bytes (e.accAt k.1 k.2)) (len := fun _ => 4) (l := tileItems mr nv) (by simp) (by simp)
  rw [e.storeTile_eq, e.storeTile_eq]
  intro a ha
  obtain ⟨i, hi, j, hj, hin⟩ : ∃ i < mr, ∃ j < nv, a ∈ List.range' (e.addrC i j) 4 := by
    simpa [Engine.tile] using mem_tile.2 ha
  exact hblocks a (.inr ⟨(i, j), mem_tileItems.2 ⟨hi, hj⟩, mem_range'_iff.1 hin⟩)

/-- What the last step of a call writes depends on its input region alone (R126, R147, R169). -/
theorem AgreeOn.tick_writes {j : Job} {e : Engine} {m m' : Memory} (d : Nat) (hs : InSequence j e)
    (hc : Contract j e m) (hp : e.phase = .store ∨ e.phase = .copy) (h : AgreeOn (fun a => a ∈ j.inputs e) m m') :
    AgreeOn (Writes j e) (j.tick d (e, m)).2 (j.tick d (e, m')).2 := by
  cases j with
  | packA =>
    rw [Job.tick_packA hs.1, Job.tick_packA hs.1]
    exact AgreeOn.copyA_writes hs.2 hc fun a ha => h a (mem_packASource.2 ha)
  | packB =>
    rw [Job.tick_packB hs.1, Job.tick_packB hs.1]
    exact AgreeOn.copyB_writes hc fun a ha => h a (mem_packBSource.2 ha)
  | kernel mr nr nv first =>
    rcases hp with hp | hp
    · rw [Job.tick_store hp, Job.tick_store hp]
      exact agreeOn_storeTile e mr nv m m'
    · exact (by simpa only [hp] using hs.2 : False).elim

/-! Abandoned calls. -/

/-- Bytes stored at the chosen ones of a list of addresses. -/
theorem Memory.get?_foldl_set_if (chosen : Nat → Bool) (byte : Nat → Byte) (l : List Nat) (m : Memory) (x : Nat) :
    Memory.get? (l.foldl (fun acc a => if chosen a then Memory.set acc a (byte a) else acc) m) x =
      if x ∈ l ∧ chosen x then some (byte x) else Memory.get? m x := by
  induction l generalizing m with
  | nil => simp
  | cons a l ih =>
    rw [List.foldl_cons, ih]
    by_cases hx : x = a
    · subst hx
      cases chosen x <;> simp [Memory.get?_set]
    · cases chosen a <;> simp [hx, Memory.get?_set]

/-- A byte of an abandoned call is old or holds what the call's step would have stored (R214; log 9). -/
theorem get?_abandon {e : Engine} {j : Job} (hj : e.job? = some j) (d n : Nat) (m : Memory) (a : Nat) :
    Memory.get? (abandon d n e m) a = Memory.get? m a ∨ ((e.phase = .store ∨ e.phase = .copy) ∧ a ∈ j.outputs e ∧
      Memory.get? (abandon d n e m) a = some (Memory.read (j.tick d (e, m)).2 a)) := by
  rcases hp : e.phase with _ | _ | _ | _ | _ | _
  case store | copy =>
    simp only [abandon, hj, hp, abandon.mixed, Memory.get?_foldl_set_if]
    split
    · next h => exact .inr ⟨by simp, h.1, rfl⟩
    · exact .inl rfl
  all_goals exact .inl (by simp only [abandon, hj, hp])

/-- The byte `b` at `a` is what the step of a call in `STORE` or `COPY` that writes there would have left (R214). -/
def StoredByACall (s : State) (a : Nat) (b : Option Byte) : Prop :=
  ∃ (n : Nat) (e : Engine) (i : Instr), s.engines[n]? = some e ∧ (e.phase = .store ∨ e.phase = .copy) ∧
    decode e.cmd = .ok i ∧ Writes (jobOf i) e a ∧ b = Memory.get? ((jobOf i).tick s.draws (e, s.mem)).2 a

/-- Every byte of `m` is as in `s`, or as a running call would have left it (R214). -/
def OldOrNew (s : State) (m : Memory) : Prop :=
  ∀ a, Memory.get? m a = Memory.get? s.mem a ∨ StoredByACall s a (Memory.get? m a)

section
variable {s : State} {n : Nat} {i : Instr} {e : Engine}

/-- No call that was running has written the input region of a running call (R71, R80). -/
theorem OldOrNew.agreeOn_inputs {m : Memory} (hm : OldOrNew s m) (hrun : Runs s n i e) :
    AgreeOn (fun a => a ∈ (jobOf i).inputs e) s.mem m := by
  intro a ha
  refine ((hm a).resolve_right ?_).symm
  rintro ⟨k, f, i', hk, hp, hd, hw, -⟩
  by_cases hkn : k = n
  · subst hkn
    obtain rfl := Option.some.inj (hk.symm.trans hrun.engine)
    obtain rfl := Except.ok.inj (hd.symm.trans hrun.decodes)
    exact not_writes_of_mem_inputs hrun.contract ha hw
  · have hbusy : f.phase ≠ .idle := by rcases hp with hp | hp <;> simp [hp]
    exact ((hrun.noRace k f i' hk hkn hbusy hd) a).2 hw (reads_of_mem_inputs ha)

/-- A byte that a running call writes is listed after its step, so it reads as what is listed (R54). -/
theorem Runs.some_read_tick (hrun : Runs s n i e) (d : Nat) {a : Nat} (ha : Writes (jobOf i) e a) :
    some (Memory.read ((jobOf i).tick d (e, s.mem)).2 a) = Memory.get? ((jobOf i).tick d (e, s.mem)).2 a := by
  obtain ⟨-, b, hb⟩ := accessible_of_writes hrun.contract ha
  obtain ⟨c, hc⟩ := Option.ne_none_iff_exists'.1 ((jobOf i).listed_tick d e s.mem a (by simp [hb]))
  simp [Memory.read, hc]

/-- Abandoning one more call leaves each byte old or new. -/
theorem OldOrNew.abandon {m : Memory} (hs : Inv s) (hn : s.engines[n]? = some e) (hm : OldOrNew s m) :
    OldOrNew s (abandon s.draws n e m) := by
  by_cases hp : e.phase = .idle
  · have hnone : e.job? = none := if_pos hp
    simpa only [Machine.abandon, hnone] using hm
  obtain ⟨i, hrun⟩ := runs_of_inv hs hn hp
  intro a
  rcases get?_abandon (Engine.job?_busy hp hrun.decodes) s.draws n m a with hold | ⟨hlast, hout, hnew⟩
  · rw [hold]
    exact hm a
  · have hw := (mem_outputs i e a).1 hout
    have hagree := (hm.agreeOn_inputs hrun).tick_writes s.draws hrun.inSequence hrun.contract hlast a hw
    refine .inr ⟨n, e, i, hn, hlast, hrun.decodes, hw, ?_⟩
    rw [hnew, ← Memory.read_congr hagree, hrun.some_read_tick _ hw]

end

/-- Settles O39: the calls are abandoned engine by engine, and each leaves every byte old or new. -/
theorem resetAbandonsCalls : Obligations.ResetAbandonsCalls := by
  intro s rest hs hag
  have hnone := runningViolation_eq_none (inv_withAgenda hs rest)
  rw [step_cons hag, handle, platformReset, hnone]
  refine ⟨_, rfl, rfl, List.length_map _, fun e he => ?_, ?_⟩
  · obtain ⟨e', -, rfl⟩ := List.mem_map.1 he
    rfl
  · have hstart : OldOrNew s s.mem := fun a => .inl rfl
    exact List.foldlRecOn (motive := OldOrNew s) s.engines.zipIdx _ hstart fun m hm p hp =>
      hm.abandon hs (List.mem_zipIdx_iff_getElem?.1 hp)

end Sys2Proof.Machine
